-- ==== Sys2Proof/Word.lean ====
section
/-! DEFINITION. The word types of the engine (00_scope.md R11): bytes, 32-bit words, 64-bit words. -/

namespace Sys2Proof

/-- A byte is 8 bits (R11). -/
abbrev Byte := BitVec 8

/-- A 32-bit word: command words, float patterns, most interface registers (R22, R200). -/
abbrev Word32 := BitVec 32

/-- A 64-bit word: `WDATA`, `RDATA` and the elements of integer columns (R22, R66). -/
abbrev Word64 := BitVec 64

end Sys2Proof
end

