-- ==== Sys2Proof/Syntax.lean ====
section
/-! DEFINITION. The commands of the engine (30_encoding.md R95): one constructor per row of the opcode
table, and the nine codec units that a pipeline descriptor can name (R97). -/

namespace Sys2Proof

/-- The 28 commands (R95). The two with an operand carry the field `N` of the command word (R90). -/
inductive Instr where
  | bsWopen
  | bsWbit
  | bsWbits (n : BitVec 8)
  | bsFinish
  | bsRopen
  | bsRbit
  | bsRbits (n : BitVec 8)
  | bsAtend
  | deltaEnc
  | dodEnc
  | dodfEnc
  | xorfEnc
  | chimpEnc
  | huffEnc
  | grEnc
  | bpEnc
  | rleEnc
  | pipeEnc
  | deltaDec
  | dodDec
  | dodfDec
  | xorfDec
  | chimpDec
  | huffDec
  | grDec
  | bpDec
  | rleDec
  | pipeDec
  deriving DecidableEq, Repr

/-- The units a pipeline stage can name, in the order of their numbers 0 to 8 (R97). -/
inductive CodecUnit where
  | delta
  | dod
  | dodf
  | xorf
  | chimp
  | huff
  | gr
  | bp
  | rle
  deriving DecidableEq, Repr

end Sys2Proof
end

