-- ==== Sys2Proof/WellFormed.lean ====
section
/-! DEFINITION. Well-formed commands: the one constraint the opcode table puts on an operand is
`N <= 64` on `BS.WBITS` and `BS.RBITS` (30_encoding.md R91, R94). -/

namespace Sys2Proof

/-- A command the encoding admits (R91 check 3). -/
def Instr.wellFormed : Instr → Bool
  | .bsWbits n => decide (n.toNat ≤ 64)
  | .bsRbits n => decide (n.toNat ≤ 64)
  | .bsWopen | .bsWbit | .bsFinish | .bsRopen | .bsRbit | .bsAtend
  | .deltaEnc | .dodEnc | .dodfEnc | .xorfEnc | .chimpEnc | .huffEnc | .grEnc | .bpEnc | .rleEnc | .pipeEnc
  | .deltaDec | .dodDec | .dodfDec | .xorfDec | .chimpDec | .huffDec | .grDec | .bpDec | .rleDec | .pipeDec => true

end Sys2Proof
end

