-- ==== Sys2Proof/Decode.lean ====
section
/-! DEFINITION. The command word `F-CMD` (30_encoding.md R90): the decoder with the checks of R91 in
their order, and the encoder, both written from the operation code map of R95. -/

namespace Sys2Proof

/-- Why a word is no command (R91). A host that writes such a word gets `IllegalCommand` (R351). -/
inductive DecodeReject where
  /-- Check 1: a bit of `w[31:16]` is set. -/
  | reservedBits
  /-- Check 2: `w[7:0]` is none of the 28 codes. -/
  | unknownOpcode (opc : BitVec 8)
  /-- Check 3: `N > 64` where `N` is an operand, `N != 0` anywhere else. -/
  | badCount (n : BitVec 8)
  deriving DecidableEq, Repr

/-- The field `OPC`, bits 7:0 (R90). -/
def wordOpc (w : Word32) : BitVec 8 := w.extractLsb' 0 8

/-- The field `N`, bits 15:8 (R90). -/
def wordCount (w : Word32) : BitVec 8 := w.extractLsb' 8 8

/-- The field `RSV`, bits 31:16 (R90). -/
def wordReserved (w : Word32) : BitVec 16 := w.extractLsb' 16 16

/-- The operation code map read from code to command (R95); `n` is the field `N` for the two commands
that have it as an operand. -/
def instrOfOpcode (opc n : BitVec 8) : Option Instr :=
  match opc with
  | 0x01#8 => some .bsWopen
  | 0x02#8 => some .bsWbit
  | 0x03#8 => some (.bsWbits n)
  | 0x04#8 => some .bsFinish
  | 0x05#8 => some .bsRopen
  | 0x06#8 => some .bsRbit
  | 0x07#8 => some (.bsRbits n)
  | 0x08#8 => some .bsAtend
  | 0x10#8 => some .deltaEnc
  | 0x11#8 => some .dodEnc
  | 0x12#8 => some .dodfEnc
  | 0x13#8 => some .xorfEnc
  | 0x14#8 => some .chimpEnc
  | 0x15#8 => some .huffEnc
  | 0x16#8 => some .grEnc
  | 0x17#8 => some .bpEnc
  | 0x18#8 => some .rleEnc
  | 0x1F#8 => some .pipeEnc
  | 0x90#8 => some .deltaDec
  | 0x91#8 => some .dodDec
  | 0x92#8 => some .dodfDec
  | 0x93#8 => some .xorfDec
  | 0x94#8 => some .chimpDec
  | 0x95#8 => some .huffDec
  | 0x96#8 => some .grDec
  | 0x97#8 => some .bpDec
  | 0x98#8 => some .rleDec
  | 0x9F#8 => some .pipeDec
  | _ => none

/-- Whether `N` is an operand of the command (R90). -/
def takesCount : Instr → Bool
  | .bsWbits _ | .bsRbits _ => true
  | .bsWopen | .bsWbit | .bsFinish | .bsRopen | .bsRbit | .bsAtend
  | .deltaEnc | .dodEnc | .dodfEnc | .xorfEnc | .chimpEnc | .huffEnc | .grEnc | .bpEnc | .rleEnc | .pipeEnc
  | .deltaDec | .dodDec | .dodfDec | .xorfDec | .chimpDec | .huffDec | .grDec | .bpDec | .rleDec | .pipeDec => false

/-- Decoding a written word, the checks in the order of R91, the first that fails deciding. -/
def decode (w : Word32) : Except DecodeReject Instr :=
  if wordReserved w ≠ 0 then .error .reservedBits
  else match instrOfOpcode (wordOpc w) (wordCount w) with
    | none => .error (.unknownOpcode (wordOpc w))
    | some i =>
      if (if takesCount i then 64 < (wordCount w).toNat else wordCount w ≠ 0) then .error (.badCount (wordCount w))
      else .ok i

/-- The operation code of a command (R95). -/
def opcodeOf : Instr → BitVec 8
  | .bsWopen => 0x01#8
  | .bsWbit => 0x02#8
  | .bsWbits _ => 0x03#8
  | .bsFinish => 0x04#8
  | .bsRopen => 0x05#8
  | .bsRbit => 0x06#8
  | .bsRbits _ => 0x07#8
  | .bsAtend => 0x08#8
  | .deltaEnc => 0x10#8
  | .dodEnc => 0x11#8
  | .dodfEnc => 0x12#8
  | .xorfEnc => 0x13#8
  | .chimpEnc => 0x14#8
  | .huffEnc => 0x15#8
  | .grEnc => 0x16#8
  | .bpEnc => 0x17#8
  | .rleEnc => 0x18#8
  | .pipeEnc => 0x1F#8
  | .deltaDec => 0x90#8
  | .dodDec => 0x91#8
  | .dodfDec => 0x92#8
  | .xorfDec => 0x93#8
  | .chimpDec => 0x94#8
  | .huffDec => 0x95#8
  | .grDec => 0x96#8
  | .bpDec => 0x97#8
  | .rleDec => 0x98#8
  | .pipeDec => 0x9F#8

/-- The field `N` of a command's word: the operand, or 0 where there is none (R90). -/
def countOf : Instr → BitVec 8
  | .bsWbits n => n
  | .bsRbits n => n
  | .bsWopen | .bsWbit | .bsFinish | .bsRopen | .bsRbit | .bsAtend
  | .deltaEnc | .dodEnc | .dodfEnc | .xorfEnc | .chimpEnc | .huffEnc | .grEnc | .bpEnc | .rleEnc | .pipeEnc
  | .deltaDec | .dodDec | .dodfDec | .xorfDec | .chimpDec | .huffDec | .grDec | .bpDec | .rleDec | .pipeDec => 0#8

/-- The command word: `RSV = 0`, then `N`, then `OPC` (R90). -/
def encode (i : Instr) : Word32 := 0#16 ++ countOf i ++ opcodeOf i

/-- The command the decoder reads from a table row's word. Every row has 32 bits (R90: all commands have
the same length), and the word is written to `CMD` as one access (10_state.md R22), so the word is given
to the decoder whole; bits above `nbits` are 0. -/
def decodeTableWord (nbits w : Nat) : Option Instr :=
  (decode (BitVec.ofNat 32 (w % 2 ^ nbits))).toOption

end Sys2Proof
end

