-- ==== Sys2Proof/Config.lean ====
section
/-! DEFINITION. What an implementation fixes (00_scope.md R9) and the free values the spec leaves open
(93_implementation_defined.md part 1). -/

namespace Sys2Proof

/-- The implementation parameters (R9). `REGMAP` is left out: no rule depends on it (R9, R72). -/
structure Config where
  /-- `BUF_CAP`, the capacity in bytes of each buffer (R31). -/
  bufCap : Nat
  deriving DecidableEq, Repr

/-- The constraint R9 puts on `BUF_CAP`: `1 <= BUF_CAP <= 2^32 - 1`. -/
def Config.ok (c : Config) : Bool := decide (1 ≤ c.bufCap) && decide (c.bufCap ≤ 2 ^ 32 - 1)

/-- The byte at an index of a buffer that no rule has given a value: draw number, then index
(U1, U2, U3 of 93_implementation_defined.md). A free value: it has no body.
DESIGN CHOICE, safe: log entry 4. -/
opaque Config.freeByte : Nat → Nat → BitVec 8

/-- The value a host read returns that the spec calls unspecified (R397, U8), by draw number.
A free value: it has no body. DESIGN CHOICE, safe: log entry 5. -/
opaque Config.freeWord : Nat → BitVec 64

end Sys2Proof
end

