-- ==== Sys2Proof/Machine/State.lean ====
section
/-! DEFINITION. The state of the engine (10_state.md), the typed failures (60_exceptions.md R350), the
reasons a step can stop, and the state after reset (R48, 70_reset_and_hazards.md R390). -/

namespace Sys2Proof.Machine

/-- The typed failures a command can complete with (R350). A failure is no stop: it is recorded in
`STATUS.ERR` and the engine accepts the next command (R361). -/
inductive Failure where
  | malformedInput
  | truncatedStream
  | unsupportedValue
  | endOfStream
  | illegalCommand
  | resourceExhausted
  deriving DecidableEq, Repr

/-- A byte memory (R31) in canonical form: `cells` holds the bytes that some rule gave a value, addresses
strictly rising. A byte that is not listed has no value of its own; a read of it gives the free value of
the draw `gen` (`Memory.read`), so no entry can equal what an unlisted address reads as. Log entry 4. -/
structure Memory where
  cells : List Host.Cell
  gen : Nat
  deriving DecidableEq, Repr

/-- Addresses strictly rising from a first one that is at least `lo`. -/
def cellsRise : Nat → List Host.Cell → Bool
  | _, [] => true
  | lo, (a, _) :: rest => decide (lo ≤ a) && cellsRise (a + 1) rest

/-- The canonical form of a memory: addresses strictly rising. -/
def Memory.wf (m : Memory) : Bool := cellsRise 0 m.cells

/-- A memory with nothing listed, every byte belonging to draw `gen`. -/
def Memory.fresh (gen : Nat) : Memory := ⟨[], gen⟩

/-- The sink object `SK` (R33): completed bytes, the partial byte, the number of its filled bits. -/
structure Sink where
  bytes : List Byte
  acc : Byte
  nb : Nat
  deriving DecidableEq, Repr

/-- The source object `SR` (R34): length in bytes of the data, index of the next bit to read. -/
structure Source where
  len : Nat
  pos : Nat
  deriving DecidableEq, Repr

/-- What the host can do to the engine (10_state.md R22, R31; 70_reset_and_hazards.md R390). -/
inductive HostEvent where
  /-- A write of `CMD`; if it starts a command, `BUSY` is seen for `busySteps` steps (R395). -/
  | writeCmd (w : Word32) (busySteps : Nat)
  /-- A write of the register with this number, full width; number 0 is `CMD` with no `BUSY` step. -/
  | writeReg (num : Nat) (v : Word64)
  /-- A read of the register with this number. -/
  | readReg (num : Nat)
  /-- A write of one byte of IBUF. -/
  | writeIbuf (idx : Nat) (b : Byte)
  /-- A read of one byte of IBUF. -/
  | readIbuf (idx : Nat)
  /-- A read of one byte of OBUF. -/
  | readObuf (idx : Nat)
  /-- The reset input `RST` is asserted and released. -/
  | reset
  deriving DecidableEq, Repr

/-- The state of the engine. `STATUS` is the fields `busyFor` (BUSY), `done`, `err`, `stage`, `sink`
(WOPEN), `source` (ROPEN), `serr`; `Flags.lean` assembles the word. -/
structure State where
  /-- The implementation's parameters; no step changes them (R9). -/
  cfg : Config
  /-- `CMD`, the last latched word (R23). -/
  cmd : Word32
  /-- `STATUS.DONE` (R24). -/
  done : Bool
  /-- `STATUS.ERR`; `none` is code 0, `OK` (R24). -/
  err : Option Failure
  /-- `STATUS.STAGE` (R24). -/
  stage : BitVec 2
  /-- `STATUS.SERR` (R24). -/
  serr : Bool
  /-- `ILEN` (R25). -/
  ilen : Word32
  /-- `OLEN` (R25). -/
  olen : Word32
  /-- `WDATA` (R26). -/
  wdata : Word64
  /-- `RDATA` (R27). -/
  rdata : Word64
  /-- `PIPE` (R28). -/
  pipe : Word32
  /-- `CTRL.IE`, the one bit of `CTRL` that is storage (R29). -/
  ie : Bool
  /-- IBUF (R31). -/
  ibuf : Memory
  /-- OBUF (R31). -/
  obuf : Memory
  /-- The host-driven sink session; `none` when none is open (R33, R35). -/
  sink : Option Sink
  /-- The host-driven source session; `none` when none is open (R34, R35). -/
  source : Option Source
  /-- The sequencer (R46): `none` idle, `some k` a command in flight that completes after `k` more
  steps. `BUSY` is 1 exactly when it is `some`. -/
  busyFor : Option Nat
  /-- The host accesses and resets still to come, first first. The model's own: log entry 2. -/
  inputs : List HostEvent
  /-- What the host's last read returned. The model's own: log entry 14. -/
  hostRead : Word64
  /-- How many draws have been made. The model's own: log entry 4. -/
  draws : Nat
  deriving DecidableEq, Repr

/-- Why the machine stops with a fault. -/
inductive Fault where
  /-- Raised by a host access to IBUF at an index that does not exist (R31: indices `0 .. BUF_CAP-1`).
  Safe: the spec gives such an access no meaning. -/
  | ibufIndex (idx : Nat)
  /-- Raised by a host read of OBUF at an index that does not exist (R31). Safe, as above. -/
  | obufIndex (idx : Nat)
  deriving DecidableEq, Repr

/-- Why the machine refuses an instruction. -/
inductive Refusal where
  /-- The instruction has no meaning in this model yet. Raised by no arm: every instruction has one. Safe. -/
  | notModelled (mnemonic : String)
  deriving DecidableEq, Repr

/-- The state after reset of an engine with capacity `cap` (R48, R390): all registers 0, no session, the
sequencer idle, both buffers unspecified (draws 0 and 1). -/
def State.resetOf (cap : Nat) : State where
  cfg := ⟨cap⟩
  cmd := 0
  done := false
  err := none
  stage := 0
  serr := false
  ilen := 0
  olen := 0
  wdata := 0
  rdata := 0
  pipe := 0
  ie := false
  ibuf := Memory.fresh 0
  obuf := Memory.fresh 1
  sink := none
  source := none
  busyFor := none
  inputs := []
  hostRead := 0
  draws := 2

/-- The machine right after reset. `BUF_CAP` is 4096: DESIGN CHOICE, log entry 1 (the spec leaves it
open; the programs of 95_test_vectors.md use 4096). -/
def State.reset : State := State.resetOf 4096

end Sys2Proof.Machine
end

