-- ==== Sys2Proof/Machine/Bits.lean ====
section
/-! DEFINITION. Bits, bytes and columns: the sink and source primitives (40_bitstream.md R130 to R140), the
byte order of column elements (20_memory.md R61, R66) and the bit counts of 00_scope.md R13. -/

namespace Sys2Proof.Machine

/-! ### The sink (R131 to R134) -/

/-- A fresh sink holds no bit (R131). -/
def Sink.empty : Sink := ⟨[], 0, 0⟩

/-- `sink.writeBit(b)` (R132). -/
def Sink.writeBit (k : Sink) (b : Bool) : Sink :=
  let acc := k.acc ||| ((BitVec.ofBool b).setWidth 8 <<< (7 - k.nb))
  if k.nb + 1 = 8 then ⟨k.bytes ++ [acc], 0, 0⟩ else ⟨k.bytes, acc, k.nb + 1⟩

/-- `sink.writeBits(value, n)`: the `n` low-order bits, most significant first (R133). -/
def Sink.writeBits (k : Sink) (v : Word64) : Nat → Sink
  | 0 => k
  | n + 1 => (k.writeBit (v.getLsbD n)).writeBits v n

/-- A bit string written bit by bit, first bit first. -/
def Sink.writeAll (k : Sink) : List Bool → Sink
  | [] => k
  | b :: rest => (k.writeBit b).writeAll rest

/-- `sink.finish()` (R134): the partial byte, whose low bits are zero, completes the sequence. -/
def Sink.finish (k : Sink) : List Byte := if 0 < k.nb then k.bytes ++ [k.acc] else k.bytes

/-- The number of bits written so far (R33). -/
def Sink.bitCount (k : Sink) : Nat := 8 * k.bytes.length + k.nb

/-! ### The source (R136 to R139) -/

/-- A source over `len` bytes, at its first bit (R136). -/
def Source.open (len : Nat) : Source := ⟨len, 0⟩

/-- Bit position `p` of a byte sequence: bit `7 - (p mod 8)` of byte `p / 8` (R62). -/
def bitAt (d : Nat → Byte) (p : Nat) : Bool := (d (p / 8)).getLsbD (7 - p % 8)

/-- `n` bits from position `p` on, shifted into `v` (the loop of R138). -/
def gatherBits (d : Nat → Byte) : Nat → Nat → Word64 → Word64
  | 0, _, v => v
  | n + 1, p, v => gatherBits d n (p + 1) (v <<< 1 ||| (BitVec.ofBool (bitAt d p)).setWidth 64)

/-- `src.readBit()` over the data `d` (R137). -/
def Source.readBit (d : Nat → Byte) (r : Source) : Except Failure (Bool × Source) :=
  if 8 * r.len ≤ r.pos then .error .endOfStream else .ok (bitAt d r.pos, ⟨r.len, r.pos + 1⟩)

/-- `src.readBits(n)` over the data `d` (R138): all or nothing. -/
def Source.readBits (d : Nat → Byte) (n : Nat) (r : Source) : Except Failure (Word64 × Source) :=
  if 8 * r.len < r.pos + n then .error .endOfStream else .ok (gatherBits d n r.pos 0, ⟨r.len, r.pos + n⟩)

/-- `src.atEnd()` (R139). -/
def Source.atEnd (r : Source) : Bool := r.pos == 8 * r.len

/-- The data of a source over a byte sequence; a source never asks beyond its length. -/
def dataOf (inp : List Byte) (i : Nat) : Byte := inp.getD i 0

/-- `read(n)` inside a decoder: `EndOfStream` is reported as `TruncatedStream` (R15, R140). -/
def readField (d : Nat → Byte) (n : Nat) (r : Source) : Except Failure (Word64 × Source) :=
  match r.readBits d n with
  | .error _ => .error .truncatedStream
  | .ok x => .ok x

/-! ### Column elements (R61, R66) -/

/-- The big-endian bytes of a 64-bit element (`bytes_be64`, R14). -/
def bytesBe64 (v : Word64) : List Byte :=
  [v.extractLsb' 56 8, v.extractLsb' 48 8, v.extractLsb' 40 8, v.extractLsb' 32 8,
   v.extractLsb' 24 8, v.extractLsb' 16 8, v.extractLsb' 8 8, v.extractLsb' 0 8]

/-- The big-endian bytes of a 32-bit element (`bytes_be32`, R14). -/
def bytesBe32 (v : Word32) : List Byte :=
  [v.extractLsb' 24 8, v.extractLsb' 16 8, v.extractLsb' 8 8, v.extractLsb' 0 8]

/-- The 8-byte elements of a buffer in order, big-endian (R61, R66); bytes after the last whole element
are no element. -/
def column64 : List Byte → List Word64
  | b0 :: b1 :: b2 :: b3 :: b4 :: b5 :: b6 :: b7 :: rest =>
    (b0 ++ b1 ++ b2 ++ b3 ++ b4 ++ b5 ++ b6 ++ b7) :: column64 rest
  | _ => []

/-- The 4-byte elements of a buffer in order, big-endian (R61, R66). -/
def column32 : List Byte → List Word32
  | b0 :: b1 :: b2 :: b3 :: rest => (b0 ++ b1 ++ b2 ++ b3) :: column32 rest
  | _ => []

/-- A column laid out as bytes: each element big-endian, nothing between them (R61, R66). -/
def bytesOf64 : List Word64 → List Byte
  | [] => []
  | v :: vs => bytesBe64 v ++ bytesOf64 vs

/-- A column of 32-bit patterns laid out as bytes (R61, R66). -/
def bytesOf32 : List Word32 → List Byte
  | [] => []
  | v :: vs => bytesBe32 v ++ bytesOf32 vs

/-! ### Bit counts (R13) -/

/-- The number of zero bits above the highest one bit among the `k` low bits of `x`. -/
def zerosAbove {w : Nat} (x : BitVec w) : Nat → Nat
  | 0 => 0
  | k + 1 => if x.getLsbD k then 0 else zerosAbove x k + 1

/-- The number of zero bits below the lowest one bit, from bit `p` on, at most `fuel`. -/
def zerosBelow {w : Nat} (x : BitVec w) (p : Nat) : Nat → Nat
  | 0 => 0
  | fuel + 1 => if x.getLsbD p then 0 else zerosBelow x (p + 1) fuel + 1

/-- `clz32` (R13); applied to non-zero words only. -/
def clz32 (x : Word32) : Nat := zerosAbove x 32

/-- `ctz32` (R13); applied to non-zero words only. -/
def ctz32 (x : Word32) : Nat := zerosBelow x 0 32

/-- `bitlen` of a 64-bit value (R13). -/
def bitlen64 (x : Word64) : Nat := 64 - zerosAbove x 64

end Sys2Proof.Machine
end

