-- ==== Sys2Proof/Machine/Flags.lean ====
section
/-! DEFINITION. The registers made of flags: the `STATUS` word (10_state.md R24), the `CTRL` word (R29),
the interrupt line (R30), and the result codes (60_exceptions.md R350). -/

namespace Sys2Proof.Machine

/-- The code of a failure in `STATUS.ERR` (R24, R350). -/
def failureCode : Failure → BitVec 4
  | .malformedInput => 1
  | .truncatedStream => 2
  | .unsupportedValue => 3
  | .endOfStream => 4
  | .illegalCommand => 5
  | .resourceExhausted => 6

/-- `STATUS.ERR`: 0 is `OK` (R24). -/
def errCode : Option Failure → BitVec 4
  | none => 0
  | some f => failureCode f

/-- `STATUS.BUSY`: a command is in flight (R24, R46). -/
def busy (s : State) : Bool := s.busyFor.isSome

/-- `STATUS.WOPEN`: a sink session is open (R24, R33). -/
def wopen (s : State) : Bool := s.sink.isSome

/-- `STATUS.ROPEN`: a source session is open (R24, R34). -/
def ropen (s : State) : Bool := s.source.isSome

/-- The `STATUS` word: SERR 12, ROPEN 11, WOPEN 10, STAGE 9:8, ERR 7:4, DONE 1, BUSY 0; bits 31:13 and
3:2 read as 0 (R24). -/
def statusWord (s : State) : Word32 :=
  0#19 ++ BitVec.ofBool s.serr ++ BitVec.ofBool (ropen s) ++ BitVec.ofBool (wopen s) ++ s.stage
    ++ errCode s.err ++ 0#2 ++ BitVec.ofBool s.done ++ BitVec.ofBool (busy s)

/-- The `CTRL` word: bit 0 `IE`; `ACK` and the reserved bits read 0 (R29). -/
def ctrlWord (s : State) : Word32 := 0#31 ++ BitVec.ofBool s.ie

/-- The interrupt output `IRQ = STATUS.DONE and CTRL.IE`, a level (R30, R362). -/
def irq (s : State) : Bool := s.done && s.ie

end Sys2Proof.Machine
end

