-- ==== Sys2Proof/Machine/Ops.lean ====
section
/-! DEFINITION. The named operations over memory, registers and sessions, and the completion of a command,
which is what stands for taking an exception (60_exceptions.md R354, R364), with the host's acknowledge,
which is what stands for the return (R365). -/

namespace Sys2Proof.Machine

/-- The outcomes of a step of this machine. -/
abbrev Result := Host.Outcome State Fault Refusal

/-! ### Byte memories (R14, R31) -/

/-- The value listed for an address, if any. -/
def lookupCell (a : Nat) : List Host.Cell → Option Byte
  | [] => none
  | (c, x) :: rest => if c = a then some x else lookupCell a rest

/-- List a value for an address, keeping the addresses rising. -/
def writeCells (a : Nat) (b : Byte) : List Host.Cell → List Host.Cell
  | [] => [(a, b)]
  | (c, x) :: rest =>
    if a < c then (a, b) :: (c, x) :: rest
    else if a = c then (a, b) :: rest
    else (c, x) :: writeCells a b rest

/-- One byte of a buffer: the listed value, else the free value of the buffer's draw (R31, R48;
log entry 4). -/
def Memory.read (m : Memory) (a : Nat) : Byte := (lookupCell a m.cells).getD (Config.freeByte m.gen a)

/-- Store one byte. -/
def Memory.write (m : Memory) (a : Nat) (b : Byte) : Memory := ⟨writeCells a b m.cells, m.gen⟩

/-- `MemRead(m, a, n)` (R14). -/
def Memory.readBytes (m : Memory) (a : Nat) : Nat → List Byte
  | 0 => []
  | n + 1 => m.read a :: m.readBytes (a + 1) n

/-- `MemWrite(m, a, len, bytes)` (R14). -/
def Memory.writeBytes (m : Memory) (a : Nat) : List Byte → Memory
  | [] => m
  | b :: rest => (m.write a b).writeBytes (a + 1) rest

/-! ### Updates of State -/

/-- `CMD <- w` (R23). -/
def latchCommand (w : Word32) (s : State) : State := { s with cmd := w }

/-- The flags at the acceptance of a command: `DONE`, `ERR` and `STAGE` are cleared (R24, R354). -/
def accepted (s : State) : State := { s with done := false, err := none, stage := 0 }

/-- `complete(c)` of R354: the code goes to `ERR`, the stage to `STAGE`, a failure sets `SERR`, `BUSY` is
cleared and `DONE` is set. This is the one place where a failure is taken (R364). -/
def complete (c : Option Failure) (st : BitVec 2) (s : State) : State :=
  { s with err := c, stage := st, serr := s.serr || c.isSome, busyFor := none, done := true }

/-- The effect of `IllegalCommand`: nothing changes but `STATUS` (R351; `CMD` is latched by the write). -/
def illegalCommand (s : State) : State := complete (some .illegalCommand) 0 (accepted s)

/-- A command that completes with `OK` and one that fails without touching anything else (R357). -/
def succeed (s : State) : State := complete none 0 s

/-- A class 0 command that fails: nothing changes but `STATUS` (R357). -/
def failPlain (f : Failure) (s : State) : State := complete (some f) 0 s

/-- Both sessions destroyed (R35). -/
def destroySessions (s : State) : State := { s with sink := none, source := none }

/-- The sink session becomes `k`. -/
def setSink (k : Option Sink) (s : State) : State := { s with sink := k }

/-- The source session becomes `r`. -/
def setSource (r : Option Source) (s : State) : State := { s with source := r }

/-- `RDATA <- v` (R27). -/
def setRdata (v : Word64) (s : State) : State := { s with rdata := v }

/-- `MemWrite(OBUF, 0, len, out)`, `OLEN <- len`; `OBUF[OLEN ..]` becomes unspecified: a new draw
(R31, R146, R354, U1; log entry 6). -/
def emitOutput (out : List Byte) (s : State) : State :=
  { s with obuf := (Memory.fresh s.draws).writeBytes 0 out, olen := BitVec.ofNat 32 out.length, draws := s.draws + 1 }

/-- `OLEN <- 0`, all of OBUF unspecified: a new draw (R354, R356, U2). -/
def discardOutput (s : State) : State :=
  { s with obuf := Memory.fresh s.draws, olen := 0, draws := s.draws + 1 }

/-- A class 1 command whose function failed or whose result does not fit (R356). -/
def failClass1 (f : Failure) (st : BitVec 2) (s : State) : State := complete (some f) st (discardOutput s)

/-- The host's acknowledge: `DONE <- 0` (R29, R365). -/
def acknowledge (s : State) : State := { s with done := false }

/-- Reset (R48, R390): the state of R48, a command in flight abandoned, both buffers unspecified (two new
draws). The parameters stay, and so does what is the host's own. Log entry 16. -/
def applyReset (s : State) : State :=
  { State.resetOf s.cfg.bufCap with
    ibuf := Memory.fresh s.draws
    obuf := Memory.fresh (s.draws + 1)
    draws := s.draws + 2
    inputs := s.inputs
    hostRead := s.hostRead }

end Sys2Proof.Machine
end

