-- ==== Sys2Proof/Machine/Operands.lean ====
section
/-! DEFINITION. Where a command's operands come from (30_encoding.md R94), the pipeline descriptor (R98),
and the wrapper that makes a codec function a command (60_exceptions.md R354). -/

namespace Sys2Proof.Machine

/-- The input of a class 1 command: `IBUF[0 .. ILEN-1]` (R25, R94). -/
def inputBytes (s : State) : List Byte := s.ibuf.readBytes 0 s.ilen.toNat

/-- The output of the last command that made one: `OBUF[0 .. OLEN-1]` (R25). -/
def outputBytes (s : State) : List Byte := s.obuf.readBytes 0 s.olen.toNat

/-- Whether `ILEN` exceeds the capacity, which makes a command illegal (R25, R352 cause 6). -/
def inputTooLong (s : State) : Bool := decide (s.cfg.bufCap < s.ilen.toNat)

/-- The operand of `BS.WBIT`: `WDATA[0]` (R94, R144). -/
def wdataBit (s : State) : Bool := s.wdata.getLsbD 0

/-- The input as a column of 8-byte elements: a length that is no multiple of 8 is `MalformedInput`, checked
before anything else is read (R68). -/
def withColumn64 (inp : List Byte) (f : List Word64 → Except Failure (List Byte)) : Except Failure (List Byte) :=
  if inp.length % 8 ≠ 0 then .error .malformedInput else f (column64 inp)

/-- The input as a column of 4-byte elements, with the same check (R68). -/
def withColumn32 (inp : List Byte) (f : List Word32 → Except Failure (List Byte)) : Except Failure (List Byte) :=
  if inp.length % 4 ≠ 0 then .error .malformedInput else f (column32 inp)

/-! ### The pipeline descriptor (R28, R98, R327) -/

/-- The unit with a number; 9 to 15 name no stage (R97). -/
def unitOfNumber (n : BitVec 4) : Option CodecUnit :=
  match n with
  | 0#4 => some .delta
  | 1#4 => some .dod
  | 2#4 => some .dodf
  | 3#4 => some .xorf
  | 4#4 => some .chimp
  | 5#4 => some .huff
  | 6#4 => some .gr
  | 7#4 => some .bp
  | 8#4 => some .rle
  | _ => none

/-- The stages a descriptor names, in encode order; `none` for an illegal descriptor (R98, R327). -/
def pipeStages (p : Word32) : Option (List CodecUnit) :=
  if p.extractLsb' 14 18 ≠ 0 then none
  else match unitOfNumber (p.extractLsb' 0 4), unitOfNumber (p.extractLsb' 4 4) with
    | some u0, some u1 =>
      if p.extractLsb' 12 2 = 2 then
        if p.extractLsb' 8 4 = 0 then some [u0, u1] else none
      else if p.extractLsb' 12 2 = 3 then
        match unitOfNumber (p.extractLsb' 8 4) with
        | some u2 => some [u0, u1, u2]
        | none => none
      else none
    | _, _ => none

/-! ### The command wrapper (R354) -/

/-- The end of the wrapper: the outcome of the function decides (R353, R354, R355, R356). A failure comes
with the index of the stage that failed. -/
def finishClass1 (r : Except (Failure × BitVec 2) (List Byte)) (s : State) : State :=
  match r with
  | .error (f, st) => failClass1 f st s
  | .ok out =>
    if s.cfg.bufCap < out.length then failClass1 .resourceExhausted 0 s
    else succeed (emitOutput out s)

/-- The wrapper of the 18 codec commands (R354): acceptance, the `ILEN` check, the sessions destroyed, the
function run on the input, the outcome recorded. -/
def codecCommand (f : List Byte → Except Failure (List Byte)) (s : State) : State :=
  if inputTooLong s then illegalCommand s
  else finishClass1 ((f (inputBytes s)).mapError (fun e => (e, 0))) (destroySessions (accepted s))

/-- The wrapper of the two pipeline commands (R330, R331, R354): the descriptor check stands after the
`ILEN` check and before the sessions are destroyed. -/
def pipeCommand (f : List CodecUnit → List Byte → Except (Failure × BitVec 2) (List Byte)) (s : State) : State :=
  if inputTooLong s then illegalCommand s
  else match pipeStages s.pipe with
    | none => illegalCommand s
    | some us => finishClass1 (f us (inputBytes s)) (destroySessions (accepted s))

end Sys2Proof.Machine
end

