-- ==== Sys2Proof/Machine/BitStream.lean ====
section
/-! DEFINITION. The eight bit-stream commands (40_bitstream.md R143 to R151). -/

namespace Sys2Proof.Machine

/-- Appending bits to the open sink, checked against the capacity (R135, R144, R145): `put` writes `n`
bits. -/
def sinkCommand (n : Nat) (put : Sink → Sink) (s : State) : State :=
  match s.sink with
  | none => illegalCommand s
  | some k =>
    if 8 * s.cfg.bufCap < k.bitCount + n then failPlain .resourceExhausted (accepted s)
    else succeed (setSink (some (put k)) (accepted s))

/-- Reading `n` bits of the open source into `RDATA` (R148, R149): the bytes are those IBUF holds now
(R34, R147). -/
def sourceCommand (n : Nat) (s : State) : State :=
  match s.source with
  | none => illegalCommand s
  | some r =>
    match r.readBits s.ibuf.read n with
    | .error f => failPlain f (accepted s)
    | .ok (v, r') => succeed (setRdata v (setSource (some r') (accepted s)))

/-- `BS.WOPEN` (R143): a fresh sink, any open one discarded. -/
def execBsWopen (s : State) : Result := .next (succeed (setSink (some Sink.empty) (accepted s)))

/-- `BS.WBIT` (R144). -/
def execBsWbit (s : State) : Result := .next (sinkCommand 1 (fun k => k.writeBit (wdataBit s)) s)

/-- `BS.WBITS n` (R145). `N > 64` is an illegal word that the decoder never passes on (R91). -/
def execBsWbits (n : BitVec 8) (s : State) : Result :=
  if 64 < n.toNat then .next (illegalCommand s)
  else .next (sinkCommand n.toNat (fun k => k.writeBits s.wdata n.toNat) s)

/-- `BS.FINISH` (R146). -/
def execBsFinish (s : State) : Result :=
  match s.sink with
  | none => .next (illegalCommand s)
  | some k => .next (succeed (setSink none (emitOutput k.finish (accepted s))))

/-- `BS.ROPEN` (R147): a fresh source over `IBUF[0 .. ILEN-1]`, any open one discarded. -/
def execBsRopen (s : State) : Result :=
  if inputTooLong s then .next (illegalCommand s)
  else .next (succeed (setSource (some (Source.open s.ilen.toNat)) (accepted s)))

/-- `BS.RBIT` (R148). -/
def execBsRbit (s : State) : Result :=
  match s.source with
  | none => .next (illegalCommand s)
  | some r =>
    match r.readBit s.ibuf.read with
    | .error f => .next (failPlain f (accepted s))
    | .ok (b, r') => .next (succeed (setRdata ((BitVec.ofBool b).setWidth 64) (setSource (some r') (accepted s))))

/-- `BS.RBITS n` (R149). `N > 64` is an illegal word that the decoder never passes on (R91). -/
def execBsRbits (n : BitVec 8) (s : State) : Result :=
  if 64 < n.toNat then .next (illegalCommand s) else .next (sourceCommand n.toNat s)

/-- `BS.ATEND` (R150). -/
def execBsAtend (s : State) : Result :=
  match s.source with
  | none => .next (illegalCommand s)
  | some r => .next (succeed (setRdata ((BitVec.ofBool r.atEnd).setWidth 64) (accepted s)))

end Sys2Proof.Machine
end

