-- ==== Sys2Proof/Machine/GolombBitpack.lean ====
section
/-! DEFINITION. The Golomb-Rice coder GR and the bit-packing codec BP (44_golomb_bitpack.md R280 to
R297). -/

namespace Sys2Proof.Machine

/-! ### GR, `M = 8` (R280 to R285) -/

/-- The largest encodable value, `255 * 8 + 7` (R281). -/
def grMax : Nat := 2047

/-- One value: `q` ones, the terminator `0`, three bits of remainder (R282). -/
def grWrite (k : Sink) (v : Word64) : Sink :=
  ((k.writeAll (List.replicate (v.toNat / 8) true)).writeBit false).writeBits (BitVec.ofNat 64 (v.toNat % 8)) 3

/-- The values of `GR.ENC` in order; a value outside `0 .. 2047` (as a signed number) is
`UnsupportedValue` (R281, R282). -/
def grValues (k : Sink) : List Word64 → Except Failure Sink
  | [] => .ok k
  | v :: vs =>
    if v.toInt < 0 ∨ (grMax : Int) < v.toInt then .error .unsupportedValue else grValues (grWrite k v) vs

/-- `GR.ENC` as a function of the input (R282). -/
def grEnc (inp : List Byte) : Except Failure (List Byte) :=
  withColumn64 inp fun vs => do
    let k ← grValues (Sink.empty.writeBits (BitVec.ofNat 64 vs.length) 32) vs
    .ok k.finish

/-- The unary quotient, `q` ones read so far, `fuel = 256 - q` more bits allowed (R285): a 256th one is
`MalformedInput`. -/
def readUnary (d : Nat → Byte) : Nat → Nat → Source → Except Failure (Nat × Source)
  | 0, _, _ => .error .malformedInput
  | fuel + 1, q, r => do
    let (c, r) ← readField d 1 r
    if c = 0 then .ok (q, r) else if 255 < q + 1 then .error .malformedInput else readUnary d fuel (q + 1) r

/-- The values of `GR.DEC`, `n` still to come (R285). -/
def grDecLoop (d : Nat → Byte) : Nat → Source → Except Failure (List Word64)
  | 0, _ => .ok []
  | n + 1, r => do
    let (q, r) ← readUnary d 256 0 r
    let (m, r) ← readField d 3 r
    let vs ← grDecLoop d n r
    .ok (BitVec.ofNat 64 (q * 8 + m.toNat) :: vs)

/-- `GR.DEC` as a function of the input (R285). -/
def grDec (inp : List Byte) : Except Failure (List Byte) := do
  let (n, r) ← readField (dataOf inp) 32 (Source.open inp.length)
  let vs ← grDecLoop (dataOf inp) n.toNat r
  .ok (bytesOf64 vs)

/-! ### BP (R290 to R295) -/

/-- The first pass (R292): the largest value, every element being checked to be non-negative. -/
def bpMax (m : Word64) : List Word64 → Except Failure Word64
  | [] => .ok m
  | v :: vs =>
    if v.toInt < 0 then .error .unsupportedValue else bpMax (if m.toInt < v.toInt then v else m) vs

/-- `w = max(1, bitlen(max))` (R291). -/
def bpWidth (m : Word64) : Nat := max 1 (bitlen64 m)

/-- The second pass (R292). -/
def bpBody (w : Nat) (k : Sink) : List Word64 → Sink
  | [] => k
  | v :: vs => bpBody w (k.writeBits v w) vs

/-- `BP.ENC` as a function of the input (R292). -/
def bpEnc (inp : List Byte) : Except Failure (List Byte) :=
  withColumn64 inp fun vs => do
    let m ← bpMax 0 vs
    let header := (Sink.empty.writeBits (BitVec.ofNat 64 vs.length) 32).writeBits (BitVec.ofNat 64 (bpWidth m)) 8
    .ok (bpBody (bpWidth m) header vs).finish

/-- The values of `BP.DEC`, `n` still to come (R295). -/
def bpDecLoop (d : Nat → Byte) (w : Nat) : Nat → Source → Except Failure (List Word64)
  | 0, _ => .ok []
  | n + 1, r => do
    let (v, r) ← readField d w r
    let vs ← bpDecLoop d w n r
    .ok (v :: vs)

/-- `BP.DEC` as a function of the input (R295). -/
def bpDec (inp : List Byte) : Except Failure (List Byte) := do
  let (n, r) ← readField (dataOf inp) 32 (Source.open inp.length)
  let (w, r) ← readField (dataOf inp) 8 r
  if w = 0 ∨ 63 < w.toNat then .error .malformedInput
  else
    let vs ← bpDecLoop (dataOf inp) w.toNat n.toNat r
    .ok (bytesOf64 vs)

/-! ### The commands -/

/-- `GR.ENC` (R282). -/
def execGrEnc (s : State) : Result := .next (codecCommand grEnc s)

/-- `GR.DEC` (R285). -/
def execGrDec (s : State) : Result := .next (codecCommand grDec s)

/-- `BP.ENC` (R292). -/
def execBpEnc (s : State) : Result := .next (codecCommand bpEnc s)

/-- `BP.DEC` (R295). -/
def execBpDec (s : State) : Result := .next (codecCommand bpDec s)

end Sys2Proof.Machine
end

