-- ==== Sys2Proof/Machine/Huffman.lean ====
section
/-! DEFINITION. The Huffman coder HUFF (43_huffman.md R240 to R258). -/

namespace Sys2Proof.Machine

/-- The Huffman tree (R41): every node carries its frequency and its sequence number, a leaf its byte, an
internal node its two children. -/
inductive HuffTree where
  | leaf (freq seq : Nat) (sym : Byte)
  | node (freq seq : Nat) (left right : HuffTree)
  deriving DecidableEq, Repr

/-- The frequency of a node (R41). -/
def treeFreq : HuffTree → Nat
  | .leaf f _ _ => f
  | .node f _ _ _ => f

/-- The tie-break sequence number of a node (R41, R243). -/
def treeSeq : HuffTree → Nat
  | .leaf _ q _ => q
  | .node _ q _ _ => q

/-- The node order: by `(freq, seq)`, lexicographically (R243). -/
def treeBefore (a b : HuffTree) : Bool :=
  decide (treeFreq a < treeFreq b) || (decide (treeFreq a = treeFreq b) && decide (treeSeq a < treeSeq b))

/-- The table `T` (R241, R242): the bytes that occur, ascending, each with its count. -/
def freqTable (inp : List Byte) : List (Byte × Nat) :=
  ((List.range 256).map fun b => (BitVec.ofNat 8 b, inp.count (BitVec.ofNat 8 b))).filter fun e => decide (0 < e.2)

/-- The leaves, numbered from `r` on by their rank in the table (R244). -/
def leavesFrom (r : Nat) : List (Byte × Nat) → List HuffTree
  | [] => []
  | (b, f) :: rest => .leaf f r b :: leavesFrom (r + 1) rest

/-- The smallest node of a set, and the others (R243, R245). -/
def popMin : List HuffTree → Option (HuffTree × List HuffTree)
  | [] => none
  | t :: ts =>
    match popMin ts with
    | none => some (t, [])
    | some (m, rest) => if treeBefore t m then some (t, ts) else some (m, t :: rest)

/-- The merging loop (R245): two smallest nodes popped, the first to the left, the new node numbered `m`.
`fuel` is the number of nodes, one more than the merges it takes. -/
def mergeAll : Nat → Nat → List HuffTree → Option HuffTree
  | 0, _, _ => none
  | fuel + 1, m, q =>
    match popMin q with
    | none => none
    | some (a, q1) =>
      match popMin q1 with
      | none => some a
      | some (b, q2) => mergeAll fuel (m + 1) (.node (treeFreq a + treeFreq b) m a b :: q2)

/-- The tree of a table; none for the empty table (R244, R245). -/
def buildTree (t : List (Byte × Nat)) : Option HuffTree := mergeAll t.length t.length (leavesFrom 0 t)

/-- The paths from a node to its leaves, a left edge `0`, a right edge `1`, first edge first (R248). -/
def treePaths : HuffTree → List (Byte × List Bool)
  | .leaf _ _ b => [(b, [])]
  | .node _ _ l r =>
    (treePaths l).map (fun e => (e.1, false :: e.2)) ++ (treePaths r).map (fun e => (e.1, true :: e.2))

/-- The code table (R42): the code `0` for a tree that is one leaf (R247), else the paths (R248). -/
def codeTable : HuffTree → List (Byte × List Bool)
  | .leaf _ _ b => [(b, [false])]
  | .node f q l r => treePaths (.node f q l r)

/-- The code of a byte; the empty one where the byte does not occur (R42). -/
def codeOf (codes : List (Byte × List Bool)) (b : Byte) : List Bool := (codes.lookup b).getD []

/-- The table entries written to the header (R249). -/
def writeTable (k : Sink) : List (Byte × Nat) → Sink
  | [] => k
  | (b, f) :: rest => writeTable ((k.writeBits (b.setWidth 64) 8).writeBits (BitVec.ofNat 64 f) 32) rest

/-- The codes of the input bytes, in input order, bit by bit (R249). -/
def writeCodes (codes : List (Byte × List Bool)) (k : Sink) : List Byte → Sink
  | [] => k
  | b :: rest => writeCodes codes (k.writeAll (codeOf codes b)) rest

/-- `HUFF.ENC` as a function of the input (R249). -/
def huffEnc (inp : List Byte) : Except Failure (List Byte) :=
  let t := freqTable inp
  let header := (writeTable (Sink.empty.writeBits (BitVec.ofNat 64 t.length) 16) t).writeBits
    (BitVec.ofNat 64 inp.length) 32
  match buildTree t with
  | none => .ok header.finish
  | some root => .ok (writeCodes (codeTable root) header inp).finish

/-- `b <= last`, where `none` stands for the initial `last = -1` (R254). -/
def notAbove (b : Nat) : Option Nat → Bool
  | none => false
  | some last => decide (b ≤ last)

/-- The table read from the header, `n` entries still to come (R254). An entry that does not rise or has the
count 0 is `MalformedInput`, found when the entry has been read. -/
def readTable (d : Nat → Byte) : Nat → Option Nat → Source → Except Failure (List (Byte × Nat) × Source)
  | 0, _, r => .ok ([], r)
  | n + 1, last, r => do
    let (b, r) ← readField d 8 r
    let (f, r) ← readField d 32 r
    if notAbove b.toNat last ∨ f = 0 then .error .malformedInput
    else
      let (t, r) ← readTable d n (some b.toNat) r
      .ok ((b.setWidth 8, f.toNat) :: t, r)

/-- The sum of the counts, as an unbounded integer (R254). -/
def tableTotal (t : List (Byte × Nat)) : Nat := (t.map Prod.snd).sum

/-- The walk from a node to a leaf, one bit an edge (R254). -/
def walkTree (d : Nat → Byte) : HuffTree → Source → Except Failure (Byte × Source)
  | .leaf _ _ b, r => .ok (b, r)
  | .node _ _ left right, r => do
    let (c, r) ← readField d 1 r
    if c = 0 then walkTree d left r else walkTree d right r

/-- One symbol: the walk, or for a tree that is one leaf the single bit `0` (R254, R256). -/
def readSymbol (d : Nat → Byte) (root : HuffTree) (r : Source) : Except Failure (Byte × Source) :=
  match root with
  | .leaf _ _ b => do
    let (c, r) ← readField d 1 r
    if c ≠ 0 then .error .malformedInput else .ok (b, r)
  | .node f q left right => walkTree d (.node f q left right) r

/-- `n` symbols (R254). -/
def readSymbols (d : Nat → Byte) (root : HuffTree) : Nat → Source → Except Failure (List Byte)
  | 0, _ => .ok []
  | n + 1, r => do
    let (b, r) ← readSymbol d root r
    let bs ← readSymbols d root n r
    .ok (b :: bs)

/-- `HUFF.DEC` as a function of the input (R254). -/
def huffDec (inp : List Byte) : Except Failure (List Byte) := do
  let d := dataOf inp
  let (k, r) ← readField d 16 (Source.open inp.length)
  if 256 < k.toNat then .error .malformedInput
  else
    let (t, r) ← readTable d k.toNat none r
    let (len, r) ← readField d 32 r
    if tableTotal t ≠ len.toNat then .error .malformedInput
    else
      match buildTree t with
      | none => .ok []
      | some root => readSymbols d root len.toNat r

/-- `HUFF.ENC` (R249). -/
def execHuffEnc (s : State) : Result := .next (codecCommand huffEnc s)

/-- `HUFF.DEC` (R254). -/
def execHuffDec (s : State) : Result := .next (codecCommand huffDec s)

end Sys2Proof.Machine
end

