-- ==== Sys2Proof/Machine/RunLength.lean ====
section
/-! DEFINITION. The run-length codec RLE (45_rle.md R310 to R315). -/

namespace Sys2Proof.Machine

/-- The pairs of a buffer whose current run is `run` bytes `cur` (R311): the run grows while the next byte
is equal and it is shorter than 255. -/
def rleRuns (cur : Byte) (run : Nat) : List Byte → List Byte
  | [] => [cur, BitVec.ofNat 8 run]
  | b :: rest =>
    if b = cur ∧ run < 255 then rleRuns cur (run + 1) rest
    else cur :: BitVec.ofNat 8 run :: rleRuns b 1 rest

/-- `RLE.ENC` as a function of the input (R311). -/
def rleEnc : List Byte → Except Failure (List Byte)
  | [] => .ok []
  | b :: rest => .ok (rleRuns b 1 rest)

/-- The pairs expanded in order; a count byte 0 is `MalformedInput` (R313). -/
def rleExpand : List Byte → Except Failure (List Byte)
  | v :: c :: rest =>
    if c = 0 then .error .malformedInput
    else do
      let out ← rleExpand rest
      .ok (List.replicate c.toNat v ++ out)
  | _ => .ok []

/-- `RLE.DEC` as a function of the input: the parity of the length is checked first (R313, R360). -/
def rleDec (inp : List Byte) : Except Failure (List Byte) :=
  if inp.length % 2 ≠ 0 then .error .truncatedStream else rleExpand inp

/-- `RLE.ENC` (R311). -/
def execRleEnc (s : State) : Result := .next (codecCommand rleEnc s)

/-- `RLE.DEC` (R313). -/
def execRleDec (s : State) : Result := .next (codecCommand rleDec s)

end Sys2Proof.Machine
end

