-- ==== Sys2Proof/Machine/VarintDelta.lean ====
section
/-! DEFINITION. Zigzag, varint and the units DELTA, DOD, DODF (41_varint_delta.md R160 to R180). -/

namespace Sys2Proof.Machine

/-! ### Zigzag and varint (R160 to R163) -/

/-- `zigzag(v) = shl_64(v, 1) xor asr_64(v, 63)` (R160). -/
def zigzag (v : Word64) : Word64 := (v <<< 1) ^^^ v.sshiftRight 63

/-- `unzigzag(u) = lsr_64(u, 1) xor (0 - (u and 1))` (R161). -/
def unzigzag (u : Word64) : Word64 := (u >>> 1) ^^^ (0 - (u &&& 1))

/-- The loop of `varint_enc` (R162): groups of 7 bits, least significant first, stopping at the last
non-zero one. 10 groups hold 64 bits, so `fuel` 10 is never used up. -/
def varintGroups : Nat → Word64 → List Byte
  | 0, _ => []
  | fuel + 1, z =>
    let g : Byte := (z &&& 0x7F#64).setWidth 8
    if z >>> 7 ≠ 0 then (g ||| 0x80#8) :: varintGroups fuel (z >>> 7) else [g]

/-- `varint_enc(v)` (R162). -/
def varintEnc (v : Word64) : List Byte := varintGroups 10 (zigzag v)

/-- The loop of `varint_dec` from byte `k` of the varint on, `fuel = 10 - k` bytes being still allowed
(R163). -/
def varintDecFrom : Nat → Nat → List Byte → Word64 → Except Failure (Word64 × Nat)
  | 0, _, _, _ => .error .malformedInput
  | _ + 1, _, [], _ => .error .truncatedStream
  | fuel + 1, k, b :: rest, z =>
    if k = 9 ∧ b &&& 0xFE#8 ≠ 0 then .error .malformedInput
    else
      let z' := z ||| (((b &&& 0x7F#8).setWidth 64) <<< (7 * k))
      if b &&& 0x80#8 = 0 then .ok (unzigzag z', k + 1) else varintDecFrom fuel (k + 1) rest z'

/-- `varint_dec(B, off)` (R163): the value and the number of bytes consumed. -/
def varintDec (bytes : List Byte) (off : Nat) : Except Failure (Word64 × Nat) :=
  varintDecFrom 10 0 (bytes.drop off) 0

/-- The values of the varints that fill a byte sequence exactly (the loops of R168 and R174). Each varint
has at least one byte, so `fuel` the number of bytes is never used up. -/
def varintsFrom : Nat → List Byte → Except Failure (List Word64)
  | _, [] => .ok []
  | 0, _ :: _ => .error .malformedInput
  | fuel + 1, b :: rest => do
    let (d, c) ← varintDec (b :: rest) 0
    let ds ← varintsFrom fuel ((b :: rest).drop c)
    .ok (d :: ds)

/-- The varints of a whole byte sequence. -/
def varintValues (bytes : List Byte) : Except Failure (List Word64) := varintsFrom bytes.length bytes

/-! ### DELTA (R166, R168) -/

/-- The varints of the differences to the predecessor (R166). -/
def deltaTail (prev : Word64) : List Word64 → List Byte
  | [] => []
  | cur :: vs => varintEnc (cur - prev) ++ deltaTail cur vs

/-- `DELTA.ENC` as a function of the input (R166). -/
def deltaEnc (inp : List Byte) : Except Failure (List Byte) :=
  withColumn64 inp fun
    | [] => .ok []
    | v0 :: vs => .ok (inp.take 8 ++ deltaTail v0 vs)

/-- The running sum from `cur` on (R168). -/
def sumDeltas (cur : Word64) : List Word64 → List Word64
  | [] => []
  | d :: ds => (cur + d) :: sumDeltas (cur + d) ds

/-- The first 8 bytes as a word and the varints after them, for a non-empty stream (R168, R174): 1 to 7
bytes are a cut raw value. -/
def rawThenVarints (inp : List Byte) (f : Word64 → List Word64 → List Word64) : Except Failure (List Byte) :=
  if inp.length = 0 then .ok []
  else match column64 (inp.take 8) with
    | [] => .error .truncatedStream
    | v0 :: _ => do
      let ds ← varintValues (inp.drop 8)
      .ok (inp.take 8 ++ bytesOf64 (f v0 ds))

/-- `DELTA.DEC` as a function of the input (R168). -/
def deltaDec (inp : List Byte) : Except Failure (List Byte) := rawThenVarints inp sumDeltas

/-! ### The terms of a column (R171) -/

/-- The terms after the first, given the previous value and the previous difference (R171): with the
difference 0 before the first one, `x_1 = v_1 - v_0` is the same subtraction (R174). -/
def secondDiffs (prev delta : Word64) : List Word64 → List Word64
  | [] => []
  | cur :: vs => (cur - prev - delta) :: secondDiffs cur (cur - prev) vs

/-- The terms `x_0, x_1, ...` of a column (R171). -/
def columnTerms : List Word64 → List Word64
  | [] => []
  | v0 :: vs => v0 :: secondDiffs v0 0 vs

/-- The values after the first, rebuilt from the terms with the running difference (R171). -/
def rebuild (cur delta : Word64) : List Word64 → List Word64
  | [] => []
  | x :: xs => (cur + (delta + x)) :: rebuild (cur + (delta + x)) (delta + x) xs

/-- The column whose terms are given (R171). -/
def columnOfTerms : List Word64 → List Word64
  | [] => []
  | x0 :: xs => x0 :: rebuild x0 0 xs

/-! ### DOD (R172, R174) -/

/-- The varints of a list of terms. -/
def varintsOf : List Word64 → List Byte
  | [] => []
  | x :: xs => varintEnc x ++ varintsOf xs

/-- `DOD.ENC` as a function of the input (R172). -/
def dodEnc (inp : List Byte) : Except Failure (List Byte) :=
  withColumn64 inp fun
    | [] => .ok []
    | v0 :: vs => .ok (inp.take 8 ++ varintsOf (secondDiffs v0 0 vs))

/-- `DOD.DEC` as a function of the input (R174). -/
def dodDec (inp : List Byte) : Except Failure (List Byte) := rawThenVarints inp (fun v0 xs => rebuild v0 0 xs)

/-! ### DODF (R178, R179) -/

/-- `DODF.ENC` as a function of the input (R178). -/
def dodfEnc (inp : List Byte) : Except Failure (List Byte) :=
  withColumn64 inp fun vs => .ok (bytesOf64 ((columnTerms vs).map zigzag))

/-- `DODF.DEC` as a function of the input (R179). -/
def dodfDec (inp : List Byte) : Except Failure (List Byte) :=
  withColumn64 inp fun ys => .ok (bytesOf64 (columnOfTerms (ys.map unzigzag)))

/-! ### The commands -/

/-- `DELTA.ENC` (R166). -/
def execDeltaEnc (s : State) : Result := .next (codecCommand deltaEnc s)

/-- `DELTA.DEC` (R168). -/
def execDeltaDec (s : State) : Result := .next (codecCommand deltaDec s)

/-- `DOD.ENC` (R172). -/
def execDodEnc (s : State) : Result := .next (codecCommand dodEnc s)

/-- `DOD.DEC` (R174). -/
def execDodDec (s : State) : Result := .next (codecCommand dodDec s)

/-- `DODF.ENC` (R178). -/
def execDodfEnc (s : State) : Result := .next (codecCommand dodfEnc s)

/-- `DODF.DEC` (R179). -/
def execDodfDec (s : State) : Result := .next (codecCommand dodfDec s)

end Sys2Proof.Machine
end

