-- ==== Sys2Proof/Machine/XorFloat.lean ====
section
/-! DEFINITION. The XOR float compressors XORF and CHIMP (42_xor_float.md R200 to R226). -/

namespace Sys2Proof.Machine

/-! ### Windows (R201) -/

/-- A window: counts of leading and trailing zeros that delimit the significant bits (R201). -/
structure Window where
  lead : Nat
  trail : Nat
  deriving DecidableEq, Repr

/-- `W = 32 - l - t` (R201). -/
def windowWidth (w : Window) : Nat := 32 - w.lead - w.trail

/-- The window of a non-zero XOR: its own counts (R201). -/
def windowOf (x : Word32) : Window := ⟨clz32 x, ctz32 x⟩

/-- `x` fits the window: `lz >= l and tz >= t`, both non-strict (R201, R205). -/
def fitsWindow (x : Word32) (w : Window) : Bool := decide (w.lead ≤ clz32 x) && decide (w.trail ≤ ctz32 x)

/-- The bits of `x` placed in the window, written to the sink: `writeBits(lsr_32(x, t), W)` (R201). -/
def writeWindow (x : Word32) (w : Window) (k : Sink) : Sink :=
  k.writeBits ((x >>> w.trail).setWidth 64) (windowWidth w)

/-- The new-window header after the control bits: 5 bits of `lz`, 6 bits of `sig`, unbiased (R202, R203). -/
def writeHeader (w : Window) (k : Sink) : Sink :=
  (k.writeBits (BitVec.ofNat 64 w.lead) 5).writeBits (BitVec.ofNat 64 (windowWidth w)) 6

/-- The XOR whose bits placed in the window are read: `shl_32(bits, t)` (R201). -/
def readWindow (d : Nat → Byte) (w : Window) (r : Source) : Except Failure (Word32 × Source) := do
  let (v, r) ← readField d (windowWidth w) r
  .ok (v.setWidth 32 <<< w.trail, r)

/-- The new-window header read and checked (R208, R223): `sig = 0` or `lz + sig > 32` is
`MalformedInput`. -/
def readHeader (d : Nat → Byte) (r : Source) : Except Failure (Window × Source) := do
  let (lz, r) ← readField d 5 r
  let (sig, r) ← readField d 6 r
  if sig.toNat = 0 ∨ 32 < lz.toNat + sig.toNat then .error .malformedInput
  else .ok (⟨lz.toNat, 32 - lz.toNat - sig.toNat⟩, r)

/-- The header of both float streams: the count, then the first pattern raw (R115, R116). -/
def floatHeader (n : Nat) (first : Word32) : Sink :=
  (Sink.empty.writeBits (BitVec.ofNat 64 n) 32).writeBits (first.setWidth 64) 32

/-- The stream of the empty column: the count 0 and nothing else (R115). -/
def emptyFloatStream : List Byte := (Sink.empty.writeBits 0 32).finish

/-! ### XORF (R202, R204, R205, R208) -/

/-- The records of `XORF.ENC` (R202). `win` is the remembered window, `none` while `wv = 0` (R204). -/
def xorfRecords (prev : Word32) (win : Option Window) (k : Sink) : List Word32 → Sink
  | [] => k
  | cur :: ps =>
    let x := prev ^^^ cur
    if x = 0 then xorfRecords cur win (k.writeBit false) ps
    else
      match win.filter (fitsWindow x) with
      | some w => xorfRecords cur win (writeWindow x w ((k.writeBit true).writeBit false)) ps
      | none =>
        xorfRecords cur (some (windowOf x))
          (writeWindow x (windowOf x) (writeHeader (windowOf x) ((k.writeBit true).writeBit true))) ps

/-- `XORF.ENC` as a function of the input (R202). -/
def xorfEnc (inp : List Byte) : Except Failure (List Byte) :=
  withColumn32 inp fun
    | [] => .ok emptyFloatStream
    | p0 :: ps => .ok (xorfRecords p0 none (floatHeader (ps.length + 1) p0) ps).finish

/-- The records of `XORF.DEC`, `n` elements still to come (R208). -/
def xorfDecLoop (d : Nat → Byte) : Nat → Word32 → Option Window → Source → Except Failure (List Word32)
  | 0, _, _, _ => .ok []
  | n + 1, prev, win, r => do
    let (c, r) ← readField d 1 r
    if c = 0 then
      let ps ← xorfDecLoop d n prev win r
      .ok (prev :: ps)
    else
      let (c2, r) ← readField d 1 r
      if c2 = 0 then
        match win with
        | none => .error .malformedInput
        | some w =>
          let (x, r) ← readWindow d w r
          let ps ← xorfDecLoop d n (prev ^^^ x) win r
          .ok ((prev ^^^ x) :: ps)
      else
        let (w, r) ← readHeader d r
        let (x, r) ← readWindow d w r
        let ps ← xorfDecLoop d n (prev ^^^ x) (some w) r
        .ok ((prev ^^^ x) :: ps)

/-- The frame of both float decoders: the count, the raw first pattern, then `n - 1` records (R208,
R223). -/
def floatDec (inp : List Byte) (records : Nat → Word32 → Source → Except Failure (List Word32)) :
    Except Failure (List Byte) := do
  let (n, r) ← readField (dataOf inp) 32 (Source.open inp.length)
  if n = 0 then .ok []
  else
    let (p, r) ← readField (dataOf inp) 32 r
    let ps ← records (n.toNat - 1) (p.setWidth 32) r
    .ok (bytesOf32 (p.setWidth 32 :: ps))

/-- `XORF.DEC` as a function of the input (R208). -/
def xorfDec (inp : List Byte) : Except Failure (List Byte) :=
  floatDec inp fun n p r => xorfDecLoop (dataOf inp) n p none r

/-! ### CHIMP (R215 to R219, R223) -/

/-- The WindowHistory (R39): 128 slots, the number of valid ones, the slot the next append writes. -/
structure History where
  slot : List Window
  count : Nat
  wp : Nat
  deriving DecidableEq, Repr

/-- The history at the start of a call (R216). What the slots hold does not matter (R39). -/
def freshHistory : History := ⟨List.replicate 128 ⟨0, 0⟩, 0, 0⟩

/-- `H.find`: the lowest valid slot whose window the value fits (R218). -/
def findWindow (x : Word32) (h : History) : Option Nat := (h.slot.take h.count).findIdx? (fitsWindow x)

/-- The window in slot `j`. -/
def slotWindow (h : History) (j : Nat) : Window := h.slot.getD j ⟨0, 0⟩

/-- `H.append` (R219): the slot `wp` is written, `wp` goes round, the oldest is overwritten once full. -/
def appendWindow (w : Window) (h : History) : History :=
  ⟨h.slot.set h.wp w, min (h.count + 1) 128, (h.wp + 1) % 128⟩

/-- The records of `CHIMP.ENC` (R217). -/
def chimpRecords (prev : Word32) (h : History) (k : Sink) : List Word32 → Sink
  | [] => k
  | cur :: ps =>
    let x := prev ^^^ cur
    if x = 0 then chimpRecords cur h (k.writeBit false) ps
    else
      match findWindow x h with
      | some j =>
        chimpRecords cur h
          (writeWindow x (slotWindow h j) (((k.writeBit true).writeBit false).writeBits (BitVec.ofNat 64 j) 7)) ps
      | none =>
        chimpRecords cur (appendWindow (windowOf x) h)
          (writeWindow x (windowOf x) (writeHeader (windowOf x) ((k.writeBit true).writeBit true))) ps

/-- `CHIMP.ENC` as a function of the input (R217). -/
def chimpEnc (inp : List Byte) : Except Failure (List Byte) :=
  withColumn32 inp fun
    | [] => .ok emptyFloatStream
    | p0 :: ps => .ok (chimpRecords p0 freshHistory (floatHeader (ps.length + 1) p0) ps).finish

/-- The records of `CHIMP.DEC`, `n` elements still to come (R223). -/
def chimpDecLoop (d : Nat → Byte) : Nat → Word32 → History → Source → Except Failure (List Word32)
  | 0, _, _, _ => .ok []
  | n + 1, prev, h, r => do
    let (c, r) ← readField d 1 r
    if c = 0 then
      let ps ← chimpDecLoop d n prev h r
      .ok (prev :: ps)
    else
      let (c2, r) ← readField d 1 r
      if c2 = 0 then
        let (j, r) ← readField d 7 r
        if h.count ≤ j.toNat then .error .malformedInput
        else
          let (x, r) ← readWindow d (slotWindow h j.toNat) r
          let ps ← chimpDecLoop d n (prev ^^^ x) h r
          .ok ((prev ^^^ x) :: ps)
      else
        let (w, r) ← readHeader d r
        let (x, r) ← readWindow d w r
        let ps ← chimpDecLoop d n (prev ^^^ x) (appendWindow w h) r
        .ok ((prev ^^^ x) :: ps)

/-- `CHIMP.DEC` as a function of the input (R223). -/
def chimpDec (inp : List Byte) : Except Failure (List Byte) :=
  floatDec inp fun n p r => chimpDecLoop (dataOf inp) n p freshHistory r

/-! ### The commands -/

/-- `XORF.ENC` (R202). -/
def execXorfEnc (s : State) : Result := .next (codecCommand xorfEnc s)

/-- `XORF.DEC` (R208). -/
def execXorfDec (s : State) : Result := .next (codecCommand xorfDec s)

/-- `CHIMP.ENC` (R217). -/
def execChimpEnc (s : State) : Result := .next (codecCommand chimpEnc s)

/-- `CHIMP.DEC` (R223). -/
def execChimpDec (s : State) : Result := .next (codecCommand chimpDec s)

end Sys2Proof.Machine
end

