-- ==== Sys2Proof/Machine/Pipeline.lean ====
section
/-! DEFINITION. The composite pipelines PIPE (46_pipeline.md R325 to R335). -/

namespace Sys2Proof.Machine

/-- The encoder of a unit (R330). A stage is the unit's own function on the bytes it receives (R329). -/
def unitEnc : CodecUnit → List Byte → Except Failure (List Byte)
  | .delta => deltaEnc
  | .dod => dodEnc
  | .dodf => dodfEnc
  | .xorf => xorfEnc
  | .chimp => chimpEnc
  | .huff => huffEnc
  | .gr => grEnc
  | .bp => bpEnc
  | .rle => rleEnc

/-- The decoder of a unit (R331). -/
def unitDec : CodecUnit → List Byte → Except Failure (List Byte)
  | .delta => deltaDec
  | .dod => dodDec
  | .dodf => dodfDec
  | .xorf => xorfDec
  | .chimp => chimpDec
  | .huff => huffDec
  | .gr => grDec
  | .bp => bpDec
  | .rle => rleDec

/-- The loop of R330 and R331 over stages that carry their position in the descriptor: a stage that fails,
or whose result exceeds the capacity, fails the whole with its position. -/
def runStages (cap : Nat) (f : CodecUnit → List Byte → Except Failure (List Byte)) :
    List (CodecUnit × Nat) → List Byte → Except (Failure × BitVec 2) (List Byte)
  | [], buf => .ok buf
  | (u, st) :: rest, buf =>
    match f u buf with
    | .error e => .error (e, BitVec.ofNat 2 st)
    | .ok r => if cap < r.length then .error (.resourceExhausted, BitVec.ofNat 2 st) else runStages cap f rest r

/-- The chained function of `PIPE.ENC`: the stages in descriptor order (R330). -/
def pipeEncode (cap : Nat) (us : List CodecUnit) : List Byte → Except (Failure × BitVec 2) (List Byte) :=
  runStages cap unitEnc us.zipIdx

/-- The chained function of `PIPE.DEC`: the inverse chain in reverse order (R331). -/
def pipeDecode (cap : Nat) (us : List CodecUnit) : List Byte → Except (Failure × BitVec 2) (List Byte) :=
  runStages cap unitDec us.zipIdx.reverse

/-- `PIPE.ENC` (R330). -/
def execPipeEnc (s : State) : Result := .next (pipeCommand (pipeEncode s.cfg.bufCap) s)

/-- `PIPE.DEC` (R331). -/
def execPipeDec (s : State) : Result := .next (pipeCommand (pipeDecode s.cfg.bufCap) s)

end Sys2Proof.Machine
end

