-- ==== Sys2Proof/Machine/Dispatch.lean ====
section
/-! DEFINITION. One arm per command: its meaning (30_encoding.md R95). -/

namespace Sys2Proof.Machine

def exec (i : Instr) (s : State) : Host.Outcome State Fault Refusal :=
  match i with
  | .bsWopen => Sys2Proof.Machine.execBsWopen s
  | .bsWbit => Sys2Proof.Machine.execBsWbit s
  | .bsWbits n => Sys2Proof.Machine.execBsWbits n s
  | .bsFinish => Sys2Proof.Machine.execBsFinish s
  | .bsRopen => Sys2Proof.Machine.execBsRopen s
  | .bsRbit => Sys2Proof.Machine.execBsRbit s
  | .bsRbits n => Sys2Proof.Machine.execBsRbits n s
  | .bsAtend => Sys2Proof.Machine.execBsAtend s
  | .deltaEnc => Sys2Proof.Machine.execDeltaEnc s
  | .dodEnc => Sys2Proof.Machine.execDodEnc s
  | .dodfEnc => Sys2Proof.Machine.execDodfEnc s
  | .xorfEnc => Sys2Proof.Machine.execXorfEnc s
  | .chimpEnc => Sys2Proof.Machine.execChimpEnc s
  | .huffEnc => Sys2Proof.Machine.execHuffEnc s
  | .grEnc => Sys2Proof.Machine.execGrEnc s
  | .bpEnc => Sys2Proof.Machine.execBpEnc s
  | .rleEnc => Sys2Proof.Machine.execRleEnc s
  | .pipeEnc => Sys2Proof.Machine.execPipeEnc s
  | .deltaDec => Sys2Proof.Machine.execDeltaDec s
  | .dodDec => Sys2Proof.Machine.execDodDec s
  | .dodfDec => Sys2Proof.Machine.execDodfDec s
  | .xorfDec => Sys2Proof.Machine.execXorfDec s
  | .chimpDec => Sys2Proof.Machine.execChimpDec s
  | .huffDec => Sys2Proof.Machine.execHuffDec s
  | .grDec => Sys2Proof.Machine.execGrDec s
  | .bpDec => Sys2Proof.Machine.execBpDec s
  | .rleDec => Sys2Proof.Machine.execRleDec s
  | .pipeDec => Sys2Proof.Machine.execPipeDec s

end Sys2Proof.Machine
end

