-- ==== Sys2Proof/Machine/Bus.lean ====
section
/-! DEFINITION. The host's accesses and what one step of the machine does with them (10_state.md R22 to R31,
70_reset_and_hazards.md R390 to R399). -/

namespace Sys2Proof.Machine

/-! ### Starting a command (R23, R91, R354) -/

/-- The command of a word that `CMD` holds runs to completion as one atomic step (R71); a word that is no
command completes with `IllegalCommand` (R91, R351). -/
def runWord (w : Word32) (s : State) : Result :=
  match decode w with
  | .error _ => .next (illegalCommand s)
  | .ok i => exec i s

/-- Class 1: the codec and pipeline commands (R93). -/
def isClass1 : Instr → Bool
  | .bsWopen | .bsWbit | .bsWbits _ | .bsFinish | .bsRopen | .bsRbit | .bsRbits _ | .bsAtend => false
  | .deltaEnc | .dodEnc | .dodfEnc | .xorfEnc | .chimpEnc | .huffEnc | .grEnc | .bpEnc | .rleEnc | .pipeEnc
  | .deltaDec | .dodDec | .dodfDec | .xorfDec | .chimpDec | .huffDec | .grDec | .bpDec | .rleDec | .pipeDec => true

/-- A pipeline command (R330, R331). -/
def isPipe : Instr → Bool
  | .pipeEnc | .pipeDec => true
  | .bsWopen | .bsWbit | .bsWbits _ | .bsFinish | .bsRopen | .bsRbit | .bsRbits _ | .bsAtend => false
  | .deltaEnc | .dodEnc | .dodfEnc | .xorfEnc | .chimpEnc | .huffEnc | .grEnc | .bpEnc | .rleEnc => false
  | .deltaDec | .dodDec | .dodfDec | .xorfDec | .chimpDec | .huffDec | .grDec | .bpDec | .rleDec => false

/-- A class 1 command that is not turned away as illegal destroys the sessions at its acceptance (R35,
R351, R354). -/
def startDestroys (w : Word32) (s : State) : Bool :=
  match decode w with
  | .error _ => false
  | .ok i => isClass1 i && !inputTooLong s && (!isPipe i || (pipeStages s.pipe).isSome)

/-- The state the host sees while the command is in flight (R354, R397): the flags cleared, the sessions of
a class 1 command gone, `BUSY` for `left` more steps. Log entry 3. -/
def inFlight (w : Word32) (left : Nat) (s : State) : State :=
  let s := accepted s
  { (if startDestroys w s then destroySessions s else s) with busyFor := some left }

/-- A host write of `CMD` (R23). While `BUSY = 1` it is ignored (R398). Otherwise the word is latched and
the command runs: as one step, or, if `BUSY` is to be seen for `busySteps` steps, accepted now and completed
later (R395). -/
def writeCmd (w : Word32) (busySteps : Nat) (s : State) : Result :=
  if busy s then .next s
  else match busySteps with
    | 0 => runWord w (latchCommand w s)
    | k + 1 => .next (inFlight w k (latchCommand w s))

/-- The completion of the command in flight: the whole effect, on the operands as at acceptance, which
nothing can have changed (R396, R397). -/
def finishCommand (s : State) : Result := runWord s.cmd { s with busyFor := none }

/-! ### Register accesses (R22, R29, R397) -/

/-- The value a read of a register returns, zero-extended; numbers 8 and above read 0 (R22). -/
def registerValue (num : Nat) (s : State) : Word64 :=
  match num with
  | 0 => s.cmd.setWidth 64
  | 1 => (statusWord s).setWidth 64
  | 2 => s.ilen.setWidth 64
  | 3 => s.olen.setWidth 64
  | 4 => s.wdata
  | 5 => s.rdata
  | 6 => s.pipe.setWidth 64
  | 7 => (ctrlWord s).setWidth 64
  | _ => 0

/-- Whether a read of the register returns an unspecified value while `BUSY = 1`: `OLEN` and `RDATA`
(R397). -/
def hiddenWhileBusy (num : Nat) : Bool := num == 3 || num == 5

/-- A read that returns `v`. -/
def hostReads (v : Word64) (s : State) : State := { s with hostRead := v }

/-- A read whose value is unspecified: a new draw (R397, U8; log entry 5). -/
def hostReadsDraw (s : State) : State := { s with hostRead := Config.freeWord s.draws, draws := s.draws + 1 }

/-- A host read of a register; it has no side effect on the engine (20_memory.md R70). -/
def readRegister (num : Nat) (s : State) : State :=
  if busy s && hiddenWhileBusy num then hostReadsDraw s else hostReads (registerValue num s) s

/-- A host write of `CTRL`: `IE <- v[0]`; `v[1] = 1` clears `DONE`; legal at any time (R29). -/
def writeCtrl (v : Word64) (s : State) : State :=
  let s := if v.getLsbD 1 then acknowledge s else s
  { s with ie := v.getLsbD 0 }

/-- A host write of a register other than `CMD`: ignored on `STATUS`, `OLEN`, `RDATA` and numbers 8 and
above (R22), and while `BUSY = 1` on all but `CTRL` (R397). -/
def writeRegister (num : Nat) (v : Word64) (s : State) : State :=
  match num with
  | 2 => if busy s then s else { s with ilen := v.setWidth 32 }
  | 4 => if busy s then s else { s with wdata := v }
  | 6 => if busy s then s else { s with pipe := v.setWidth 32 }
  | 7 => writeCtrl v s
  | _ => s

/-! ### Buffer accesses (R31, R397) -/

/-- A host write of one byte of IBUF; ignored while `BUSY = 1` (R397). -/
def writeIbuf (idx : Nat) (b : Byte) (s : State) : Result :=
  if s.cfg.bufCap ≤ idx then .fault (.ibufIndex idx)
  else if busy s then .next s
  else .next { s with ibuf := s.ibuf.write idx b }

/-- A host read of one byte of a buffer; an unspecified value while `BUSY = 1` (R397). -/
def readByte (m : Memory) (idx : Nat) (s : State) : State :=
  if busy s then hostReadsDraw s else hostReads ((m.read idx).setWidth 64) s

/-! ### One step -/

/-- One action of the host. -/
def hostEvent (e : HostEvent) (s : State) : Result :=
  match e with
  | .writeCmd w k => writeCmd w k s
  | .writeReg num v => if num = 0 then writeCmd (v.setWidth 32) 0 s else .next (writeRegister num v s)
  | .readReg num => .next (readRegister num s)
  | .writeIbuf idx b => writeIbuf idx b s
  | .readIbuf idx => if s.cfg.bufCap ≤ idx then .fault (.ibufIndex idx) else .next (readByte s.ibuf idx s)
  | .readObuf idx => if s.cfg.bufCap ≤ idx then .fault (.obufIndex idx) else .next (readByte s.obuf idx s)
  | .reset => .next (applyReset s)

/-- The next action of the host, if there is one; an engine without one stays as it is (R371). -/
def takeInput (s : State) : Result :=
  match s.inputs with
  | [] => .next s
  | e :: rest => hostEvent e { s with inputs := rest }

/-- One step of the machine: a command in flight whose time is up completes; else the host acts, and a
command in flight comes one step nearer to its completion. -/
def machineStep (s : State) : Result :=
  match s.busyFor with
  | none => takeInput s
  | some 0 => finishCommand s
  | some (k + 1) => takeInput { s with busyFor := some k }

/-- The host writes the word of a table row to `CMD` next, and the engine is ready to take it. -/
def withCommandNext (nbits w : Nat) (s : State) : State :=
  { s with busyFor := none, inputs := .writeCmd (BitVec.ofNat 32 (w % 2 ^ nbits)) 0 :: s.inputs }

end Sys2Proof.Machine
end

