-- ==== Sys2Proof/Machine/Step.lean ====
section
/-! DEFINITION. One step of the machine (20_memory.md R71, R73), and the state whose next step runs a given
command word. -/

namespace Sys2Proof.Machine

/-- One step: the completion of a command in flight, or one action of the host, a write of `CMD` among
them. -/
def step (s : State) : Host.Outcome State Fault Refusal := machineStep s

/-- The state in which the host's next action is the write of this word to `CMD` and the engine is idle, so
that the next step latches, decodes and runs exactly it (R23). Log entry 2. -/
def State.withFetchWord (s : State) (nbits w : Nat) : State := withCommandNext nbits w s

end Sys2Proof.Machine
end

