-- ==== Sys2Proof/Safety.lean ====
section
/-! DEFINITION. The terms in which statements about the engine are made: the invariant of the state, what a
command leaves alone, the bits a sink holds, the functions behind the codec commands. -/

namespace Sys2Proof.Machine

/-! ### Bit strings -/

/-- The bits of a byte in stream order, most significant first (R62). -/
def byteBits (b : Byte) : List Bool :=
  [b.getLsbD 7, b.getLsbD 6, b.getLsbD 5, b.getLsbD 4, b.getLsbD 3, b.getLsbD 2, b.getLsbD 1, b.getLsbD 0]

/-- The bits of a byte sequence in stream order (R62). -/
def bitsOf : List Byte → List Bool
  | [] => []
  | b :: bs => byteBits b ++ bitsOf bs

/-- The `n` low-order bits of a value, most significant first: the field that `writeBits(v, n)` writes
(R63, R133). -/
def fieldBits (v : Word64) : Nat → List Bool
  | 0 => []
  | n + 1 => v.getLsbD n :: fieldBits v n

/-- The number a bit string spells, first bit most significant (R138). -/
def bitsValue : List Bool → Nat
  | [] => 0
  | b :: bs => b.toNat * 2 ^ bs.length + bitsValue bs

/-- The bits written to a sink so far (R33). -/
def sinkBits (k : Sink) : List Bool := bitsOf k.bytes ++ (byteBits k.acc).take k.nb

/-- The invariant R33 states: at most 7 filled bits, zeros below them. -/
def sinkWf (k : Sink) : Bool := decide (k.nb < 8) && (byteBits k.acc).drop k.nb == List.replicate (8 - k.nb) false

/-! ### The invariant of the state -/

/-- Every listed address is below `cap` (R31). -/
def cellsBelow (cap : Nat) (cells : List Host.Cell) : Bool := cells.all fun c => decide (c.1 < cap)

/-- What every reachable state satisfies, each clause with the rule it comes from. -/
structure Inv (s : State) : Prop where
  /-- R9: the constraint on `BUF_CAP`. -/
  cap : s.cfg.ok = true
  /-- The canonical form of the buffers, and indices below `BUF_CAP` (R31). -/
  ibufWf : s.ibuf.wf = true
  ibufIn : cellsBelow s.cfg.bufCap s.ibuf.cells = true
  obufWf : s.obuf.wf = true
  obufIn : cellsBelow s.cfg.bufCap s.obuf.cells = true
  /-- R32: no output is longer than the capacity. -/
  olenFits : s.olen.toNat ≤ s.cfg.bufCap
  /-- R25: `OBUF[0 .. OLEN-1]` is an output, no byte of it unspecified. -/
  outputListed : ∀ a < s.olen.toNat, (lookupCell a s.obuf.cells).isSome = true
  /-- R33, R135: the sink's own invariant, and its capacity. -/
  sinkOk : ∀ k, s.sink = some k → sinkWf k = true ∧ k.bitCount ≤ 8 * s.cfg.bufCap
  /-- R34: `SR.pos` in `0 .. 8 * SR.len`. -/
  sourceOk : ∀ r, s.source = some r → r.len ≤ s.cfg.bufCap ∧ r.pos ≤ 8 * r.len
  /-- R24: `STAGE` is 0, 1 or 2, and 0 unless a command failed. -/
  stageLegal : s.stage.toNat ≤ 2
  stageOfFailure : s.err = none → s.stage = 0
  /-- R24: `SERR` is set whenever a command completed with a failure. -/
  failureSticky : s.err ≠ none → s.serr = true
  /-- R24, R354: the flags while a command is in flight. -/
  busyFlags : busy s = true → s.done = false ∧ s.err = none

/-! ### What a command changes and what it leaves alone -/

/-- What no command changes: the parameters, the latched word, `ILEN`, `WDATA`, `PIPE`, `CTRL`, every byte of
IBUF (R25, R26, R28, R31, R354), and what is the host's, the model's own fields `inputs` and `hostRead` (log entries
2, 14). That the latched word is among them is the model's form: the write latched it (log entry 12). -/
structure KeepsHostSide (s t : State) : Prop where
  cfg : t.cfg = s.cfg
  cmd : t.cmd = s.cmd
  ilen : t.ilen = s.ilen
  wdata : t.wdata = s.wdata
  pipe : t.pipe = s.pipe
  ie : t.ie = s.ie
  ibuf : ∀ a, t.ibuf.read a = s.ibuf.read a
  inputs : t.inputs = s.inputs
  hostRead : t.hostRead = s.hostRead

/-- `OLEN` and the output `OBUF[0 .. OLEN-1]` are unchanged (R351, R357). Of the bytes at and above `OLEN` it says
nothing: R31 and U1 call them unspecified after every command; the model keeps them here by log entry 6, and no
statement rests on that. -/
structure KeepsOutput (s t : State) : Prop where
  olen : t.olen = s.olen
  obuf : ∀ a < s.olen.toNat, t.obuf.read a = s.obuf.read a

/-- The flags after a command that completed with the code `c` at stage `st` (R354): `SERR` is as before or
set. -/
structure CompletedWith (c : Option Failure) (st : BitVec 2) (s t : State) : Prop where
  done : t.done = true
  idle : busy t = false
  err : t.err = c
  stage : t.stage = st
  serr : t.serr = (s.serr || c.isSome)

/-- A command that failed with the code `f` and changed nothing but `STATUS`: every `IllegalCommand` (R351)
and every failed class 0 command (R357). -/
structure FailedPlain (f : Failure) (s t : State) : Prop where
  flags : CompletedWith (some f) 0 s t
  host : KeepsHostSide s t
  out : KeepsOutput s t
  rdata : t.rdata = s.rdata
  sink : t.sink = s.sink
  source : t.source = s.source

/-- A class 0 command that succeeded without an output, leaving the sessions `k` and `r` and `RDATA` at `v`
(R357, R358). -/
structure SucceededPlain (k : Option Sink) (r : Option Source) (v : Word64) (s t : State) : Prop where
  flags : CompletedWith none 0 s t
  host : KeepsHostSide s t
  out : KeepsOutput s t
  rdata : t.rdata = v
  sink : t.sink = k
  source : t.source = r

/-- A class 1 command that succeeded with the result `out` (R355). -/
structure Delivered (out : List Byte) (s t : State) : Prop where
  flags : CompletedWith none 0 s t
  host : KeepsHostSide s t
  rdata : t.rdata = s.rdata
  sink : t.sink = none
  source : t.source = none
  olen : t.olen.toNat = out.length
  output : outputBytes t = out

/-- A class 1 command that failed with the code `f` at stage `st` (R356). -/
structure FailedClass1 (f : Failure) (st : BitVec 2) (s t : State) : Prop where
  flags : CompletedWith (some f) st s t
  host : KeepsHostSide s t
  rdata : t.rdata = s.rdata
  sink : t.sink = none
  source : t.source = none
  olen : t.olen = 0

/-! ### The codec commands -/

/-- The function behind each of the 18 codec commands (R354). -/
def codecFunction : Instr → Option (List Byte → Except Failure (List Byte))
  | .deltaEnc => some deltaEnc
  | .dodEnc => some dodEnc
  | .dodfEnc => some dodfEnc
  | .xorfEnc => some xorfEnc
  | .chimpEnc => some chimpEnc
  | .huffEnc => some huffEnc
  | .grEnc => some grEnc
  | .bpEnc => some bpEnc
  | .rleEnc => some rleEnc
  | .deltaDec => some deltaDec
  | .dodDec => some dodDec
  | .dodfDec => some dodfDec
  | .xorfDec => some xorfDec
  | .chimpDec => some chimpDec
  | .huffDec => some huffDec
  | .grDec => some grDec
  | .bpDec => some bpDec
  | .rleDec => some rleDec
  | .bsWopen | .bsWbit | .bsWbits _ | .bsFinish | .bsRopen | .bsRbit | .bsRbits _ | .bsAtend
  | .pipeEnc | .pipeDec => none

/-- A step that stops with neither a fault nor a refusal: a safe step. -/
def stepsOn (s : State) : Bool :=
  match step s with
  | .next _ => true
  | .fault _ => false
  | .refused _ => false

end Sys2Proof.Machine
end

