-- ==== Sys2Proof/Certificates/Slice0/Obligations.lean ====
section
/-! DEFINITION. The statements about the engine, from the numbered rules of spec/. A reference form of a
stream (a bit string, a list comprehension) stands beside each statement that needs one: none of them calls
the engine's sink, source or loops. -/

open Sys2Proof Sys2Proof.Machine

/-! ### Reference forms -/

/-- The illegal command words, range by range as R104 lists them. -/
def Sys2Proof.Machine.illegalWord (w : Word32) : Prop :=
  65536 ≤ w.toNat ∨ w.toNat % 256 = 0x00 ∨ (0x09 ≤ w.toNat % 256 ∧ w.toNat % 256 ≤ 0x0F)
    ∨ (0x19 ≤ w.toNat % 256 ∧ w.toNat % 256 ≤ 0x1E) ∨ (0x99 ≤ w.toNat % 256 ∧ w.toNat % 256 ≤ 0x9E)
    ∨ (0x20 ≤ w.toNat % 256 ∧ w.toNat % 256 ≤ 0x8F) ∨ 0xA0 ≤ w.toNat % 256
    ∨ ((w.toNat % 256 = 0x03 ∨ w.toNat % 256 = 0x07) ∧ 64 < w.toNat / 256 % 256)
    ∨ (w.toNat % 256 ≠ 0x03 ∧ w.toNat % 256 ≠ 0x07 ∧ w.toNat / 256 % 256 ≠ 0)

/-- The legal pipeline descriptors (R98, R327), over the fields `S0`, `S1`, `S2`, `NST` and the reserved
bits. -/
def Sys2Proof.Machine.legalDescriptor (p : Word32) : Prop :=
  p.toNat / 16384 = 0 ∧ p.toNat % 16 ≤ 8 ∧ p.toNat / 16 % 16 ≤ 8
    ∧ ((p.toNat / 4096 % 4 = 2 ∧ p.toNat / 256 % 16 = 0) ∨ (p.toNat / 4096 % 4 = 3 ∧ p.toNat / 256 % 16 ≤ 8))

/-- A chain of stages (R330): each stage's function succeeds on the bytes before it with a result that fits
the capacity. -/
inductive Sys2Proof.Machine.Chain (f : CodecUnit → List Byte → Except Failure (List Byte)) (cap : Nat) :
    List CodecUnit → List Byte → List Byte → Prop where
  | done (b : List Byte) : Chain f cap [] b b
  | stage (u : CodecUnit) (us : List CodecUnit) (b r out : List Byte) :
      f u b = .ok r → r.length ≤ cap → Chain f cap us r out → Chain f cap (u :: us) b out

/-- Fields written one after the other to a sink (R142). -/
def Sys2Proof.Machine.writeFields (k : Sink) : List (Word64 × Nat) → Sink
  | [] => k
  | (v, n) :: rest => writeFields (k.writeBits v n) rest

/-- Fields of the given widths read one after the other (R142). -/
def Sys2Proof.Machine.readFields (d : Nat → Byte) (r : Source) : List Nat → Except Failure (List Word64 × Source)
  | [] => .ok ([], r)
  | n :: rest =>
    match r.readBits d n with
    | .error e => .error e
    | .ok (v, r') =>
      match readFields d r' rest with
      | .error e => .error e
      | .ok (vs, r'') => .ok (v :: vs, r'')

/-- The number whose groups of 7 bits, least significant first, a varint's bytes carry (R111). -/
def Sys2Proof.Machine.groupsValue : List Byte → Nat
  | [] => 0
  | b :: bs => b.toNat % 128 + 128 * groupsValue bs

/-- One varint as the decoder takes it (R163): at most 9 marked bytes and an unmarked one, 0 or 1 if it is the
tenth. Redundant zero groups are not excluded. -/
def Sys2Proof.Machine.IsVarint (w : List Byte) : Prop :=
  ∃ (pre : List Byte) (b : Byte), w = pre ++ [b] ∧ (∀ x ∈ pre, 128 ≤ x.toNat) ∧ b.toNat < 128 ∧ pre.length ≤ 9
    ∧ (pre.length = 9 → b.toNat ≤ 1)

/-- The value of a varint (R163). -/
def Sys2Proof.Machine.varintWord (w : List Byte) : Word64 := unzigzag (BitVec.ofNat 64 (groupsValue w))

/-- What a decoder of a raw first value and varints answers on every stream (R168, R174, R163), `column` being the
column of a first value and the varints' values: 1 to 7 bytes are truncated; the first item after whole varints
that is cut or over-long decides. -/
def Sys2Proof.Machine.VarintStreamAnswers (i : Instr) (column : Word64 → List Word64 → List Word64) : Prop :=
  ∀ s : State, s.cfg.ok = true → s.ilen.toNat ≤ s.cfg.bufCap →
    (0 < s.ilen.toNat → s.ilen.toNat < 8 → ∃ t, exec i s = .next t ∧ FailedClass1 .truncatedStream 0 s t) ∧
    ∀ (v0 : Word64) (ws : List (List Byte)) (tail : List Byte), (∀ w ∈ ws, IsVarint w) →
      inputBytes s = bytesBe64 v0 ++ ws.flatten ++ tail →
      (tail = [] → 8 * (ws.length + 1) ≤ s.cfg.bufCap →
        ∃ t, exec i s = .next t ∧ Delivered (bytesOf64 (column v0 (ws.map varintWord))) s t) ∧
      (tail = [] → s.cfg.bufCap < 8 * (ws.length + 1) →
        ∃ t, exec i s = .next t ∧ FailedClass1 .resourceExhausted 0 s t) ∧
      (tail ≠ [] → (∀ x ∈ tail, 128 ≤ x.toNat) → tail.length ≤ 9 →
        ∃ t, exec i s = .next t ∧ FailedClass1 .truncatedStream 0 s t) ∧
      ∀ (pre : List Byte) (b : Byte) (rest : List Byte), tail = pre ++ b :: rest → (∀ x ∈ pre, 128 ≤ x.toNat) →
        pre.length = 9 → 2 ≤ b.toNat → ∃ t, exec i s = .next t ∧ FailedClass1 .malformedInput 0 s t

/-- The DELTA stream of a column (R112). -/
def Sys2Proof.Machine.deltaStream : List Word64 → List Byte
  | [] => []
  | v0 :: vs => bytesBe64 v0 ++ (List.zipWith (fun a b => varintEnc (b - a)) (v0 :: vs) vs).flatten

/-- The term `x_i` of a column by its index (R171); `v` is the column, 0 outside. -/
def Sys2Proof.Machine.termAt (vs : List Word64) (i : Nat) : Word64 :=
  if i = 0 then vs.getD 0 0
  else if i = 1 then vs.getD 1 0 - vs.getD 0 0
  else (vs.getD i 0 - vs.getD (i - 1) 0) - (vs.getD (i - 1) 0 - vs.getD (i - 2) 0)

/-- The DOD stream of a column (R113). -/
def Sys2Proof.Machine.dodStream (vs : List Word64) : List Byte :=
  (vs.take 1).flatMap bytesBe64 ++ ((List.range' 1 (vs.length - 1)).map fun i => varintEnc (termAt vs i)).flatten

/-- The DODF stream of a column (R114). -/
def Sys2Proof.Machine.dodfStream (vs : List Word64) : List Byte :=
  bytesOf64 ((List.range vs.length).map fun i => zigzag (termAt vs i))

/-- The bits of the records of an XORF stream (R115, R202): `win` is the remembered window's counts. -/
def Sys2Proof.Machine.xorfBits (prev : Word32) (win : Option (Nat × Nat)) : List Word32 → List Bool
  | [] => []
  | cur :: ps =>
    let x := prev ^^^ cur
    if x = 0 then false :: xorfBits cur win ps
    else
      let lz := clz32 x
      let tz := ctz32 x
      match win.filter fun w => decide (w.1 ≤ lz ∧ w.2 ≤ tz) with
      | some (l, t) =>
        [true, false] ++ fieldBits (BitVec.ofNat 64 (x.toNat / 2 ^ t)) (32 - l - t) ++ xorfBits cur win ps
      | none =>
        [true, true] ++ fieldBits (BitVec.ofNat 64 lz) 5 ++ fieldBits (BitVec.ofNat 64 (32 - lz - tz)) 6
          ++ fieldBits (BitVec.ofNat 64 (x.toNat / 2 ^ tz)) (32 - lz - tz) ++ xorfBits cur (some (lz, tz)) ps

/-- The window slot `j` holds when `stored` are the new windows so far, oldest first (R219): the last one
whose position is `j` modulo 128. -/
def Sys2Proof.Machine.ringSlot (stored : List (Nat × Nat)) (j : Nat) : Option (Nat × Nat) :=
  if stored.length ≤ j then none else stored[j + 128 * ((stored.length - 1 - j) / 128)]?

/-- The lowest slot a value with these counts fits (R218). -/
def Sys2Proof.Machine.ringFind (stored : List (Nat × Nat)) (lz tz : Nat) : Option Nat :=
  (List.range 128).find? fun j =>
    match ringSlot stored j with
    | none => false
    | some w => decide (w.1 ≤ lz ∧ w.2 ≤ tz)

/-- The bits of the records of a CHIMP stream (R116, R217): `stored` are the new windows so far. -/
def Sys2Proof.Machine.chimpBits (prev : Word32) (stored : List (Nat × Nat)) : List Word32 → List Bool
  | [] => []
  | cur :: ps =>
    let x := prev ^^^ cur
    if x = 0 then false :: chimpBits cur stored ps
    else
      let lz := clz32 x
      let tz := ctz32 x
      match ringFind stored lz tz with
      | some j =>
        let w := (ringSlot stored j).getD (0, 0)
        [true, false] ++ fieldBits (BitVec.ofNat 64 j) 7
          ++ fieldBits (BitVec.ofNat 64 (x.toNat / 2 ^ w.2)) (32 - w.1 - w.2) ++ chimpBits cur stored ps
      | none =>
        [true, true] ++ fieldBits (BitVec.ofNat 64 lz) 5 ++ fieldBits (BitVec.ofNat 64 (32 - lz - tz)) 6
          ++ fieldBits (BitVec.ofNat 64 (x.toNat / 2 ^ tz)) (32 - lz - tz) ++ chimpBits cur (stored ++ [(lz, tz)]) ps

/-- The bits of a float stream: count, raw first pattern, records (R115, R116). -/
def Sys2Proof.Machine.floatBits (records : Word32 → List Word32 → List Bool) : List Word32 → List Bool
  | [] => fieldBits 0 32
  | p0 :: ps => fieldBits (BitVec.ofNat 64 (ps.length + 1)) 32 ++ fieldBits (p0.setWidth 64) 32 ++ records p0 ps

/-- What `clz32` and `ctz32` are on every word they are applied to (R13). -/
def Sys2Proof.Machine.CountsZeros : Prop :=
  ∀ x : Word32, x ≠ 0 → 2 ^ (31 - clz32 x) ≤ x.toNat ∧ x.toNat < 2 ^ (32 - clz32 x)
    ∧ 2 ^ ctz32 x ∣ x.toNat ∧ x.toNat / 2 ^ ctz32 x % 2 = 1

/-- The pattern after `p` whose XOR with it is the bits `c` placed above `t` zeros (R201). -/
def Sys2Proof.Machine.xorPlaced (p : Word32) (c : List Bool) (t : Nat) : Word32 :=
  p ^^^ BitVec.ofNat 32 (bitsValue c * 2 ^ t)

/-- Whole records of a float stream as the decoder takes them (R208, R223): after the pattern `p`, with the new
windows `st` so far, the bits give the patterns, and leave the new windows of the last argument. A reference is an
index of `k` bits, and `slot st j` the window it stands for: XORF has `k = 0` and the last new window, CHIMP `k = 7`
and the ring. -/
inductive Sys2Proof.Machine.FloatRecords (k : Nat) (slot : List (Nat × Nat) → Nat → Option (Nat × Nat)) :
    Word32 → List (Nat × Nat) → List Bool → List Word32 → List (Nat × Nat) → Prop where
  | done (p : Word32) (st : List (Nat × Nat)) : FloatRecords k slot p st [] [] st
  | same (p : Word32) (st st' : List (Nat × Nat)) (bs : List Bool) (ps : List Word32) :
      FloatRecords k slot p st bs ps st' → FloatRecords k slot p st (false :: bs) (p :: ps) st'
  | reuse (p : Word32) (st st' : List (Nat × Nat)) (bs : List Bool) (ps : List Word32) (j l t : Nat) (c : List Bool) :
      j < 2 ^ k → slot st j = some (l, t) → c.length = 32 - l - t →
      FloatRecords k slot (xorPlaced p c t) st bs ps st' →
      FloatRecords k slot p st ([true, false] ++ fieldBits (BitVec.ofNat 64 j) k ++ c ++ bs) (xorPlaced p c t :: ps) st'
  | fresh (p : Word32) (st st' : List (Nat × Nat)) (bs : List Bool) (ps : List Word32) (lz : Nat) (c : List Bool) :
      lz < 32 → c ≠ [] → lz + c.length ≤ 32 →
      FloatRecords k slot (xorPlaced p c (32 - lz - c.length)) (st ++ [(lz, 32 - lz - c.length)]) bs ps st' →
      FloatRecords k slot p st ([true, true] ++ fieldBits (BitVec.ofNat 64 lz) 5
        ++ fieldBits (BitVec.ofNat 64 c.length) 6 ++ c ++ bs) (xorPlaced p c (32 - lz - c.length) :: ps) st'

/-- Bits whose first record no encoder writes (R208, R223): a reference to no window; a significant count of 0, or
one that does not fit beside the leading count. -/
def Sys2Proof.Machine.BadRecord (k : Nat) (slot : List (Nat × Nat) → Nat → Option (Nat × Nat))
    (st : List (Nat × Nat)) (post : List Bool) : Prop :=
  (∃ j rest, j < 2 ^ k ∧ slot st j = none ∧ post = [true, false] ++ fieldBits (BitVec.ofNat 64 j) k ++ rest) ∨
  ∃ lz sig rest, lz < 32 ∧ sig < 64 ∧ (sig = 0 ∨ 32 < lz + sig) ∧
    post = [true, true] ++ fieldBits (BitVec.ofNat 64 lz) 5 ++ fieldBits (BitVec.ofNat 64 sig) 6 ++ rest

/-- Bits that end inside their first record, or with none (R208, R223). -/
def Sys2Proof.Machine.CutRecord (k : Nat) (slot : List (Nat × Nat) → Nat → Option (Nat × Nat))
    (st : List (Nat × Nat)) (post : List Bool) : Prop :=
  post = [] ∨ post = [true] ∨ (∃ c, c.length < k ∧ post = [true, false] ++ c) ∨
  (∃ j l t c, j < 2 ^ k ∧ slot st j = some (l, t) ∧ c.length < 32 - l - t ∧
    post = [true, false] ++ fieldBits (BitVec.ofNat 64 j) k ++ c) ∨
  (∃ c, c.length < 11 ∧ post = [true, true] ++ c) ∨
  ∃ lz sig c, lz < 32 ∧ lz + sig ≤ 32 ∧ c.length < sig ∧
    post = [true, true] ++ fieldBits (BitVec.ofNat 64 lz) 5 ++ fieldBits (BitVec.ofNat 64 sig) 6 ++ c

/-- What a float decoder answers on every stream (R208, R223, R122): the first record after whole ones that is cut
or that no encoder writes decides; what follows the last record is ignored. -/
def Sys2Proof.Machine.FloatStreamAnswers (i : Instr) (k : Nat)
    (slot : List (Nat × Nat) → Nat → Option (Nat × Nat)) : Prop :=
  ∀ s : State, s.cfg.ok = true → s.ilen.toNat ≤ s.cfg.bufCap →
    (s.ilen.toNat < 4 → ∃ t, exec i s = .next t ∧ FailedClass1 .truncatedStream 0 s t) ∧
    ∀ (n : Word32) (body : List Byte), inputBytes s = bytesBe32 n ++ body →
      (n = 0 → ∃ t, exec i s = .next t ∧ Delivered [] s t) ∧
      (n ≠ 0 → body.length < 4 → ∃ t, exec i s = .next t ∧ FailedClass1 .truncatedStream 0 s t) ∧
      ∀ (p : Word32) (bytes : List Byte) (bs post : List Bool) (ps : List Word32) (st : List (Nat × Nat)), n ≠ 0 →
        body = bytesBe32 p ++ bytes → bitsOf bytes = bs ++ post → FloatRecords k slot p [] bs ps st →
        (ps.length + 1 = n.toNat → 4 * n.toNat ≤ s.cfg.bufCap →
          ∃ t, exec i s = .next t ∧ Delivered (bytesOf32 (p :: ps)) s t) ∧
        (ps.length + 1 = n.toNat → s.cfg.bufCap < 4 * n.toNat →
          ∃ t, exec i s = .next t ∧ FailedClass1 .resourceExhausted 0 s t) ∧
        (ps.length + 1 < n.toNat → BadRecord k slot st post →
          ∃ t, exec i s = .next t ∧ FailedClass1 .malformedInput 0 s t) ∧
        (ps.length + 1 < n.toNat → CutRecord k slot st post →
          ∃ t, exec i s = .next t ∧ FailedClass1 .truncatedStream 0 s t)

/-- A byte sequence lays out a bit string: its bits, then fewer than 8 zeros up to a whole byte (R64). -/
def Sys2Proof.Machine.LaysOut (out : List Byte) (bits : List Bool) : Prop :=
  out.length = (bits.length + 7) / 8 ∧ bitsOf out = bits ++ List.replicate (8 * out.length - bits.length) false

/-- The bits of one Golomb-Rice code (R118). -/
def Sys2Proof.Machine.grBits (v : Word64) : List Bool :=
  List.replicate (v.toNat / 8) true ++ false :: fieldBits (BitVec.ofNat 64 (v.toNat % 8)) 3

/-- The bits of a BP stream with width `w` (R119). -/
def Sys2Proof.Machine.bpBits (w : Nat) (vs : List Word64) : List Bool :=
  fieldBits (BitVec.ofNat 64 vs.length) 32 ++ fieldBits (BitVec.ofNat 64 w) 8 ++ vs.flatMap fun v => fieldBits v w

/-- The bits of a HUFF stream with the table `t` and the given code per byte (R117). -/
def Sys2Proof.Machine.huffBits (t : List (Byte × Nat)) (code : Byte → List Bool) (inp : List Byte) : List Bool :=
  fieldBits (BitVec.ofNat 64 t.length) 16
    ++ (t.flatMap fun e => fieldBits (e.1.setWidth 64) 8 ++ fieldBits (BitVec.ofNat 64 e.2) 32)
    ++ fieldBits (BitVec.ofNat 64 inp.length) 32 ++ inp.flatMap code

/-- The code of a byte under a table (R247, R248): by the tree of the table, none for the empty table. -/
def Sys2Proof.Machine.huffCode (t : List (Byte × Nat)) (b : Byte) : List Bool :=
  match buildTree t with
  | none => []
  | some root => codeOf (codeTable root) b

/-- The leaves of a table, numbered by their rank (R244). -/
def Sys2Proof.Machine.tableLeaves (t : List (Byte × Nat)) : List HuffTree :=
  t.zipIdx.map fun e => .leaf e.1.2 e.2 e.1.1

/-- The strict node order: frequency, then sequence number (R243). -/
def Sys2Proof.Machine.NodeLess (a b : HuffTree) : Prop :=
  treeFreq a < treeFreq b ∨ (treeFreq a = treeFreq b ∧ treeSeq a < treeSeq b)

/-- The merging of R245: of the nodes `q` the least `a` becomes the left child and the next least `b` the right child
of a new node, numbered `m`, which takes their place; one node left is the root. -/
inductive Sys2Proof.Machine.Merges : Nat → List HuffTree → HuffTree → Prop where
  | root (m : Nat) (a : HuffTree) : Merges m [a] a
  | merge (m : Nat) (q rest : List HuffTree) (a b root : HuffTree) : (a :: b :: rest).Perm q →
      (∀ x ∈ b :: rest, NodeLess a x) → (∀ x ∈ rest, NodeLess b x) →
      Merges (m + 1) (.node (treeFreq a + treeFreq b) m a b :: rest) root → Merges m q root

/-- Where a bit string leads from a node, `0` to the left, `1` to the right (R248): the byte of the leaf it ends at. -/
def Sys2Proof.Machine.leafAt : HuffTree → List Bool → Option Byte
  | .leaf _ _ b, [] => some b
  | .leaf _ _ _, _ :: _ => none
  | .node _ _ _ _, [] => none
  | .node _ _ l _, false :: cs => leafAt l cs
  | .node _ _ _ r, true :: cs => leafAt r cs

/-- The bytes of the table entries of a HUFF stream: byte, then 32-bit count (R117). -/
def Sys2Proof.Machine.entryBytes (t : List (Byte × Nat)) : List Byte :=
  t.flatMap fun e => e.1 :: bytesBe32 (BitVec.ofNat 32 e.2)

/-- The number of a unit (R97). -/
def Sys2Proof.Machine.unitNumber : CodecUnit → Nat
  | .delta => 0
  | .dod => 1
  | .dodf => 2
  | .xorf => 3
  | .chimp => 4
  | .huff => 5
  | .gr => 6
  | .bp => 7
  | .rle => 8

/-- A table as R241 builds it: bytes strictly ascending, every count positive. -/
def Sys2Proof.Machine.AscendingTable (t : List (Byte × Nat)) : Prop :=
  t.Pairwise (fun a b => a.1.toNat < b.1.toNat) ∧ ∀ e ∈ t, 0 < e.2

/-- The bytes of an RLE stream of pairs (R120). -/
def Sys2Proof.Machine.pairBytes (ps : List (Byte × Byte)) : List Byte := ps.flatMap fun p => [p.1, p.2]

/-! ### Encoding -/

/-- R90, R95: the decoder reads every well-formed command back from the word the encoder writes. -/
def Obligations.DecodeInvertsEncode : Prop :=
  ∀ i : Instr, i.wellFormed = true → decode (encode i) = .ok i

/-- R91, R95: a word the decoder accepts is the one word of a well-formed command. -/
def Obligations.EncodeInvertsDecode : Prop :=
  ∀ (w : Word32) (i : Instr), decode w = .ok i → i.wellFormed = true ∧ encode i = w

/-- R104: the listed words, and no others, are no command, and a write of one, by the `CMD` access or through
register number 0, changes nothing but `CMD` and `STATUS`. That a write through register number 0 carries 64 bits, of
which the low 32 are the word, and runs with no `BUSY` step is the model's choice (log entry 19); the completion in the
step of the write is the atomic form R395 recommends (log entry 3). -/
def Obligations.IllegalWordsChangeOnlyCmdAndStatus : Prop :=
  (∀ w : Word32, (∃ i, decode w = .ok i) ↔ ¬ illegalWord w) ∧
  ∀ (s : State) (w : Word32) (v : Word64) (rest : List HostEvent), illegalWord w → s.busyFor = none →
    (s.inputs = .writeCmd w 0 :: rest ∨ (s.inputs = .writeReg 0 v :: rest ∧ v.setWidth 32 = w)) →
    ∃ t, step s = .next t ∧ t.cmd = w ∧ t.inputs = rest
      ∧ FailedPlain .illegalCommand { s with cmd := w, inputs := rest } t

/-- R95, R99: words written out from the encoding decode to the commands they stand for. -/
def Obligations.WrittenOutWordsDecode : Prop :=
  decode 0x00000903#32 = .ok (.bsWbits 9) ∧ decode 0x00000006#32 = .ok .bsRbit
    ∧ decode 0x00000091#32 = .ok .dodDec ∧ decode 0x00000013#32 = .ok .xorfEnc
    ∧ decode 0x00000095#32 = .ok .huffDec ∧ decode 0x00000016#32 = .ok .grEnc
    ∧ decode 0x00000098#32 = .ok .rleDec ∧ decode 0x0000001F#32 = .ok .pipeEnc

/-! ### Steps, registers, reset -/

/-- R23, R22, R71: a write of `CMD` to an idle engine, by the `CMD` access or through register number 0, latches the
word and runs the decoded command. The model's choices: a write through register number 0 carries 64 bits, of which
the low 32 are the word, and runs with no `BUSY` step (log entry 19); `exec` is the command on the state in which the
word has been latched (log entry 12); no `BUSY` step is the atomic form R395 recommends (log entry 3). -/
def Obligations.StepRunsTheDecodedCommand : Prop :=
  ∀ (s : State) (w : Word32) (v : Word64) (rest : List HostEvent) (i : Instr), s.busyFor = none →
    (s.inputs = .writeCmd w 0 :: rest ∨ (s.inputs = .writeReg 0 v :: rest ∧ v.setWidth 32 = w)) →
    decode w = .ok i → step s = exec i { s with inputs := rest, cmd := w }

/-- R395: how long `BUSY` is seen changes no result: `k` steps of `BUSY` and the completion give the state of
the atomic step. The number of steps is the model's form of an unspecified time (log entry 3). -/
def Obligations.BusyTimeChangesNoResult : Prop :=
  ∀ (s : State) (w : Word32) (k : Nat), s.busyFor = none → s.inputs = [.writeCmd w k] →
    Host.Core.run Sys2Proof.core (k + 1) s = step { s with inputs := [.writeCmd w 0] }

/-- R398, R397: while a command is in flight a write of `CMD`, of another register but `CTRL`, or of IBUF is
ignored, and no access but reset changes an operand or a result: a read of a register or of a buffer byte changes
only what the host read and the count of free values. The model's choices: every access brings the command one step
nearer to completion, `busyFor` counting down (log entry 3); the unspecified values are free values, counted as drawn
(log entry 5); what the host read stands in `hostRead`, 64 bits wide (log entries 14, 19). -/
def Obligations.AccessesWhileBusyChangeNothing : Prop :=
  ∀ (s : State) (e : HostEvent) (rest : List HostEvent) (k : Nat), s.busyFor = some (k + 1) →
    s.inputs = e :: rest →
    (∀ w n, e = .writeCmd w n → step s = .next { s with inputs := rest, busyFor := some k }) ∧
    (∀ num v, num ≠ 7 → e = .writeReg num v → step s = .next { s with inputs := rest, busyFor := some k }) ∧
    (∀ idx b, idx < s.cfg.bufCap → e = .writeIbuf idx b →
      step s = .next { s with inputs := rest, busyFor := some k }) ∧
    (∀ num, e = .readReg num → ∃ t, step s = .next t ∧
      { t with hostRead := s.hostRead, draws := s.draws } = { s with inputs := rest, busyFor := some k }) ∧
    (∀ num, num ≠ 3 → num ≠ 5 → e = .readReg num →
      step s = .next { s with inputs := rest, busyFor := some k, hostRead := registerValue num s }) ∧
    (∀ idx, idx < s.cfg.bufCap → (e = .readIbuf idx ∨ e = .readObuf idx) → ∃ t, step s = .next t ∧
      { t with hostRead := s.hostRead, draws := s.draws } = { s with inputs := rest, busyFor := some k })

/-- R22: reads and writes of the registers of an idle engine by number; read-only registers and numbers that
do not exist ignore writes, and the latter read 0. That an access carries 64 bits, a read zero-extended and a write
cut to the register's width, is the model's choice (log entry 19), and so is `hostRead` (log entry 14). -/
def Obligations.RegisterAccessesByNumber : Prop :=
  ∀ (s : State) (rest : List HostEvent) (num : Nat) (v : Word64), s.busyFor = none →
    (s.inputs = .writeReg num v :: rest →
      (num = 2 → step s = .next { s with inputs := rest, ilen := v.setWidth 32 }) ∧
      (num = 4 → step s = .next { s with inputs := rest, wdata := v }) ∧
      (num = 6 → step s = .next { s with inputs := rest, pipe := v.setWidth 32 }) ∧
      (num = 1 ∨ num = 3 ∨ num = 5 ∨ 8 ≤ num → step s = .next { s with inputs := rest })) ∧
    (s.inputs = .readReg num :: rest →
      ∃ x, step s = .next { s with inputs := rest, hostRead := x } ∧
        (num = 0 → x.toNat = s.cmd.toNat) ∧ (num = 1 → x.toNat = (statusWord s).toNat) ∧
        (num = 2 → x.toNat = s.ilen.toNat) ∧ (num = 3 → x.toNat = s.olen.toNat) ∧
        (num = 4 → x = s.wdata) ∧ (num = 5 → x = s.rdata) ∧ (num = 6 → x.toNat = s.pipe.toNat) ∧
        (num = 7 → x.toNat = s.ie.toNat) ∧ (8 ≤ num → x = 0))

/-- R29: a write of `CTRL` sets `IE` from bit 0 and clears `DONE` when bit 1 is 1, busy or not; nothing else
changes and only `IE` reads back. The model's choices: the write carries 64 bits, of which 63:32 are ignored as 31:2
are (log entry 19); with a command in flight the step counts `busyFor` down, and with `busyFor = some 0` the step is
the completion, after which the write comes to an idle engine (log entry 3). -/
def Obligations.CtrlWriteSetsEnableAndAcknowledges : Prop :=
  ∀ (s : State) (rest : List HostEvent) (v : Word64), s.inputs = .writeReg 7 v :: rest → s.busyFor ≠ some 0 →
    ∃ t, step s = .next t
      ∧ t = { s with inputs := rest, busyFor := s.busyFor.map (· - 1), ie := v.getLsbD 0,
                     done := s.done && !v.getLsbD 1 }
      ∧ (ctrlWord t).toNat = if v.getLsbD 0 then 1 else 0

/-- R30, R362: the interrupt line is high after a completion exactly when enabled, and low after an
acknowledge, while a command is in flight, and after reset. That the write of `CMD` carries how many steps `BUSY` is
seen is the model's choice (log entry 3), the 64 bits of the write of `CTRL` too (log entry 19). -/
def Obligations.InterruptLineFollowsDoneAndEnable : Prop :=
  (∀ (i : Instr) (s t : State), exec i s = .next t → irq t = s.ie) ∧
  (∀ (s : State) (rest : List HostEvent) (v : Word64), s.busyFor = none → s.inputs = .writeReg 7 v :: rest →
    v.getLsbD 1 = true → ∃ t, step s = .next t ∧ irq t = false) ∧
  (∀ (s : State) (rest : List HostEvent) (w : Word32) (k : Nat), s.busyFor = none →
    s.inputs = .writeCmd w (k + 1) :: rest → ∃ t, step s = .next t ∧ busy t = true ∧ irq t = false) ∧
  (∀ (s : State) (rest : List HostEvent), s.busyFor = none → s.inputs = .reset :: rest →
    ∃ t, step s = .next t ∧ irq t = false)

/-- R24: the fields of the `STATUS` word, and the result codes. -/
def Obligations.StatusWordFields : Prop :=
  (∀ s : State,
    (statusWord s).toNat = (busy s).toNat + 2 * s.done.toNat + 16 * (errCode s.err).toNat + 256 * s.stage.toNat
      + 1024 * s.sink.isSome.toNat + 2048 * s.source.isSome.toNat + 4096 * s.serr.toNat) ∧
  errCode none = 0 ∧ errCode (some .malformedInput) = 1 ∧ errCode (some .truncatedStream) = 2
    ∧ errCode (some .unsupportedValue) = 3 ∧ errCode (some .endOfStream) = 4
    ∧ errCode (some .illegalCommand) = 5 ∧ errCode (some .resourceExhausted) = 6

/-- R48, R390: reset clears the registers, ends the sessions and abandons a command in flight, at any time.
That no byte of a buffer keeps a listed value is the model's form of `unspecified` (log entry 4); that the
parameters and the host's coming accesses stay is the model's choice (log entry 16), and so is that a completion due
(`busyFor = some 0`) comes before the reset (log entry 3). -/
def Obligations.ResetClearsRegistersAndSessions : Prop :=
  (∀ s, s = State.reset →
    s.cmd = 0 ∧ statusWord s = 0 ∧ s.ilen = 0 ∧ s.olen = 0 ∧ s.wdata = 0 ∧ s.rdata = 0 ∧ s.pipe = 0
      ∧ ctrlWord s = 0 ∧ irq s = false ∧ s.sink = none ∧ s.source = none ∧ busy s = false) ∧
  ∀ (s : State) (rest : List HostEvent), s.busyFor ≠ some 0 → s.inputs = .reset :: rest →
    ∃ t, step s = .next t ∧ t.cmd = 0 ∧ statusWord t = 0 ∧ t.ilen = 0 ∧ t.olen = 0 ∧ t.wdata = 0 ∧ t.rdata = 0
      ∧ t.pipe = 0 ∧ ctrlWord t = 0 ∧ irq t = false ∧ t.sink = none ∧ t.source = none ∧ busy t = false
      ∧ t.ibuf.cells = [] ∧ t.obuf.cells = [] ∧ t.cfg = s.cfg ∧ t.inputs = rest

/-- R31: host accesses to the buffers of an idle engine: a byte of IBUF written reads back, every other byte
of it stays, nothing else changes; a byte read is the buffer's; an index at or above `BUF_CAP` does not
exist, and the access stops the machine (log entry 9). What the host read stands in `hostRead`, 64 bits wide, by the
model's choice (log entries 14, 19). -/
def Obligations.BufferAccessesByIndex : Prop :=
  ∀ (s : State) (rest : List HostEvent) (idx : Nat) (b : Byte), s.busyFor = none →
    (s.inputs = .writeIbuf idx b :: rest → idx < s.cfg.bufCap →
      ∃ t, step s = .next t ∧ { t with ibuf := s.ibuf } = { s with inputs := rest } ∧ t.ibuf.read idx = b
        ∧ ∀ a, a ≠ idx → t.ibuf.read a = s.ibuf.read a) ∧
    (s.inputs = .readIbuf idx :: rest → idx < s.cfg.bufCap →
      step s = .next { s with inputs := rest, hostRead := (s.ibuf.read idx).setWidth 64 }) ∧
    (s.inputs = .readObuf idx :: rest → idx < s.cfg.bufCap →
      step s = .next { s with inputs := rest, hostRead := (s.obuf.read idx).setWidth 64 }) ∧
    (s.cfg.bufCap ≤ idx →
      (s.inputs = .writeIbuf idx b :: rest → step s = .fault (.ibufIndex idx)) ∧
      (s.inputs = .readIbuf idx :: rest → step s = .fault (.ibufIndex idx)) ∧
      (s.inputs = .readObuf idx :: rest → step s = .fault (.obufIndex idx)))

/-! ### Invariants and whole-machine rules -/

/-- The invariant holds after reset, whatever the capacity. -/
def Obligations.ResetMeetsInvariant : Prop :=
  Inv State.reset ∧ ∀ cap, 1 ≤ cap → cap ≤ 2 ^ 32 - 1 → Inv (State.resetOf cap)

/-- Every step keeps the invariant. -/
def Obligations.StepKeepsInvariant : Prop :=
  ∀ s t : State, Inv s → step s = .next t → Inv t

/-- R25, R26, R28, R31: no command writes (nor, log entry 12, its meaning `CMD`) `ILEN`, `WDATA`, `PIPE`, `CTRL` or IBUF. -/
def Obligations.NoCommandWritesTheHostSide : Prop :=
  ∀ (i : Instr) (s t : State), exec i s = .next t → KeepsHostSide s t

/-- R24, R365: `SERR` records every failed command, and only reset clears it. -/
def Obligations.StickyErrorOnlyResetClears : Prop :=
  (∀ (i : Instr) (s t : State), exec i s = .next t → t.err ≠ none → t.serr = true) ∧
  ∀ s t : State, step s = .next t → s.serr = true → (∀ rest, s.inputs ≠ .reset :: rest) → t.serr = true

/-- R361, R394: every command completes, with `DONE` set and `BUSY` clear; a step stops only at a host access
to a buffer index that does not exist, the model's choice (log entry 9). -/
def Obligations.EveryCommandCompletes : Prop :=
  (∀ (i : Instr) (s : State), ∃ t, exec i s = .next t ∧ t.done = true ∧ busy t = false) ∧
  ∀ s : State, (∃ t, step s = .next t) ∨
    ∃ idx b rest, s.cfg.bufCap ≤ idx ∧
      (s.inputs = .writeIbuf idx b :: rest ∨ s.inputs = .readIbuf idx :: rest ∨ s.inputs = .readObuf idx :: rest)

/-- R7, R47: what a class 1 command delivers depends on its input bytes, `ILEN`, `PIPE` and the capacity alone,
whatever ran before. -/
def Obligations.ResultsDependOnInputsAlone : Prop :=
  ∀ (i : Instr) (s s' t t' : State), isClass1 i = true → s.cfg = s'.cfg → s.ilen = s'.ilen → s.pipe = s'.pipe →
    inputBytes s = inputBytes s' → exec i s = .next t → exec i s' = .next t' →
    t.err = t'.err ∧ t.stage = t'.stage
      ∧ (¬ inputTooLong s = true → (isPipe i = true → (pipeStages s.pipe).isSome = true) →
          t.olen = t'.olen ∧ outputBytes t = outputBytes t')

/-! ### The bit-stream commands -/

/-- R143. -/
def Obligations.WopenOpensAFreshSink : Prop :=
  decode 0x00000001#32 = .ok .bsWopen ∧ ∀ s : State, ∃ t, exec .bsWopen s = .next t ∧ SucceededPlain (some ⟨[], 0, 0⟩) s.source s.rdata s t

/-- R144. -/
def Obligations.WbitAppendsOneBit : Prop :=
  decode 0x00000002#32 = .ok .bsWbit ∧ ∀ s : State,
    (s.sink = none → ∃ t, exec .bsWbit s = .next t ∧ FailedPlain .illegalCommand s t) ∧
    ∀ k, s.sink = some k → sinkWf k = true →
      (8 * s.cfg.bufCap < 8 * k.bytes.length + k.nb + 1 →
        ∃ t, exec .bsWbit s = .next t ∧ FailedPlain .resourceExhausted s t) ∧
      (8 * k.bytes.length + k.nb + 1 ≤ 8 * s.cfg.bufCap →
        ∃ t k', exec .bsWbit s = .next t ∧ SucceededPlain (some k') s.source s.rdata s t ∧ sinkWf k' = true
          ∧ sinkBits k' = sinkBits k ++ [s.wdata.getLsbD 0])

/-- R145. -/
def Obligations.WbitsAppendsTheLowBits : Prop :=
  ∀ (s : State) (n : BitVec 8), n.toNat ≤ 64 →
    decode (0x00000003#32 ||| n.setWidth 32 <<< 8) = .ok (.bsWbits n) ∧
    (s.sink = none → ∃ t, exec (.bsWbits n) s = .next t ∧ FailedPlain .illegalCommand s t) ∧
    ∀ k, s.sink = some k → sinkWf k = true →
      (8 * s.cfg.bufCap < 8 * k.bytes.length + k.nb + n.toNat →
        ∃ t, exec (.bsWbits n) s = .next t ∧ FailedPlain .resourceExhausted s t) ∧
      (8 * k.bytes.length + k.nb + n.toNat ≤ 8 * s.cfg.bufCap →
        ∃ t k', exec (.bsWbits n) s = .next t ∧ SucceededPlain (some k') s.source s.rdata s t ∧ sinkWf k' = true
          ∧ sinkBits k' = sinkBits k ++ (List.range n.toNat).map fun j => s.wdata.getLsbD (n.toNat - 1 - j))

/-- R146, R134. -/
def Obligations.FinishDeliversThePaddedBits : Prop :=
  decode 0x00000004#32 = .ok .bsFinish ∧ ∀ s : State,
    (s.sink = none → ∃ t, exec .bsFinish s = .next t ∧ FailedPlain .illegalCommand s t) ∧
    ∀ k, s.sink = some k → sinkWf k = true → s.cfg.ok = true → k.bitCount ≤ 8 * s.cfg.bufCap →
      ∃ t, exec .bsFinish s = .next t ∧ CompletedWith none 0 s t ∧ KeepsHostSide s t ∧ t.rdata = s.rdata
        ∧ t.sink = none ∧ t.source = s.source ∧ t.olen.toNat = (k.bitCount + 7) / 8
        ∧ LaysOut (outputBytes t) (sinkBits k)

/-- R147. -/
def Obligations.RopenOpensAFreshSource : Prop :=
  decode 0x00000005#32 = .ok .bsRopen ∧ ∀ s : State,
    (s.cfg.bufCap < s.ilen.toNat → ∃ t, exec .bsRopen s = .next t ∧ FailedPlain .illegalCommand s t) ∧
    (s.ilen.toNat ≤ s.cfg.bufCap →
      ∃ t, exec .bsRopen s = .next t ∧ SucceededPlain s.sink (some ⟨s.ilen.toNat, 0⟩) s.rdata s t)

/-- R148: the bit is the one IBUF holds at the time of the read. -/
def Obligations.RbitReadsTheNextBit : Prop :=
  decode 0x00000006#32 = .ok .bsRbit ∧ ∀ s : State,
    (s.source = none → ∃ t, exec .bsRbit s = .next t ∧ FailedPlain .illegalCommand s t) ∧
    ∀ r, s.source = some r →
      (8 * r.len ≤ r.pos → ∃ t, exec .bsRbit s = .next t ∧ FailedPlain .endOfStream s t) ∧
      (r.pos < 8 * r.len →
        ∃ t v, exec .bsRbit s = .next t ∧ SucceededPlain s.sink (some ⟨r.len, r.pos + 1⟩) v s t
          ∧ v.toNat = (s.ibuf.read (r.pos / 8)).toNat / 2 ^ (7 - r.pos % 8) % 2)

/-- R149: bit `j` of `RDATA` is bit position `pos + n - 1 - j` of the stream; the bits above are 0. -/
def Obligations.RbitsReadsTheNextBits : Prop :=
  ∀ (s : State) (n : BitVec 8), n.toNat ≤ 64 →
    decode (0x00000007#32 ||| n.setWidth 32 <<< 8) = .ok (.bsRbits n) ∧
    (s.source = none → ∃ t, exec (.bsRbits n) s = .next t ∧ FailedPlain .illegalCommand s t) ∧
    ∀ r, s.source = some r →
      (8 * r.len < r.pos + n.toNat → ∃ t, exec (.bsRbits n) s = .next t ∧ FailedPlain .endOfStream s t) ∧
      (r.pos + n.toNat ≤ 8 * r.len →
        ∃ t v, exec (.bsRbits n) s = .next t ∧ SucceededPlain s.sink (some ⟨r.len, r.pos + n.toNat⟩) v s t
          ∧ ∀ j, v.getLsbD j = if j < n.toNat then
              (s.ibuf.read ((r.pos + n.toNat - 1 - j) / 8)).getLsbD (7 - (r.pos + n.toNat - 1 - j) % 8)
            else false)

/-- R150, R139. -/
def Obligations.AtendTellsWhetherABitRemains : Prop :=
  decode 0x00000008#32 = .ok .bsAtend ∧ ∀ s : State,
    (s.source = none → ∃ t, exec .bsAtend s = .next t ∧ FailedPlain .illegalCommand s t) ∧
    ∀ r, s.source = some r →
      ∃ t, exec .bsAtend s = .next t
        ∧ SucceededPlain s.sink s.source (if r.pos = 8 * r.len then 1 else 0) s t

/-- R142: a sink given fields and finished, a source over its bytes gives them back, and what remains is the
padding, all zero. -/
def Obligations.WrittenFieldsReadBack : Prop :=
  ∀ fields : List (Word64 × Nat), (∀ f ∈ fields, f.2 ≤ 64) →
    ∃ r, readFields (dataOf (writeFields ⟨[], 0, 0⟩ fields).finish) ⟨(writeFields ⟨[], 0, 0⟩ fields).finish.length, 0⟩
          (fields.map Prod.snd)
        = .ok (fields.map fun f => BitVec.ofNat 64 (f.1.toNat % 2 ^ f.2), r)
      ∧ r.pos = (fields.map Prod.snd).sum
      ∧ 8 * r.len - r.pos = (8 - (fields.map Prod.snd).sum % 8) % 8
      ∧ (bitsOf (writeFields ⟨[], 0, 0⟩ fields).finish).drop r.pos = List.replicate (8 * r.len - r.pos) false

/-! ### The class 1 wrapper -/

/-- R355: the state after a successful codec command. -/
def Obligations.CodecSuccessDeliversTheResult : Prop :=
  ∀ (i : Instr) (f : List Byte → Except Failure (List Byte)) (s : State) (out : List Byte),
    codecFunction i = some f → s.cfg.ok = true → s.ilen.toNat ≤ s.cfg.bufCap →
    f (inputBytes s) = .ok out → out.length ≤ s.cfg.bufCap →
    ∃ t, exec i s = .next t ∧ Delivered out s t

/-- R356, R353: the state after a codec command whose function failed, or whose result does not fit. -/
def Obligations.CodecFailureLeavesNoOutput : Prop :=
  ∀ (i : Instr) (f : List Byte → Except Failure (List Byte)) (s : State), codecFunction i = some f →
    s.ilen.toNat ≤ s.cfg.bufCap →
    (∀ e, f (inputBytes s) = .error e → ∃ t, exec i s = .next t ∧ FailedClass1 e 0 s t) ∧
    (∀ out, f (inputBytes s) = .ok out → s.cfg.bufCap < out.length →
      ∃ t, exec i s = .next t ∧ FailedClass1 .resourceExhausted 0 s t)

/-- R25, R351: every class 1 command is illegal when `ILEN` exceeds the capacity, and nothing but `STATUS`
changes. -/
def Obligations.OverlongInputIsIllegal : Prop :=
  ∀ (i : Instr) (s : State), isClass1 i = true → s.cfg.bufCap < s.ilen.toNat →
    ∃ t, exec i s = .next t ∧ FailedPlain .illegalCommand s t

/-- R68: the encoders of columns, and `DODF.DEC`, refuse a length that is no multiple of the element width,
whatever the bytes are. -/
def Obligations.WrongColumnLengthIsMalformed : Prop :=
  ∀ (i : Instr) (s : State), s.ilen.toNat ≤ s.cfg.bufCap →
    ((i = .deltaEnc ∨ i = .dodEnc ∨ i = .dodfEnc ∨ i = .grEnc ∨ i = .bpEnc ∨ i = .dodfDec) →
      s.ilen.toNat % 8 ≠ 0 → ∃ t, exec i s = .next t ∧ FailedClass1 .malformedInput 0 s t) ∧
    ((i = .xorfEnc ∨ i = .chimpEnc) →
      s.ilen.toNat % 4 ≠ 0 → ∃ t, exec i s = .next t ∧ FailedClass1 .malformedInput 0 s t)

/-! ### Pipelines -/

/-- R327, R98: the legal descriptors are the ones the engine finds stages in, as many as `NST` says; under any
other a pipeline command changes nothing but `STATUS`. R97, R329: stage `j` is the unit whose number the field `S_j`
holds, and a stage runs the functions of the commands `0x10 + n` and `0x90 + n` of the unit `n`. -/
def Obligations.DescriptorCheck : Prop :=
  (∀ p : Word32, legalDescriptor p ↔ ∃ us, pipeStages p = some us ∧ us.length = p.toNat / 4096 % 4) ∧
  (∀ (p : Word32) (us : List CodecUnit), pipeStages p = some us →
    ∀ j u, us[j]? = some u → unitNumber u = p.toNat / 16 ^ j % 16) ∧
  (∀ u : CodecUnit, ∃ i i', decode (BitVec.ofNat 32 (0x10 + unitNumber u)) = .ok i ∧ codecFunction i = some (unitEnc u)
    ∧ decode (BitVec.ofNat 32 (0x90 + unitNumber u)) = .ok i' ∧ codecFunction i' = some (unitDec u)) ∧
  ∀ (i : Instr) (s : State), (i = .pipeEnc ∨ i = .pipeDec) → s.ilen.toNat ≤ s.cfg.bufCap →
    ¬ legalDescriptor s.pipe → ∃ t, exec i s = .next t ∧ FailedPlain .illegalCommand s t

/-- R330: `PIPE.ENC` chains the encoders in descriptor order; the first stage that fails, or whose result does
not fit, fails the command with its position. -/
def Obligations.PipeEncChainsTheEncoders : Prop :=
  ∀ (s : State) (us : List CodecUnit), s.cfg.ok = true → s.ilen.toNat ≤ s.cfg.bufCap → pipeStages s.pipe = some us →
    (∀ out, Chain unitEnc s.cfg.bufCap us (inputBytes s) out →
      ∃ t, exec .pipeEnc s = .next t ∧ Delivered out s t) ∧
    ∀ us1 u us2 b, us = us1 ++ u :: us2 → Chain unitEnc s.cfg.bufCap us1 (inputBytes s) b →
      (∀ e, unitEnc u b = .error e →
        ∃ t, exec .pipeEnc s = .next t ∧ FailedClass1 e (BitVec.ofNat 2 us1.length) s t) ∧
      (∀ r, unitEnc u b = .ok r → s.cfg.bufCap < r.length →
        ∃ t, exec .pipeEnc s = .next t ∧ FailedClass1 .resourceExhausted (BitVec.ofNat 2 us1.length) s t)

/-- R331: `PIPE.DEC` chains the decoders in the reverse order; a stage that fails is named by its position in
the descriptor. -/
def Obligations.PipeDecChainsTheDecodersBackwards : Prop :=
  ∀ (s : State) (us : List CodecUnit), s.cfg.ok = true → s.ilen.toNat ≤ s.cfg.bufCap → pipeStages s.pipe = some us →
    (∀ out, Chain unitDec s.cfg.bufCap us.reverse (inputBytes s) out →
      ∃ t, exec .pipeDec s = .next t ∧ Delivered out s t) ∧
    ∀ us1 u us2 b, us = us1 ++ u :: us2 → Chain unitDec s.cfg.bufCap us2.reverse (inputBytes s) b →
      (∀ e, unitDec u b = .error e →
        ∃ t, exec .pipeDec s = .next t ∧ FailedClass1 e (BitVec.ofNat 2 us1.length) s t) ∧
      (∀ r, unitDec u b = .ok r → s.cfg.bufCap < r.length →
        ∃ t, exec .pipeDec s = .next t ∧ FailedClass1 .resourceExhausted (BitVec.ofNat 2 us1.length) s t)

/-- R335: a pipeline decodes what it encoded. -/
def Obligations.PipelineRoundTrip : Prop :=
  ∀ s t s' : State, s.cfg.ok = true → exec .pipeEnc s = .next t → t.err = none →
    s'.cfg = s.cfg → s'.pipe = s.pipe → inputBytes s' = outputBytes t →
    ∃ t', exec .pipeDec s' = .next t' ∧ Delivered (inputBytes s) s' t'

/-! ### Zigzag and varint -/

/-- R160, R161: the values of `zigzag`, and that the two maps are inverse. -/
def Obligations.ZigzagIsABijection : Prop :=
  (∀ v : Word64, ((zigzag v).toNat : Int) = if 0 ≤ v.toInt then 2 * v.toInt else -2 * v.toInt - 1) ∧
  (∀ v : Word64, unzigzag (zigzag v) = v) ∧ ∀ u : Word64, zigzag (unzigzag u) = u

/-- R162, R111: a varint carries the zigzag value in 7-bit groups, every byte but the last marked, no
redundant group. -/
def Obligations.VarintIsCanonical : Prop :=
  ∀ v : Word64, groupsValue (varintEnc v) = (zigzag v).toNat ∧
    1 ≤ (varintEnc v).length ∧ (varintEnc v).length ≤ 10 ∧
    (∀ i b, (varintEnc v)[i]? = some b → (128 ≤ b.toNat ↔ i + 1 < (varintEnc v).length)) ∧
    (1 < (varintEnc v).length → 2 ^ (7 * ((varintEnc v).length - 1)) ≤ (zigzag v).toNat)

/-- R163: what the varint decoder answers on every byte sequence, from every offset: `pre` are marked bytes. -/
def Obligations.VarintDecoderAnswers : Prop :=
  (∀ (bytes : List Byte) (off : Nat), bytes.length ≤ off → varintDec bytes off = .error .truncatedStream) ∧
  ∀ before pre : List Byte, (∀ b ∈ pre, 128 ≤ b.toNat) →
    (pre.length ≤ 9 → varintDec (before ++ pre) before.length = .error .truncatedStream) ∧
    ∀ (b : Byte) (rest : List Byte),
      (pre.length = 9 → 2 ≤ b.toNat →
        varintDec (before ++ pre ++ b :: rest) before.length = .error .malformedInput) ∧
      (pre.length ≤ 9 → b.toNat < 128 → (pre.length = 9 → b.toNat ≤ 1) →
        varintDec (before ++ pre ++ b :: rest) before.length
          = .ok (unzigzag (BitVec.ofNat 64 (groupsValue (pre ++ [b]))), pre.length + 1))

/-- R164. -/
def Obligations.VarintRoundTrip : Prop :=
  ∀ (v : Word64) (rest : List Byte), varintDec (varintEnc v ++ rest) 0 = .ok (v, (varintEnc v).length)

/-! ### DELTA, DOD, DODF -/

/-- R166, R112, and R66: a column is laid out element after element, each big-endian. -/
def Obligations.DeltaEncWritesTheStream : Prop :=
  (∀ vs : List Word64, bitsOf (bytesOf64 vs) = vs.flatMap fun v => fieldBits v 64) ∧
  ∀ (s : State) (vs : List Word64), s.cfg.ok = true → s.ilen.toNat ≤ s.cfg.bufCap → inputBytes s = bytesOf64 vs →
    (deltaStream vs).length ≤ s.cfg.bufCap →
    ∃ t, exec .deltaEnc s = .next t ∧ Delivered (deltaStream vs) s t

/-- R168, R169: `DELTA.DEC` gives back the column of a DELTA stream, and what it answers on every other input: the
values are the running sums of the varints from the raw first value on. -/
def Obligations.DeltaDecInvertsDeltaEnc : Prop :=
  VarintStreamAnswers .deltaDec (fun v0 ds => List.scanl (· + ·) v0 ds) ∧
  ∀ (s : State) (vs : List Word64), s.cfg.ok = true → s.ilen.toNat ≤ s.cfg.bufCap →
    inputBytes s = deltaStream vs → (bytesOf64 vs).length ≤ s.cfg.bufCap →
    ∃ t, exec .deltaDec s = .next t ∧ Delivered (bytesOf64 vs) s t

/-- R172, R113. -/
def Obligations.DodEncWritesTheStream : Prop :=
  ∀ (s : State) (vs : List Word64), s.cfg.ok = true → s.ilen.toNat ≤ s.cfg.bufCap → inputBytes s = bytesOf64 vs →
    (dodStream vs).length ≤ s.cfg.bufCap →
    ∃ t, exec .dodEnc s = .next t ∧ Delivered (dodStream vs) s t

/-- R174, R175: `DOD.DEC` gives back the column of a DOD stream, and what it answers on every other input: the
differences are the running sums of the varints from 0 on, the values those of the differences. -/
def Obligations.DodDecInvertsDodEnc : Prop :=
  VarintStreamAnswers .dodDec (fun v0 xs => List.scanl (· + ·) v0 (List.scanl (· + ·) 0 xs).tail) ∧
  ∀ (s : State) (vs : List Word64), s.cfg.ok = true → s.ilen.toNat ≤ s.cfg.bufCap →
    inputBytes s = dodStream vs → (bytesOf64 vs).length ≤ s.cfg.bufCap →
    ∃ t, exec .dodDec s = .next t ∧ Delivered (bytesOf64 vs) s t

/-- R178, R179, R180: the filter writes the zigzagged terms, never exhausts the capacity, and is a bijection
on columns. -/
def Obligations.DodfIsABijectionOnColumns : Prop :=
  ∀ (s : State) (vs : List Word64), s.cfg.ok = true → s.ilen.toNat ≤ s.cfg.bufCap →
    (inputBytes s = bytesOf64 vs → ∃ t, exec .dodfEnc s = .next t ∧ Delivered (dodfStream vs) s t) ∧
    (inputBytes s = dodfStream vs → ∃ t, exec .dodfDec s = .next t ∧ Delivered (bytesOf64 vs) s t) ∧
    (inputBytes s = bytesOf64 vs → ∃ t out, exec .dodfDec s = .next t ∧ Delivered out s t ∧
      dodfEnc out = .ok (bytesOf64 vs))

/-- R169, R175, R206, R225: a column of `n >= 1` equal elements: DELTA and DOD give the raw bytes and `n - 1`
zero bytes, XORF and CHIMP count, pattern, and `n - 1` zero bits padded. -/
def Obligations.ConstantColumnsEncodeShort : Prop :=
  ∀ (s : State) (n : Nat), s.cfg.ok = true → s.ilen.toNat ≤ s.cfg.bufCap →
    (∀ v : Word64, inputBytes s = bytesOf64 (List.replicate (n + 1) v) → ∀ i, (i = .deltaEnc ∨ i = .dodEnc) →
      ∃ t, exec i s = .next t ∧ Delivered (bytesBe64 v ++ List.replicate n 0) s t) ∧
    (∀ p : Word32, inputBytes s = bytesOf32 (List.replicate (n + 1) p) → ∀ i, (i = .xorfEnc ∨ i = .chimpEnc) →
      8 + (n + 7) / 8 ≤ s.cfg.bufCap →
      ∃ t, exec i s = .next t
        ∧ Delivered (bytesBe32 (BitVec.ofNat 32 (n + 1)) ++ bytesBe32 p ++ List.replicate ((n + 7) / 8) 0) s t)

/-! ### XORF, CHIMP -/

/-- R202, R115: the stream of `XORF.ENC`, bit by bit; R13: the counts of zeros in it; R66: a column of patterns is
laid out pattern after pattern, each big-endian. -/
def Obligations.XorfEncWritesTheStream : Prop :=
  CountsZeros ∧ (∀ ps : List Word32, bitsOf (bytesOf32 ps) = ps.flatMap fun p => fieldBits (p.setWidth 64) 32) ∧
  ∀ (s : State) (ps : List Word32), s.cfg.ok = true → s.ilen.toNat ≤ s.cfg.bufCap → inputBytes s = bytesOf32 ps →
    (floatBits (fun p => xorfBits p none) ps).length ≤ 8 * s.cfg.bufCap →
    ∃ t out, exec .xorfEnc s = .next t ∧ Delivered out s t ∧ LaysOut out (floatBits (fun p => xorfBits p none) ps)

/-- R208, R210: `XORF.DEC` gives back the column, and what it answers on every input: a reference stands for the
last new window. -/
def Obligations.XorfRoundTrip : Prop :=
  FloatStreamAnswers .xorfDec 0 (fun st _ => st.getLast?) ∧
  ∀ (s : State) (b out : List Byte), s.cfg.ok = true → s.ilen.toNat ≤ s.cfg.bufCap → b.length ≤ s.cfg.bufCap →
    xorfEnc b = .ok out → inputBytes s = out → ∃ t, exec .xorfDec s = .next t ∧ Delivered b s t

/-- R217 to R219, R116: the stream of `CHIMP.ENC`, bit by bit; R13: the counts of zeros in it; R66: a column of
patterns is laid out pattern after pattern, each big-endian. -/
def Obligations.ChimpEncWritesTheStream : Prop :=
  CountsZeros ∧ (∀ ps : List Word32, bitsOf (bytesOf32 ps) = ps.flatMap fun p => fieldBits (p.setWidth 64) 32) ∧
  ∀ (s : State) (ps : List Word32), s.cfg.ok = true → s.ilen.toNat ≤ s.cfg.bufCap → inputBytes s = bytesOf32 ps →
    (floatBits (fun p => chimpBits p []) ps).length ≤ 8 * s.cfg.bufCap →
    ∃ t out, exec .chimpEnc s = .next t ∧ Delivered out s t ∧ LaysOut out (floatBits (fun p => chimpBits p []) ps)

/-- R223, R225: `CHIMP.DEC` gives back the column, history references and all, and what it answers on every input:
a reference is the 7-bit number of a slot of the history. -/
def Obligations.ChimpRoundTrip : Prop :=
  FloatStreamAnswers .chimpDec 7 ringSlot ∧
  ∀ (s : State) (b out : List Byte), s.cfg.ok = true → s.ilen.toNat ≤ s.cfg.bufCap → b.length ≤ s.cfg.bufCap →
    chimpEnc b = .ok out → inputBytes s = out → ∃ t, exec .chimpDec s = .next t ∧ Delivered b s t

/-! ### HUFF -/

/-- R249, R117, R241, R247: the stream of `HUFF.ENC` for any input: the ascending table of counts (which the input
determines), the number of bytes, the codes by the table's tree. -/
def Obligations.HuffEncWritesTheStream : Prop :=
  ∀ (s : State), s.cfg.ok = true → s.ilen.toNat ≤ s.cfg.bufCap →
    ∃ t : List (Byte × Nat), AscendingTable t ∧
      (∀ b n, (b, n) ∈ t ↔ n = (inputBytes s).count b ∧ 0 < n) ∧
      (t ≠ [] → ∃ root, buildTree t = some root ∧ ∀ b, huffCode t b = codeOf (codeTable root) b) ∧
      (t.length = 1 → ∀ e ∈ t, huffCode t e.1 = [false]) ∧
      (∀ b ∈ inputBytes s, ∀ b' ∈ inputBytes s, huffCode t b <+: huffCode t b' → b = b') ∧
      ((huffBits t (huffCode t) (inputBytes s)).length ≤ 8 * s.cfg.bufCap →
        ∃ u out, exec .huffEnc s = .next u ∧ Delivered out s u ∧
          LaysOut out (huffBits t (huffCode t) (inputBytes s))) ∧
      (8 * s.cfg.bufCap < (huffBits t (huffCode t) (inputBytes s)).length →
        ∃ u, exec .huffEnc s = .next u ∧ FailedClass1 .resourceExhausted 0 s u)

/-- R243 to R248: `popMin` takes a least node by frequency, then by sequence number; the tree of a table is made by
the merging of R245 from the leaves numbered by rank, the new nodes numbered on from `k`, the first popped to the
left. It has exactly the table's bytes as leaves and the sum of the counts at the root. Each code leads from the root
to its byte, `0` to the left, has 1 to `k - 1` bits (`k = 1`: it is `0`), and is the prefix of no other. -/
def Obligations.HuffmanTreeCodesTheTable : Prop :=
  (∀ (q rest : List HuffTree) (a : HuffTree), popMin q = some (a, rest) → (a :: rest).Perm q ∧
    ∀ b ∈ rest, treeFreq a < treeFreq b ∨ (treeFreq a = treeFreq b ∧ treeSeq a ≤ treeSeq b)) ∧
  ∀ t : List (Byte × Nat), AscendingTable t → t ≠ [] →
    ∃ root, buildTree t = some root ∧ Merges t.length (tableLeaves t) root ∧
      treeFreq root = (t.map Prod.snd).sum ∧
      ((codeTable root).map Prod.fst).Perm (t.map Prod.fst) ∧
      (∀ e ∈ codeTable root, codeOf (codeTable root) e.1 = e.2 ∧ (t.length = 1 → e.2 = [false]) ∧
        (2 ≤ t.length → leafAt root e.2 = some e.1 ∧ 1 ≤ e.2.length ∧ e.2.length ≤ t.length - 1)) ∧
      ∀ e ∈ codeTable root, ∀ e' ∈ codeTable root, e.2 <+: e'.2 → e = e'

/-- R254, R258: `HUFF.DEC` gives back the bytes, and what it answers on every input: the table size, the first entry
after a rising table with positive counts that is cut, does not rise or has the count 0, the total, and then the
first item after whole codes that is cut or (one byte value) is no code; what follows the last code is ignored. -/
def Obligations.HuffRoundTrip : Prop :=
  (∀ s : State, s.cfg.ok = true → s.ilen.toNat ≤ s.cfg.bufCap →
    (s.ilen.toNat < 2 → ∃ u, exec .huffDec s = .next u ∧ FailedClass1 .truncatedStream 0 s u) ∧
    ∀ (hi lo : Byte) (after : List Byte), inputBytes s = hi :: lo :: after →
      (256 < 256 * hi.toNat + lo.toNat → ∃ u, exec .huffDec s = .next u ∧ FailedClass1 .malformedInput 0 s u) ∧
      ∀ (t : List (Byte × Nat)) (rest : List Byte), 256 * hi.toNat + lo.toNat ≤ 256 → AscendingTable t →
        (∀ e ∈ t, e.2 < 2 ^ 32) → after = entryBytes t ++ rest →
        (t.length < 256 * hi.toNat + lo.toNat →
          (rest.length < 5 → ∃ u, exec .huffDec s = .next u ∧ FailedClass1 .truncatedStream 0 s u) ∧
          ∀ (b : Byte) (f : Word32) (more : List Byte), rest = b :: bytesBe32 f ++ more →
            (f = 0 ∨ ∃ e ∈ t, b.toNat ≤ e.1.toNat) →
            ∃ u, exec .huffDec s = .next u ∧ FailedClass1 .malformedInput 0 s u) ∧
        (t.length = 256 * hi.toNat + lo.toNat →
          (rest.length < 4 → ∃ u, exec .huffDec s = .next u ∧ FailedClass1 .truncatedStream 0 s u) ∧
          ∀ (len : Word32) (body : List Byte), rest = bytesBe32 len ++ body →
            ((t.map Prod.snd).sum ≠ len.toNat →
              ∃ u, exec .huffDec s = .next u ∧ FailedClass1 .malformedInput 0 s u) ∧
            ∀ (out : List Byte) (post : List Bool), (t.map Prod.snd).sum = len.toNat →
              (∀ b ∈ out, b ∈ t.map Prod.fst) → bitsOf body = out.flatMap (huffCode t) ++ post →
              (out.length = len.toNat → out.length ≤ s.cfg.bufCap →
                ∃ u, exec .huffDec s = .next u ∧ Delivered out s u) ∧
              (out.length = len.toNat → s.cfg.bufCap < out.length →
                ∃ u, exec .huffDec s = .next u ∧ FailedClass1 .resourceExhausted 0 s u) ∧
              (out.length < len.toNat → (∃ b ∈ t.map Prod.fst, post <+: huffCode t b ∧ post ≠ huffCode t b) →
                ∃ u, exec .huffDec s = .next u ∧ FailedClass1 .truncatedStream 0 s u) ∧
              (out.length < len.toNat → t.length = 1 → post.head? = some true →
                ∃ u, exec .huffDec s = .next u ∧ FailedClass1 .malformedInput 0 s u))) ∧
  ∀ (s : State) (b out : List Byte), s.cfg.ok = true → s.ilen.toNat ≤ s.cfg.bufCap → b.length ≤ s.cfg.bufCap →
    huffEnc b = .ok out → inputBytes s = out → ∃ t, exec .huffDec s = .next t ∧ Delivered b s t

/-! ### GR, BP -/

/-- R281, R282: the domain of `GR.ENC` and its stream. -/
def Obligations.GrEncWritesTheStreamOnItsDomain : Prop :=
  ∀ (s : State) (vs : List Word64), s.cfg.ok = true → s.ilen.toNat ≤ s.cfg.bufCap → inputBytes s = bytesOf64 vs →
    ((∃ v ∈ vs, v.toInt < 0 ∨ 2047 < v.toInt) →
      ∃ t, exec .grEnc s = .next t ∧ FailedClass1 .unsupportedValue 0 s t) ∧
    ((∀ v ∈ vs, 0 ≤ v.toInt ∧ v.toInt ≤ 2047) →
      (fieldBits (BitVec.ofNat 64 vs.length) 32 ++ vs.flatMap grBits).length ≤ 8 * s.cfg.bufCap →
      ∃ t out, exec .grEnc s = .next t ∧ Delivered out s t
        ∧ LaysOut out (fieldBits (BitVec.ofNat 64 vs.length) 32 ++ vs.flatMap grBits))

/-- R285, R287: `GR.DEC` gives back the column, and what it answers on every input: the first item after whole codes
that has 256 ones or is cut decides; what follows the last code is ignored. -/
def Obligations.GrRoundTrip : Prop :=
  (∀ s : State, s.cfg.ok = true → s.ilen.toNat ≤ s.cfg.bufCap →
    (s.ilen.toNat < 4 → ∃ t, exec .grDec s = .next t ∧ FailedClass1 .truncatedStream 0 s t) ∧
    ∀ (n : Word32) (body : List Byte) (vs : List Word64) (post : List Bool), inputBytes s = bytesBe32 n ++ body →
      (∀ v ∈ vs, v.toNat ≤ 2047) → bitsOf body = vs.flatMap grBits ++ post →
      (vs.length = n.toNat → 8 * n.toNat ≤ s.cfg.bufCap →
        ∃ t, exec .grDec s = .next t ∧ Delivered (bytesOf64 vs) s t) ∧
      (vs.length = n.toNat → s.cfg.bufCap < 8 * n.toNat →
        ∃ t, exec .grDec s = .next t ∧ FailedClass1 .resourceExhausted 0 s t) ∧
      (vs.length < n.toNat → List.replicate 256 true <+: post →
        ∃ t, exec .grDec s = .next t ∧ FailedClass1 .malformedInput 0 s t) ∧
      ∀ q, q ≤ 255 → vs.length < n.toNat →
        (post = List.replicate q true ∨ ∃ c, c.length < 3 ∧ post = List.replicate q true ++ false :: c) →
        ∃ t, exec .grDec s = .next t ∧ FailedClass1 .truncatedStream 0 s t) ∧
  ∀ (s : State) (b out : List Byte), s.cfg.ok = true → s.ilen.toNat ≤ s.cfg.bufCap → b.length ≤ s.cfg.bufCap →
    grEnc b = .ok out → inputBytes s = out → ∃ t, exec .grDec s = .next t ∧ Delivered b s t

/-- R291, R292: `BP.ENC` refuses a negative element, and else packs with the least width, at least 1, that
holds every element. -/
def Obligations.BpEncPacksWithTheLeastWidth : Prop :=
  ∀ (s : State) (vs : List Word64), s.cfg.ok = true → s.ilen.toNat ≤ s.cfg.bufCap → inputBytes s = bytesOf64 vs →
    ((∃ v ∈ vs, v.toInt < 0) → ∃ t, exec .bpEnc s = .next t ∧ FailedClass1 .unsupportedValue 0 s t) ∧
    ((∀ v ∈ vs, 0 ≤ v.toInt) → ∀ w, 1 ≤ w → (∀ v ∈ vs, v.toNat < 2 ^ w) →
      (w = 1 ∨ ∃ v ∈ vs, 2 ^ (w - 1) ≤ v.toNat) → (bpBits w vs).length ≤ 8 * s.cfg.bufCap →
      ∃ t out, exec .bpEnc s = .next t ∧ Delivered out s t ∧ LaysOut out (bpBits w vs))

/-- R295: what `BP.DEC` answers: fewer than 5 bytes are truncated; with count `n` and width `w`, an illegal width
is refused before the body is looked at, a body too short is truncated, and else the fields are the values;
data after them is ignored. -/
def Obligations.BpDecReadsTheFields : Prop :=
  decode 0x00000097#32 = .ok .bpDec ∧ ∀ s : State, s.cfg.ok = true → s.ilen.toNat ≤ s.cfg.bufCap →
    (s.ilen.toNat < 5 → ∃ t, exec .bpDec s = .next t ∧ FailedClass1 .truncatedStream 0 s t) ∧
    ∀ (n : Word32) (w : Byte) (body : List Byte), inputBytes s = bytesBe32 n ++ w :: body →
      ((w = 0 ∨ 63 < w.toNat) → ∃ t, exec .bpDec s = .next t ∧ FailedClass1 .malformedInput 0 s t) ∧
      (1 ≤ w.toNat → w.toNat ≤ 63 → 8 * body.length < n.toNat * w.toNat →
        ∃ t, exec .bpDec s = .next t ∧ FailedClass1 .truncatedStream 0 s t) ∧
      (1 ≤ w.toNat → w.toNat ≤ 63 → ∀ (vs : List Word64) (post : List Bool), vs.length = n.toNat →
        (∀ v ∈ vs, v.toNat < 2 ^ w.toNat) →
        bitsOf body = (vs.flatMap fun v => fieldBits v w.toNat) ++ post → 8 * n.toNat ≤ s.cfg.bufCap →
        ∃ t, exec .bpDec s = .next t ∧ Delivered (bytesOf64 vs) s t)

/-! ### RLE -/

/-- R311: a run of `n` equal bytes gives `n / 255` pairs of 255 and one pair of the remainder, if any. -/
def Obligations.RleEncSplitsLongRuns : Prop :=
  ∀ (s : State) (b : Byte) (n : Nat), s.cfg.ok = true → s.ilen.toNat ≤ s.cfg.bufCap →
    inputBytes s = List.replicate n b →
    2 * ((n + 254) / 255) ≤ s.cfg.bufCap →
    ∃ t, exec .rleEnc s = .next t
      ∧ Delivered ((List.replicate (n / 255) [b, 255#8]).flatten
          ++ if n % 255 = 0 then [] else [b, BitVec.ofNat 8 (n % 255)]) s t

/-- R313: what `RLE.DEC` answers on every input. -/
def Obligations.RleDecExpandsThePairs : Prop :=
  decode 0x00000098#32 = .ok .rleDec ∧ ∀ (s : State), s.cfg.ok = true → s.ilen.toNat ≤ s.cfg.bufCap →
    (s.ilen.toNat % 2 ≠ 0 → ∃ t, exec .rleDec s = .next t ∧ FailedClass1 .truncatedStream 0 s t) ∧
    ∀ ps : List (Byte × Byte), inputBytes s = pairBytes ps →
      ((∃ p ∈ ps, p.2 = 0) → ∃ t, exec .rleDec s = .next t ∧ FailedClass1 .malformedInput 0 s t) ∧
      ((∀ p ∈ ps, p.2 ≠ 0) → (ps.map fun p => p.2.toNat).sum ≤ s.cfg.bufCap →
        ∃ t, exec .rleDec s = .next t ∧ Delivered (ps.flatMap fun p => List.replicate p.2.toNat p.1) s t)

/-- R315: `RLE.ENC` on any input writes pairs with counts 1 to 255, no two adjacent ones of one byte unless
the first is full, and `RLE.DEC` gives the input back. -/
def Obligations.RleRoundTrip : Prop :=
  ∀ (s : State), s.cfg.ok = true → s.ilen.toNat ≤ s.cfg.bufCap →
    ∃ ps : List (Byte × Byte), (∀ p ∈ ps, p.2 ≠ 0) ∧
      (∀ j p q, ps[j]? = some p → ps[j + 1]? = some q → p.1 = q.1 → p.2 = 255) ∧
      ps.flatMap (fun p => List.replicate p.2.toNat p.1) = inputBytes s ∧
      (2 * ps.length ≤ s.cfg.bufCap →
        ∃ t, exec .rleEnc s = .next t ∧ Delivered (pairBytes ps) s t ∧
          ∀ s', s'.cfg = s.cfg → inputBytes s' = pairBytes ps →
            ∃ t', exec .rleDec s' = .next t' ∧ Delivered (inputBytes s) s' t')
end

