-- ==== Sys2Proof/Laws/Bits.lean ====
section
/-! SUPPORT. The laws of the sink and the source: a sink holds exactly the bits written to it, and a source
over its bytes gives them back (40_bitstream.md R130 to R142). -/

namespace Sys2Proof.Machine

/-! ### Bit strings -/

@[simp] theorem byteBits_length (b : Byte) : (byteBits b).length = 8 := rfl

@[simp] theorem bitsOf_nil : bitsOf [] = [] := rfl

@[simp] theorem bitsOf_length (bs : List Byte) : (bitsOf bs).length = 8 * bs.length := by
  induction bs with
  | nil => rfl
  | cons b bs ih => simp [bitsOf, ih]; omega

@[simp] theorem bitsOf_append (xs ys : List Byte) : bitsOf (xs ++ ys) = bitsOf xs ++ bitsOf ys := by
  induction xs with
  | nil => rfl
  | cons b bs ih => simp [bitsOf, ih]

@[simp] theorem fieldBits_length (v : Word64) (n : Nat) : (fieldBits v n).length = n := by
  induction n with
  | zero => rfl
  | succ n ih => simp [fieldBits, ih]

theorem bitsValue_append (xs ys : List Bool) :
    bitsValue (xs ++ ys) = bitsValue xs * 2 ^ ys.length + bitsValue ys := by
  induction xs with
  | nil => simp [bitsValue]
  | cons b bs ih => simp [bitsValue, ih, Nat.pow_add]; ring

theorem bitsValue_lt (xs : List Bool) : bitsValue xs < 2 ^ xs.length := by
  induction xs with
  | nil => simp [bitsValue]
  | cons b bs ih =>
    simp only [bitsValue, List.length_cons, Nat.pow_succ]
    cases b <;> simp <;> omega

/-- A field's bits spell the value's `n` low-order bits (R133). -/
theorem bitsValue_fieldBits (v : Word64) (n : Nat) : bitsValue (fieldBits v n) = v.toNat % 2 ^ n := by
  induction n with
  | zero => simp [fieldBits, bitsValue, Nat.mod_one]
  | succ n ih =>
    have h : (v.getLsbD n).toNat = v.toNat / 2 ^ n % 2 := by
      rw [BitVec.getLsbD, Nat.testBit_eq_decide_div_mod_eq]
      rcases Nat.mod_two_eq_zero_or_one (v.toNat / 2 ^ n) with h | h <;> simp [h]
    simp only [fieldBits, bitsValue, fieldBits_length, ih, h]
    rw [Nat.mod_pow_succ]; ring

/-! ### The sink -/

theorem sinkWf_iff (k : Sink) :
    sinkWf k = true ↔ k.nb < 8 ∧ (byteBits k.acc).drop k.nb = List.replicate (8 - k.nb) false := by
  simp [sinkWf]

@[simp] theorem sinkWf_empty : sinkWf Sink.empty = true := by decide
@[simp] theorem sinkBits_empty : sinkBits Sink.empty = [] := rfl

/-- The bits of a partial byte after one more is filled in, where everything below was zero (R132). -/
theorem byteBits_fill (acc : Byte) (n : Nat) (b : Bool) (hn : n < 8)
    (h : (byteBits acc).drop n = List.replicate (8 - n) false) :
    byteBits (acc ||| ((BitVec.ofBool b).setWidth 8 <<< (7 - n)))
      = (byteBits acc).take n ++ b :: List.replicate (7 - n) false := by
  interval_cases n <;> simp [byteBits, List.replicate] at h <;>
    simp [byteBits, List.replicate, h]

/-- `writeBit` appends one bit and keeps the sink's invariant (R132). -/
theorem sinkBits_writeBit {k : Sink} (b : Bool) (h : sinkWf k = true) :
    sinkWf (k.writeBit b) = true ∧ sinkBits (k.writeBit b) = sinkBits k ++ [b] := by
  rw [sinkWf_iff] at h
  obtain ⟨hn, hz⟩ := h
  have hf := byteBits_fill k.acc k.nb b hn hz
  have hl : ((byteBits k.acc).take k.nb).length = k.nb := by simp; omega
  simp only [Sink.writeBit]
  split
  · rename_i h8
    have h7 : k.nb = 7 := by omega
    refine ⟨by simp [sinkWf, byteBits, List.replicate], ?_⟩
    simp only [sinkBits, bitsOf_append, bitsOf, hf, List.take_zero, List.append_nil]
    simp [h7]
  · rename_i h8
    refine ⟨?_, ?_⟩
    · rw [sinkWf_iff]
      refine ⟨by show k.nb + 1 < 8; omega, ?_⟩
      show (byteBits (k.acc ||| _)).drop (k.nb + 1) = _
      rw [hf, List.drop_append, hl, List.drop_of_length_le (by omega)]
      simp [show k.nb + 1 - k.nb = 1 by omega]
    · simp only [sinkBits, hf]
      rw [List.take_append, hl, List.take_of_length_le (by omega)]
      simp [show k.nb + 1 - k.nb = 1 by omega]

/-- `writeBits` appends the field's bits (R133). -/
theorem sinkBits_writeBits {k : Sink} (v : Word64) (n : Nat) (h : sinkWf k = true) :
    sinkWf (k.writeBits v n) = true ∧ sinkBits (k.writeBits v n) = sinkBits k ++ fieldBits v n := by
  induction n generalizing k with
  | zero => simp [Sink.writeBits, fieldBits, h]
  | succ n ih =>
    have h1 := sinkBits_writeBit (v.getLsbD n) h
    have h2 := ih h1.1
    simp only [Sink.writeBits, fieldBits]
    exact ⟨h2.1, by rw [h2.2, h1.2]; simp⟩

/-- A bit string written bit by bit is appended. -/
theorem sinkBits_writeAll {k : Sink} (bs : List Bool) (h : sinkWf k = true) :
    sinkWf (k.writeAll bs) = true ∧ sinkBits (k.writeAll bs) = sinkBits k ++ bs := by
  induction bs generalizing k with
  | nil => simp [Sink.writeAll, h]
  | cons b bs ih =>
    have h1 := sinkBits_writeBit b h
    have h2 := ih h1.1
    simp only [Sink.writeAll]
    exact ⟨h2.1, by rw [h2.2, h1.2]; simp⟩

/-- The count of R33 is the number of bits held. -/
theorem sinkBits_length {k : Sink} (h : sinkWf k = true) : (sinkBits k).length = k.bitCount := by
  rw [sinkWf_iff] at h
  simp [sinkBits, Sink.bitCount]; omega

/-- `finish` lays out the bits and pads the last byte with zeros (R134, R64). -/
theorem bitsOf_finish {k : Sink} (h : sinkWf k = true) :
    bitsOf k.finish = sinkBits k ++ List.replicate ((8 - k.nb) % 8) false := by
  rw [sinkWf_iff] at h
  obtain ⟨hn, hz⟩ := h
  simp only [Sink.finish, sinkBits]
  split
  · rw [bitsOf_append, List.append_assoc, Nat.mod_eq_of_lt (by omega), ← hz]
    simp [bitsOf]
  · rename_i h0
    simp [show k.nb = 0 by omega]

/-- `finish` gives `ceil(L / 8)` bytes (R134). -/
theorem finish_length {k : Sink} (h : sinkWf k = true) : k.finish.length = (k.bitCount + 7) / 8 := by
  rw [sinkWf_iff] at h
  simp only [Sink.finish, Sink.bitCount]
  split
  · rw [List.length_append, List.length_singleton]; omega
  · omega

/-! ### The source -/

/-- The bit at a position is the bit of the stream (R62). -/
theorem bitAt_dataOf (bs : List Byte) (p : Nat) (h : p < 8 * bs.length) :
    (bitsOf bs)[p]? = some (bitAt (dataOf bs) p) := by
  induction bs generalizing p with
  | nil => simp at h
  | cons b bs ih =>
    by_cases hp : p < 8
    · simp only [bitsOf]
      rw [List.getElem?_append_left (by simpa using hp)]
      interval_cases p <;> simp [byteBits, bitAt, dataOf]
    · simp only [bitsOf, List.length_cons] at *
      rw [List.getElem?_append_right (by simpa using hp), byteBits_length, ih (p - 8) (by omega)]
      congr 1
      have h1 : p / 8 = (p - 8) / 8 + 1 := by omega
      have h2 : p % 8 = (p - 8) % 8 := by omega
      simp [bitAt, dataOf, h1, h2]

theorem toNat_shiftIn (v : Word64) (b : Bool) :
    (v <<< 1 ||| (BitVec.ofBool b).setWidth 64).toNat = (v.toNat * 2 + b.toNat) % 2 ^ 64 := by
  have h : (v <<< 1 ||| (BitVec.ofBool b).setWidth 64) = v <<< 1 + (BitVec.ofBool b).setWidth 64 := by
    rw [BitVec.add_eq_or_of_and_eq_zero]
    ext i hi
    cases b <;> simp
    rcases i with _ | i <;> simp
  rw [h]
  cases b <;> simp [BitVec.toNat_add, Nat.shiftLeft_eq]

/-- Gathering `n` bits spells them after what was there (R138). -/
theorem gatherBits_toNat (d : Nat → Byte) (n p : Nat) (v : Word64) (xs : List Bool) (hx : xs.length = n)
    (hd : ∀ i, i < n → xs[i]? = some (bitAt d (p + i))) :
    (gatherBits d n p v).toNat = (v.toNat * 2 ^ n + bitsValue xs) % 2 ^ 64 := by
  induction n generalizing p v xs with
  | zero =>
    have : xs = [] := List.length_eq_zero_iff.mp hx
    subst this
    simp only [gatherBits, bitsValue]
    have := v.isLt
    omega
  | succ n ih =>
    obtain ⟨x, xs, rfl⟩ : ∃ x ys, xs = x :: ys := by
      cases xs with
      | nil => simp at hx
      | cons x ys => exact ⟨x, ys, rfl⟩
    have h0 : x = bitAt d p := by simpa using hd 0 (by omega)
    have hx' : xs.length = n := by simpa using hx
    have := ih (p + 1) (v <<< 1 ||| (BitVec.ofBool (bitAt d p)).setWidth 64) xs hx' (by
      intro i hi
      have := hd (i + 1) (by omega)
      simpa [Nat.add_assoc, Nat.add_comm 1 i] using this)
    simp only [gatherBits]
    rw [this, toNat_shiftIn, ← h0]
    simp only [bitsValue, hx', Nat.pow_succ]
    rw [Nat.add_mod, Nat.mod_mul_mod, ← Nat.add_mod]
    congr 1
    ring

/-- `readBits` over a stream whose next bits are `xs` (R138). -/
theorem readBits_of_bits (bs : List Byte) (pre xs post : List Bool) (h : bitsOf bs = pre ++ xs ++ post) :
    Source.readBits (dataOf bs) xs.length ⟨bs.length, pre.length⟩
      = .ok (BitVec.ofNat 64 (bitsValue xs), ⟨bs.length, pre.length + xs.length⟩) := by
  have hlen : 8 * bs.length = pre.length + xs.length + post.length := by
    rw [← bitsOf_length, h]; simp [Nat.add_assoc]
  simp only [Source.readBits]
  rw [if_neg (by omega)]
  congr 2
  apply BitVec.eq_of_toNat_eq
  rw [gatherBits_toNat (dataOf bs) xs.length pre.length 0 xs rfl]
  · simp
  · intro i hi
    have := bitAt_dataOf bs (pre.length + i) (by omega)
    rw [← this, h, List.append_assoc, List.getElem?_append_right (by omega), Nat.add_sub_cancel_left,
      List.getElem?_append_left hi]

/-- `read(n)` in a decoder over a stream whose next bits are `xs`. -/
theorem readField_of_bits (bs : List Byte) (pre xs post : List Bool) (h : bitsOf bs = pre ++ xs ++ post) :
    readField (dataOf bs) xs.length ⟨bs.length, pre.length⟩
      = .ok (BitVec.ofNat 64 (bitsValue xs), ⟨bs.length, pre.length + xs.length⟩) := by
  simp [readField, readBits_of_bits bs pre xs post h]

/-- `read(n)` in a decoder with fewer than `n` bits left (R140). -/
theorem readField_short (d : Nat → Byte) (n : Nat) (r : Source) (h : 8 * r.len < r.pos + n) :
    readField d n r = .error .truncatedStream := by
  simp [readField, Source.readBits, h]

/-- Reading a field that `writeBits` wrote gives its `n` low-order bits (R142). -/
theorem readField_fieldBits (bs : List Byte) (pre post : List Bool) (v : Word64) (n : Nat)
    (h : bitsOf bs = pre ++ fieldBits v n ++ post) :
    readField (dataOf bs) n ⟨bs.length, pre.length⟩
      = .ok (BitVec.ofNat 64 (v.toNat % 2 ^ n), ⟨bs.length, pre.length + n⟩) := by
  have := readField_of_bits bs pre (fieldBits v n) post h
  simpa [bitsValue_fieldBits] using this

/-- Reading one bit (R137). -/
theorem readField_bit (bs : List Byte) (pre post : List Bool) (b : Bool) (h : bitsOf bs = pre ++ b :: post) :
    readField (dataOf bs) 1 ⟨bs.length, pre.length⟩
      = .ok (BitVec.ofNat 64 b.toNat, ⟨bs.length, pre.length + 1⟩) := by
  have := readField_of_bits bs pre [b] post (by simpa using h)
  simpa [bitsValue] using this

end Sys2Proof.Machine
end

