-- ==== Sys2Proof/Laws/Columns.lean ====
section
/-! SUPPORT. The laws of column elements: laying a column out as bytes and reading it back are inverse
(20_memory.md R61, R66, R68). -/

namespace Sys2Proof.Machine

@[simp] theorem bytesBe64_length (v : Word64) : (bytesBe64 v).length = 8 := rfl
@[simp] theorem bytesBe32_length (v : Word32) : (bytesBe32 v).length = 4 := rfl

@[simp] theorem bytesOf64_length (vs : List Word64) : (bytesOf64 vs).length = 8 * vs.length := by
  induction vs with
  | nil => rfl
  | cons v vs ih => simp [bytesOf64, ih]; omega

@[simp] theorem bytesOf32_length (vs : List Word32) : (bytesOf32 vs).length = 4 * vs.length := by
  induction vs with
  | nil => rfl
  | cons v vs ih => simp [bytesOf32, ih]; omega

/-- The eight bytes of an element put together again. -/
theorem join64 (v : Word64) :
    (v.extractLsb' 56 8 ++ v.extractLsb' 48 8 ++ v.extractLsb' 40 8 ++ v.extractLsb' 32 8
      ++ v.extractLsb' 24 8 ++ v.extractLsb' 16 8 ++ v.extractLsb' 8 8 ++ v.extractLsb' 0 8) = v := by
  apply BitVec.eq_of_getLsbD_eq
  intro i hi
  simp only [BitVec.getLsbD_append, BitVec.getLsbD_extractLsb']
  interval_cases i <;> simp

/-- The four bytes of a pattern put together again. -/
theorem join32 (v : Word32) :
    (v.extractLsb' 24 8 ++ v.extractLsb' 16 8 ++ v.extractLsb' 8 8 ++ v.extractLsb' 0 8) = v := by
  apply BitVec.eq_of_getLsbD_eq
  intro i hi
  simp only [BitVec.getLsbD_append, BitVec.getLsbD_extractLsb']
  interval_cases i <;> simp

/-- The first element of bytes that begin with one. -/
theorem column64_bytesBe64_append (v : Word64) (bs : List Byte) :
    column64 (bytesBe64 v ++ bs) = v :: column64 bs := by
  simp only [bytesBe64, List.cons_append, List.nil_append, column64]
  rw [join64]

theorem column32_bytesBe32_append (v : Word32) (bs : List Byte) :
    column32 (bytesBe32 v ++ bs) = v :: column32 bs := by
  simp only [bytesBe32, List.cons_append, List.nil_append, column32]
  rw [join32]

/-- A column laid out reads back. -/
@[simp] theorem column64_bytesOf64 (vs : List Word64) : column64 (bytesOf64 vs) = vs := by
  induction vs with
  | nil => rfl
  | cons v vs ih => rw [bytesOf64, column64_bytesBe64_append, ih]

@[simp] theorem column32_bytesOf32 (vs : List Word32) : column32 (bytesOf32 vs) = vs := by
  induction vs with
  | nil => rfl
  | cons v vs ih => rw [bytesOf32, column32_bytesBe32_append, ih]

/-- Eight bytes taken apart again. -/
theorem bytesBe64_join (b0 b1 b2 b3 b4 b5 b6 b7 : Byte) :
    bytesBe64 (b0 ++ b1 ++ b2 ++ b3 ++ b4 ++ b5 ++ b6 ++ b7) = [b0, b1, b2, b3, b4, b5, b6, b7] := by
  simp only [bytesBe64, List.cons.injEq, and_true]
  refine ⟨?_, ?_, ?_, ?_, ?_, ?_, ?_, ?_⟩ <;>
  · apply BitVec.eq_of_getLsbD_eq
    intro i hi
    simp only [BitVec.getLsbD_append, BitVec.getLsbD_extractLsb']
    interval_cases i <;> simp

theorem bytesBe32_join (b0 b1 b2 b3 : Byte) : bytesBe32 (b0 ++ b1 ++ b2 ++ b3) = [b0, b1, b2, b3] := by
  simp only [bytesBe32, List.cons.injEq, and_true]
  refine ⟨?_, ?_, ?_, ?_⟩ <;>
  · apply BitVec.eq_of_getLsbD_eq
    intro i hi
    simp only [BitVec.getLsbD_append, BitVec.getLsbD_extractLsb']
    interval_cases i <;> simp

/-- A buffer of whole elements is the layout of its column. -/
theorem bytesOf64_column64 : ∀ (bs : List Byte), bs.length % 8 = 0 → bytesOf64 (column64 bs) = bs
  | [], _ => rfl
  | [_], h | [_, _], h | [_, _, _], h | [_, _, _, _], h | [_, _, _, _, _], h | [_, _, _, _, _, _], h
  | [_, _, _, _, _, _, _], h => by simp at h
  | b0 :: b1 :: b2 :: b3 :: b4 :: b5 :: b6 :: b7 :: rest, h => by
    have hr : rest.length % 8 = 0 := by simp only [List.length_cons] at h; omega
    rw [column64, bytesOf64, bytesBe64_join, bytesOf64_column64 rest hr]
    rfl

theorem bytesOf32_column32 : ∀ (bs : List Byte), bs.length % 4 = 0 → bytesOf32 (column32 bs) = bs
  | [], _ => rfl
  | [_], h | [_, _], h | [_, _, _], h => by simp at h
  | b0 :: b1 :: b2 :: b3 :: rest, h => by
    have hr : rest.length % 4 = 0 := by simp only [List.length_cons] at h; omega
    rw [column32, bytesOf32, bytesBe32_join, bytesOf32_column32 rest hr]
    rfl

/-- The check of R68 passes exactly on whole elements. -/
theorem withColumn64_bytesOf64 (vs : List Word64) (f : List Word64 → Except Failure (List Byte)) :
    withColumn64 (bytesOf64 vs) f = f vs := by
  simp [withColumn64]

theorem withColumn32_bytesOf32 (vs : List Word32) (f : List Word32 → Except Failure (List Byte)) :
    withColumn32 (bytesOf32 vs) f = f vs := by
  simp [withColumn32]

/-- An output of a column operation comes from a column. -/
theorem withColumn64_ok {inp out : List Byte} {f : List Word64 → Except Failure (List Byte)}
    (h : withColumn64 inp f = .ok out) : inp = bytesOf64 (column64 inp) ∧ f (column64 inp) = .ok out := by
  simp only [withColumn64] at h
  split at h
  · cases h
  · rename_i h8
    exact ⟨(bytesOf64_column64 inp (by omega)).symm, h⟩

theorem withColumn32_ok {inp out : List Byte} {f : List Word32 → Except Failure (List Byte)}
    (h : withColumn32 inp f = .ok out) : inp = bytesOf32 (column32 inp) ∧ f (column32 inp) = .ok out := by
  simp only [withColumn32] at h
  split at h
  · cases h
  · rename_i h4
    exact ⟨(bytesOf32_column32 inp (by omega)).symm, h⟩

end Sys2Proof.Machine
end

