-- ==== Sys2Proof/Laws/Memory.lean ====
section
/-! SUPPORT. The laws of byte memories: what a read gives after a write, and that every operation keeps the
canonical form. -/

namespace Sys2Proof.Machine

/-! ### One cell -/

theorem lookupCell_writeCells_same (a : Nat) (b : Byte) (cells : List Host.Cell) :
    lookupCell a (writeCells a b cells) = some b := by
  induction cells with
  | nil => simp [writeCells, lookupCell]
  | cons c rest ih =>
    obtain ⟨c, x⟩ := c
    simp only [writeCells]
    split
    · simp [lookupCell]
    · split
      · simp [lookupCell]
      · rename_i h1 h2
        simp [lookupCell, Ne.symm h2, ih]

theorem lookupCell_writeCells_other {a c : Nat} (b : Byte) (cells : List Host.Cell) (h : c ≠ a) :
    lookupCell c (writeCells a b cells) = lookupCell c cells := by
  induction cells with
  | nil => simp [writeCells, lookupCell, Ne.symm h]
  | cons d rest ih =>
    obtain ⟨d, x⟩ := d
    simp only [writeCells]
    split
    · simp [lookupCell, Ne.symm h]
    · split
      · rename_i h1 h2
        subst h2
        simp [lookupCell, Ne.symm h]
      · simp [lookupCell, ih]

/-! ### Reading and writing -/

@[simp] theorem Memory.fresh_cells (g : Nat) : (Memory.fresh g).cells = [] := rfl
@[simp] theorem Memory.fresh_gen (g : Nat) : (Memory.fresh g).gen = g := rfl
@[simp] theorem Memory.write_gen (m : Memory) (a : Nat) (b : Byte) : (m.write a b).gen = m.gen := rfl

/-- A byte just written reads as written. -/
@[simp] theorem Memory.read_write_same (m : Memory) (a : Nat) (b : Byte) : (m.write a b).read a = b := by
  simp [Memory.read, Memory.write, lookupCell_writeCells_same]

/-- A write leaves every other byte alone. -/
theorem Memory.read_write_other {a c : Nat} (m : Memory) (b : Byte) (h : c ≠ a) :
    (m.write a b).read c = m.read c := by
  simp [Memory.read, Memory.write, lookupCell_writeCells_other b m.cells h]

@[simp] theorem Memory.writeBytes_gen (m : Memory) (a : Nat) (bs : List Byte) :
    (m.writeBytes a bs).gen = m.gen := by
  induction bs generalizing m a with
  | nil => rfl
  | cons b bs ih => simp [Memory.writeBytes, ih]

/-- Where a byte sequence was written, each byte reads as written. -/
theorem Memory.lookup_writeBytes (m : Memory) (a : Nat) (bs : List Byte) (c : Nat) :
    lookupCell c (m.writeBytes a bs).cells
      = if a ≤ c ∧ c < a + bs.length then bs[c - a]? else lookupCell c m.cells := by
  induction bs generalizing m a with
  | nil => simp [Memory.writeBytes, show ¬(a ≤ c ∧ c < a) by omega]
  | cons b bs ih =>
    simp only [Memory.writeBytes, ih, List.length_cons]
    by_cases h : c = a
    · subst h
      simp [Memory.write, lookupCell_writeCells_same]
    · simp only [Memory.write, lookupCell_writeCells_other b m.cells h]
      by_cases h2 : a + 1 ≤ c ∧ c < a + 1 + bs.length
      · rw [if_pos h2, if_pos (by omega), show c - a = (c - (a + 1)) + 1 by omega]
        simp
      · rw [if_neg h2, if_neg (by omega)]

@[simp] theorem Memory.length_readBytes (m : Memory) (a n : Nat) : (m.readBytes a n).length = n := by
  induction n generalizing a with
  | zero => rfl
  | succ n ih => simp [Memory.readBytes, ih]

/-- `MemRead` byte by byte (R14). -/
theorem Memory.getElem?_readBytes (m : Memory) (a n i : Nat) :
    (m.readBytes a n)[i]? = if i < n then some (m.read (a + i)) else none := by
  induction n generalizing a i with
  | zero => simp [Memory.readBytes]
  | succ n ih =>
    cases i with
    | zero => simp [Memory.readBytes]
    | succ i => simp [Memory.readBytes, ih, Nat.add_assoc, Nat.add_comm 1 i]

/-- `MemRead` after `MemWrite` at the same place gives the bytes written (R14). -/
theorem Memory.readBytes_writeBytes (m : Memory) (a : Nat) (bs : List Byte) :
    (m.writeBytes a bs).readBytes a bs.length = bs := by
  apply List.ext_getElem?
  intro i
  rw [Memory.getElem?_readBytes]
  split
  · rename_i h
    simp only [Memory.read, Memory.lookup_writeBytes]
    rw [if_pos (by omega), Nat.add_sub_cancel_left, List.getElem?_eq_getElem h, Option.getD_some]
  · rename_i h
    rw [List.getElem?_eq_none (by omega)]

/-- Two memories that agree below `n` give the same first `n` bytes. -/
theorem Memory.readBytes_congr (m m' : Memory) (a n : Nat) (h : ∀ c, m.read c = m'.read c) :
    m.readBytes a n = m'.readBytes a n := by
  induction n generalizing a with
  | zero => rfl
  | succ n ih => simp [Memory.readBytes, h a, ih]

/-! ### The canonical form -/

theorem cellsRise_mono {lo lo' : Nat} (h : lo' ≤ lo) : ∀ {cells : List Host.Cell},
    cellsRise lo cells = true → cellsRise lo' cells = true
  | [], _ => rfl
  | (a, _) :: _, hc => by
    simp only [cellsRise, Bool.and_eq_true, decide_eq_true_eq] at hc ⊢
    exact ⟨by omega, hc.2⟩

theorem cellsRise_writeCells {lo a : Nat} (b : Byte) (h : lo ≤ a) (cells : List Host.Cell)
    (hc : cellsRise lo cells = true) : cellsRise lo (writeCells a b cells) = true := by
  induction cells generalizing lo with
  | nil => simp [writeCells, cellsRise, h]
  | cons c rest ih =>
    obtain ⟨c, x⟩ := c
    simp only [cellsRise, Bool.and_eq_true, decide_eq_true_eq] at hc
    simp only [writeCells]
    split
    · simp only [cellsRise, Bool.and_eq_true, decide_eq_true_eq]
      exact ⟨h, by omega, hc.2⟩
    · split
      · rename_i h1 h2
        subst h2
        simp only [cellsRise, Bool.and_eq_true, decide_eq_true_eq]
        exact ⟨h, hc.2⟩
      · simp only [cellsRise, Bool.and_eq_true, decide_eq_true_eq]
        exact ⟨hc.1, ih (by omega) hc.2⟩

@[simp] theorem Memory.wf_fresh (g : Nat) : (Memory.fresh g).wf = true := rfl

/-- A write keeps the canonical form. -/
theorem Memory.wf_write {m : Memory} (a : Nat) (b : Byte) (h : m.wf = true) : (m.write a b).wf = true :=
  cellsRise_writeCells b (Nat.zero_le a) m.cells h

/-- `MemWrite` keeps the canonical form. -/
theorem Memory.wf_writeBytes {m : Memory} (a : Nat) (bs : List Byte) (h : m.wf = true) :
    (m.writeBytes a bs).wf = true := by
  induction bs generalizing m a with
  | nil => exact h
  | cons b bs ih => exact ih (a + 1) (Memory.wf_write a b h)

end Sys2Proof.Machine
end

