-- ==== Sys2Proof/Laws/State.lean ====
section
/-! SUPPORT. One lemma per field per update of State, true by `rfl`: no proof unfolds a record update. -/

namespace Sys2Proof.Machine

/-! ### latchCommand -/

@[simp] theorem latchCommand_cfg (w : Word32) (s : State) : (latchCommand w s).cfg = s.cfg := rfl
@[simp] theorem latchCommand_cmd (w : Word32) (s : State) : (latchCommand w s).cmd = w := rfl
@[simp] theorem latchCommand_done (w : Word32) (s : State) : (latchCommand w s).done = s.done := rfl
@[simp] theorem latchCommand_err (w : Word32) (s : State) : (latchCommand w s).err = s.err := rfl
@[simp] theorem latchCommand_stage (w : Word32) (s : State) : (latchCommand w s).stage = s.stage := rfl
@[simp] theorem latchCommand_serr (w : Word32) (s : State) : (latchCommand w s).serr = s.serr := rfl
@[simp] theorem latchCommand_ilen (w : Word32) (s : State) : (latchCommand w s).ilen = s.ilen := rfl
@[simp] theorem latchCommand_olen (w : Word32) (s : State) : (latchCommand w s).olen = s.olen := rfl
@[simp] theorem latchCommand_wdata (w : Word32) (s : State) : (latchCommand w s).wdata = s.wdata := rfl
@[simp] theorem latchCommand_rdata (w : Word32) (s : State) : (latchCommand w s).rdata = s.rdata := rfl
@[simp] theorem latchCommand_pipe (w : Word32) (s : State) : (latchCommand w s).pipe = s.pipe := rfl
@[simp] theorem latchCommand_ie (w : Word32) (s : State) : (latchCommand w s).ie = s.ie := rfl
@[simp] theorem latchCommand_ibuf (w : Word32) (s : State) : (latchCommand w s).ibuf = s.ibuf := rfl
@[simp] theorem latchCommand_obuf (w : Word32) (s : State) : (latchCommand w s).obuf = s.obuf := rfl
@[simp] theorem latchCommand_sink (w : Word32) (s : State) : (latchCommand w s).sink = s.sink := rfl
@[simp] theorem latchCommand_source (w : Word32) (s : State) : (latchCommand w s).source = s.source := rfl
@[simp] theorem latchCommand_busyFor (w : Word32) (s : State) : (latchCommand w s).busyFor = s.busyFor := rfl
@[simp] theorem latchCommand_inputs (w : Word32) (s : State) : (latchCommand w s).inputs = s.inputs := rfl
@[simp] theorem latchCommand_hostRead (w : Word32) (s : State) : (latchCommand w s).hostRead = s.hostRead := rfl
@[simp] theorem latchCommand_draws (w : Word32) (s : State) : (latchCommand w s).draws = s.draws := rfl

/-! ### accepted -/

@[simp] theorem accepted_cfg (s : State) : (accepted s).cfg = s.cfg := rfl
@[simp] theorem accepted_cmd (s : State) : (accepted s).cmd = s.cmd := rfl
@[simp] theorem accepted_done (s : State) : (accepted s).done = false := rfl
@[simp] theorem accepted_err (s : State) : (accepted s).err = none := rfl
@[simp] theorem accepted_stage (s : State) : (accepted s).stage = 0 := rfl
@[simp] theorem accepted_serr (s : State) : (accepted s).serr = s.serr := rfl
@[simp] theorem accepted_ilen (s : State) : (accepted s).ilen = s.ilen := rfl
@[simp] theorem accepted_olen (s : State) : (accepted s).olen = s.olen := rfl
@[simp] theorem accepted_wdata (s : State) : (accepted s).wdata = s.wdata := rfl
@[simp] theorem accepted_rdata (s : State) : (accepted s).rdata = s.rdata := rfl
@[simp] theorem accepted_pipe (s : State) : (accepted s).pipe = s.pipe := rfl
@[simp] theorem accepted_ie (s : State) : (accepted s).ie = s.ie := rfl
@[simp] theorem accepted_ibuf (s : State) : (accepted s).ibuf = s.ibuf := rfl
@[simp] theorem accepted_obuf (s : State) : (accepted s).obuf = s.obuf := rfl
@[simp] theorem accepted_sink (s : State) : (accepted s).sink = s.sink := rfl
@[simp] theorem accepted_source (s : State) : (accepted s).source = s.source := rfl
@[simp] theorem accepted_busyFor (s : State) : (accepted s).busyFor = s.busyFor := rfl
@[simp] theorem accepted_inputs (s : State) : (accepted s).inputs = s.inputs := rfl
@[simp] theorem accepted_hostRead (s : State) : (accepted s).hostRead = s.hostRead := rfl
@[simp] theorem accepted_draws (s : State) : (accepted s).draws = s.draws := rfl

/-! ### complete -/

@[simp] theorem complete_cfg (c : Option Failure) (st : BitVec 2) (s : State) : (complete c st s).cfg = s.cfg := rfl
@[simp] theorem complete_cmd (c : Option Failure) (st : BitVec 2) (s : State) : (complete c st s).cmd = s.cmd := rfl
@[simp] theorem complete_done (c : Option Failure) (st : BitVec 2) (s : State) : (complete c st s).done = true := rfl
@[simp] theorem complete_err (c : Option Failure) (st : BitVec 2) (s : State) : (complete c st s).err = c := rfl
@[simp] theorem complete_stage (c : Option Failure) (st : BitVec 2) (s : State) : (complete c st s).stage = st := rfl
@[simp] theorem complete_serr (c : Option Failure) (st : BitVec 2) (s : State) : (complete c st s).serr = (s.serr || c.isSome) := rfl
@[simp] theorem complete_ilen (c : Option Failure) (st : BitVec 2) (s : State) : (complete c st s).ilen = s.ilen := rfl
@[simp] theorem complete_olen (c : Option Failure) (st : BitVec 2) (s : State) : (complete c st s).olen = s.olen := rfl
@[simp] theorem complete_wdata (c : Option Failure) (st : BitVec 2) (s : State) : (complete c st s).wdata = s.wdata := rfl
@[simp] theorem complete_rdata (c : Option Failure) (st : BitVec 2) (s : State) : (complete c st s).rdata = s.rdata := rfl
@[simp] theorem complete_pipe (c : Option Failure) (st : BitVec 2) (s : State) : (complete c st s).pipe = s.pipe := rfl
@[simp] theorem complete_ie (c : Option Failure) (st : BitVec 2) (s : State) : (complete c st s).ie = s.ie := rfl
@[simp] theorem complete_ibuf (c : Option Failure) (st : BitVec 2) (s : State) : (complete c st s).ibuf = s.ibuf := rfl
@[simp] theorem complete_obuf (c : Option Failure) (st : BitVec 2) (s : State) : (complete c st s).obuf = s.obuf := rfl
@[simp] theorem complete_sink (c : Option Failure) (st : BitVec 2) (s : State) : (complete c st s).sink = s.sink := rfl
@[simp] theorem complete_source (c : Option Failure) (st : BitVec 2) (s : State) : (complete c st s).source = s.source := rfl
@[simp] theorem complete_busyFor (c : Option Failure) (st : BitVec 2) (s : State) : (complete c st s).busyFor = none := rfl
@[simp] theorem complete_inputs (c : Option Failure) (st : BitVec 2) (s : State) : (complete c st s).inputs = s.inputs := rfl
@[simp] theorem complete_hostRead (c : Option Failure) (st : BitVec 2) (s : State) : (complete c st s).hostRead = s.hostRead := rfl
@[simp] theorem complete_draws (c : Option Failure) (st : BitVec 2) (s : State) : (complete c st s).draws = s.draws := rfl

/-! ### destroySessions -/

@[simp] theorem destroySessions_cfg (s : State) : (destroySessions s).cfg = s.cfg := rfl
@[simp] theorem destroySessions_cmd (s : State) : (destroySessions s).cmd = s.cmd := rfl
@[simp] theorem destroySessions_done (s : State) : (destroySessions s).done = s.done := rfl
@[simp] theorem destroySessions_err (s : State) : (destroySessions s).err = s.err := rfl
@[simp] theorem destroySessions_stage (s : State) : (destroySessions s).stage = s.stage := rfl
@[simp] theorem destroySessions_serr (s : State) : (destroySessions s).serr = s.serr := rfl
@[simp] theorem destroySessions_ilen (s : State) : (destroySessions s).ilen = s.ilen := rfl
@[simp] theorem destroySessions_olen (s : State) : (destroySessions s).olen = s.olen := rfl
@[simp] theorem destroySessions_wdata (s : State) : (destroySessions s).wdata = s.wdata := rfl
@[simp] theorem destroySessions_rdata (s : State) : (destroySessions s).rdata = s.rdata := rfl
@[simp] theorem destroySessions_pipe (s : State) : (destroySessions s).pipe = s.pipe := rfl
@[simp] theorem destroySessions_ie (s : State) : (destroySessions s).ie = s.ie := rfl
@[simp] theorem destroySessions_ibuf (s : State) : (destroySessions s).ibuf = s.ibuf := rfl
@[simp] theorem destroySessions_obuf (s : State) : (destroySessions s).obuf = s.obuf := rfl
@[simp] theorem destroySessions_sink (s : State) : (destroySessions s).sink = none := rfl
@[simp] theorem destroySessions_source (s : State) : (destroySessions s).source = none := rfl
@[simp] theorem destroySessions_busyFor (s : State) : (destroySessions s).busyFor = s.busyFor := rfl
@[simp] theorem destroySessions_inputs (s : State) : (destroySessions s).inputs = s.inputs := rfl
@[simp] theorem destroySessions_hostRead (s : State) : (destroySessions s).hostRead = s.hostRead := rfl
@[simp] theorem destroySessions_draws (s : State) : (destroySessions s).draws = s.draws := rfl

/-! ### setSink -/

@[simp] theorem setSink_cfg (k : Option Sink) (s : State) : (setSink k s).cfg = s.cfg := rfl
@[simp] theorem setSink_cmd (k : Option Sink) (s : State) : (setSink k s).cmd = s.cmd := rfl
@[simp] theorem setSink_done (k : Option Sink) (s : State) : (setSink k s).done = s.done := rfl
@[simp] theorem setSink_err (k : Option Sink) (s : State) : (setSink k s).err = s.err := rfl
@[simp] theorem setSink_stage (k : Option Sink) (s : State) : (setSink k s).stage = s.stage := rfl
@[simp] theorem setSink_serr (k : Option Sink) (s : State) : (setSink k s).serr = s.serr := rfl
@[simp] theorem setSink_ilen (k : Option Sink) (s : State) : (setSink k s).ilen = s.ilen := rfl
@[simp] theorem setSink_olen (k : Option Sink) (s : State) : (setSink k s).olen = s.olen := rfl
@[simp] theorem setSink_wdata (k : Option Sink) (s : State) : (setSink k s).wdata = s.wdata := rfl
@[simp] theorem setSink_rdata (k : Option Sink) (s : State) : (setSink k s).rdata = s.rdata := rfl
@[simp] theorem setSink_pipe (k : Option Sink) (s : State) : (setSink k s).pipe = s.pipe := rfl
@[simp] theorem setSink_ie (k : Option Sink) (s : State) : (setSink k s).ie = s.ie := rfl
@[simp] theorem setSink_ibuf (k : Option Sink) (s : State) : (setSink k s).ibuf = s.ibuf := rfl
@[simp] theorem setSink_obuf (k : Option Sink) (s : State) : (setSink k s).obuf = s.obuf := rfl
@[simp] theorem setSink_sink (k : Option Sink) (s : State) : (setSink k s).sink = k := rfl
@[simp] theorem setSink_source (k : Option Sink) (s : State) : (setSink k s).source = s.source := rfl
@[simp] theorem setSink_busyFor (k : Option Sink) (s : State) : (setSink k s).busyFor = s.busyFor := rfl
@[simp] theorem setSink_inputs (k : Option Sink) (s : State) : (setSink k s).inputs = s.inputs := rfl
@[simp] theorem setSink_hostRead (k : Option Sink) (s : State) : (setSink k s).hostRead = s.hostRead := rfl
@[simp] theorem setSink_draws (k : Option Sink) (s : State) : (setSink k s).draws = s.draws := rfl

/-! ### setSource -/

@[simp] theorem setSource_cfg (r : Option Source) (s : State) : (setSource r s).cfg = s.cfg := rfl
@[simp] theorem setSource_cmd (r : Option Source) (s : State) : (setSource r s).cmd = s.cmd := rfl
@[simp] theorem setSource_done (r : Option Source) (s : State) : (setSource r s).done = s.done := rfl
@[simp] theorem setSource_err (r : Option Source) (s : State) : (setSource r s).err = s.err := rfl
@[simp] theorem setSource_stage (r : Option Source) (s : State) : (setSource r s).stage = s.stage := rfl
@[simp] theorem setSource_serr (r : Option Source) (s : State) : (setSource r s).serr = s.serr := rfl
@[simp] theorem setSource_ilen (r : Option Source) (s : State) : (setSource r s).ilen = s.ilen := rfl
@[simp] theorem setSource_olen (r : Option Source) (s : State) : (setSource r s).olen = s.olen := rfl
@[simp] theorem setSource_wdata (r : Option Source) (s : State) : (setSource r s).wdata = s.wdata := rfl
@[simp] theorem setSource_rdata (r : Option Source) (s : State) : (setSource r s).rdata = s.rdata := rfl
@[simp] theorem setSource_pipe (r : Option Source) (s : State) : (setSource r s).pipe = s.pipe := rfl
@[simp] theorem setSource_ie (r : Option Source) (s : State) : (setSource r s).ie = s.ie := rfl
@[simp] theorem setSource_ibuf (r : Option Source) (s : State) : (setSource r s).ibuf = s.ibuf := rfl
@[simp] theorem setSource_obuf (r : Option Source) (s : State) : (setSource r s).obuf = s.obuf := rfl
@[simp] theorem setSource_sink (r : Option Source) (s : State) : (setSource r s).sink = s.sink := rfl
@[simp] theorem setSource_source (r : Option Source) (s : State) : (setSource r s).source = r := rfl
@[simp] theorem setSource_busyFor (r : Option Source) (s : State) : (setSource r s).busyFor = s.busyFor := rfl
@[simp] theorem setSource_inputs (r : Option Source) (s : State) : (setSource r s).inputs = s.inputs := rfl
@[simp] theorem setSource_hostRead (r : Option Source) (s : State) : (setSource r s).hostRead = s.hostRead := rfl
@[simp] theorem setSource_draws (r : Option Source) (s : State) : (setSource r s).draws = s.draws := rfl

/-! ### setRdata -/

@[simp] theorem setRdata_cfg (v : Word64) (s : State) : (setRdata v s).cfg = s.cfg := rfl
@[simp] theorem setRdata_cmd (v : Word64) (s : State) : (setRdata v s).cmd = s.cmd := rfl
@[simp] theorem setRdata_done (v : Word64) (s : State) : (setRdata v s).done = s.done := rfl
@[simp] theorem setRdata_err (v : Word64) (s : State) : (setRdata v s).err = s.err := rfl
@[simp] theorem setRdata_stage (v : Word64) (s : State) : (setRdata v s).stage = s.stage := rfl
@[simp] theorem setRdata_serr (v : Word64) (s : State) : (setRdata v s).serr = s.serr := rfl
@[simp] theorem setRdata_ilen (v : Word64) (s : State) : (setRdata v s).ilen = s.ilen := rfl
@[simp] theorem setRdata_olen (v : Word64) (s : State) : (setRdata v s).olen = s.olen := rfl
@[simp] theorem setRdata_wdata (v : Word64) (s : State) : (setRdata v s).wdata = s.wdata := rfl
@[simp] theorem setRdata_rdata (v : Word64) (s : State) : (setRdata v s).rdata = v := rfl
@[simp] theorem setRdata_pipe (v : Word64) (s : State) : (setRdata v s).pipe = s.pipe := rfl
@[simp] theorem setRdata_ie (v : Word64) (s : State) : (setRdata v s).ie = s.ie := rfl
@[simp] theorem setRdata_ibuf (v : Word64) (s : State) : (setRdata v s).ibuf = s.ibuf := rfl
@[simp] theorem setRdata_obuf (v : Word64) (s : State) : (setRdata v s).obuf = s.obuf := rfl
@[simp] theorem setRdata_sink (v : Word64) (s : State) : (setRdata v s).sink = s.sink := rfl
@[simp] theorem setRdata_source (v : Word64) (s : State) : (setRdata v s).source = s.source := rfl
@[simp] theorem setRdata_busyFor (v : Word64) (s : State) : (setRdata v s).busyFor = s.busyFor := rfl
@[simp] theorem setRdata_inputs (v : Word64) (s : State) : (setRdata v s).inputs = s.inputs := rfl
@[simp] theorem setRdata_hostRead (v : Word64) (s : State) : (setRdata v s).hostRead = s.hostRead := rfl
@[simp] theorem setRdata_draws (v : Word64) (s : State) : (setRdata v s).draws = s.draws := rfl

/-! ### emitOutput -/

@[simp] theorem emitOutput_cfg (out : List Byte) (s : State) : (emitOutput out s).cfg = s.cfg := rfl
@[simp] theorem emitOutput_cmd (out : List Byte) (s : State) : (emitOutput out s).cmd = s.cmd := rfl
@[simp] theorem emitOutput_done (out : List Byte) (s : State) : (emitOutput out s).done = s.done := rfl
@[simp] theorem emitOutput_err (out : List Byte) (s : State) : (emitOutput out s).err = s.err := rfl
@[simp] theorem emitOutput_stage (out : List Byte) (s : State) : (emitOutput out s).stage = s.stage := rfl
@[simp] theorem emitOutput_serr (out : List Byte) (s : State) : (emitOutput out s).serr = s.serr := rfl
@[simp] theorem emitOutput_ilen (out : List Byte) (s : State) : (emitOutput out s).ilen = s.ilen := rfl
@[simp] theorem emitOutput_olen (out : List Byte) (s : State) : (emitOutput out s).olen = BitVec.ofNat 32 out.length := rfl
@[simp] theorem emitOutput_wdata (out : List Byte) (s : State) : (emitOutput out s).wdata = s.wdata := rfl
@[simp] theorem emitOutput_rdata (out : List Byte) (s : State) : (emitOutput out s).rdata = s.rdata := rfl
@[simp] theorem emitOutput_pipe (out : List Byte) (s : State) : (emitOutput out s).pipe = s.pipe := rfl
@[simp] theorem emitOutput_ie (out : List Byte) (s : State) : (emitOutput out s).ie = s.ie := rfl
@[simp] theorem emitOutput_ibuf (out : List Byte) (s : State) : (emitOutput out s).ibuf = s.ibuf := rfl
@[simp] theorem emitOutput_obuf (out : List Byte) (s : State) : (emitOutput out s).obuf = (Memory.fresh s.draws).writeBytes 0 out := rfl
@[simp] theorem emitOutput_sink (out : List Byte) (s : State) : (emitOutput out s).sink = s.sink := rfl
@[simp] theorem emitOutput_source (out : List Byte) (s : State) : (emitOutput out s).source = s.source := rfl
@[simp] theorem emitOutput_busyFor (out : List Byte) (s : State) : (emitOutput out s).busyFor = s.busyFor := rfl
@[simp] theorem emitOutput_inputs (out : List Byte) (s : State) : (emitOutput out s).inputs = s.inputs := rfl
@[simp] theorem emitOutput_hostRead (out : List Byte) (s : State) : (emitOutput out s).hostRead = s.hostRead := rfl
@[simp] theorem emitOutput_draws (out : List Byte) (s : State) : (emitOutput out s).draws = s.draws + 1 := rfl

/-! ### discardOutput -/

@[simp] theorem discardOutput_cfg (s : State) : (discardOutput s).cfg = s.cfg := rfl
@[simp] theorem discardOutput_cmd (s : State) : (discardOutput s).cmd = s.cmd := rfl
@[simp] theorem discardOutput_done (s : State) : (discardOutput s).done = s.done := rfl
@[simp] theorem discardOutput_err (s : State) : (discardOutput s).err = s.err := rfl
@[simp] theorem discardOutput_stage (s : State) : (discardOutput s).stage = s.stage := rfl
@[simp] theorem discardOutput_serr (s : State) : (discardOutput s).serr = s.serr := rfl
@[simp] theorem discardOutput_ilen (s : State) : (discardOutput s).ilen = s.ilen := rfl
@[simp] theorem discardOutput_olen (s : State) : (discardOutput s).olen = 0 := rfl
@[simp] theorem discardOutput_wdata (s : State) : (discardOutput s).wdata = s.wdata := rfl
@[simp] theorem discardOutput_rdata (s : State) : (discardOutput s).rdata = s.rdata := rfl
@[simp] theorem discardOutput_pipe (s : State) : (discardOutput s).pipe = s.pipe := rfl
@[simp] theorem discardOutput_ie (s : State) : (discardOutput s).ie = s.ie := rfl
@[simp] theorem discardOutput_ibuf (s : State) : (discardOutput s).ibuf = s.ibuf := rfl
@[simp] theorem discardOutput_obuf (s : State) : (discardOutput s).obuf = Memory.fresh s.draws := rfl
@[simp] theorem discardOutput_sink (s : State) : (discardOutput s).sink = s.sink := rfl
@[simp] theorem discardOutput_source (s : State) : (discardOutput s).source = s.source := rfl
@[simp] theorem discardOutput_busyFor (s : State) : (discardOutput s).busyFor = s.busyFor := rfl
@[simp] theorem discardOutput_inputs (s : State) : (discardOutput s).inputs = s.inputs := rfl
@[simp] theorem discardOutput_hostRead (s : State) : (discardOutput s).hostRead = s.hostRead := rfl
@[simp] theorem discardOutput_draws (s : State) : (discardOutput s).draws = s.draws + 1 := rfl

/-! ### acknowledge -/

@[simp] theorem acknowledge_cfg (s : State) : (acknowledge s).cfg = s.cfg := rfl
@[simp] theorem acknowledge_cmd (s : State) : (acknowledge s).cmd = s.cmd := rfl
@[simp] theorem acknowledge_done (s : State) : (acknowledge s).done = false := rfl
@[simp] theorem acknowledge_err (s : State) : (acknowledge s).err = s.err := rfl
@[simp] theorem acknowledge_stage (s : State) : (acknowledge s).stage = s.stage := rfl
@[simp] theorem acknowledge_serr (s : State) : (acknowledge s).serr = s.serr := rfl
@[simp] theorem acknowledge_ilen (s : State) : (acknowledge s).ilen = s.ilen := rfl
@[simp] theorem acknowledge_olen (s : State) : (acknowledge s).olen = s.olen := rfl
@[simp] theorem acknowledge_wdata (s : State) : (acknowledge s).wdata = s.wdata := rfl
@[simp] theorem acknowledge_rdata (s : State) : (acknowledge s).rdata = s.rdata := rfl
@[simp] theorem acknowledge_pipe (s : State) : (acknowledge s).pipe = s.pipe := rfl
@[simp] theorem acknowledge_ie (s : State) : (acknowledge s).ie = s.ie := rfl
@[simp] theorem acknowledge_ibuf (s : State) : (acknowledge s).ibuf = s.ibuf := rfl
@[simp] theorem acknowledge_obuf (s : State) : (acknowledge s).obuf = s.obuf := rfl
@[simp] theorem acknowledge_sink (s : State) : (acknowledge s).sink = s.sink := rfl
@[simp] theorem acknowledge_source (s : State) : (acknowledge s).source = s.source := rfl
@[simp] theorem acknowledge_busyFor (s : State) : (acknowledge s).busyFor = s.busyFor := rfl
@[simp] theorem acknowledge_inputs (s : State) : (acknowledge s).inputs = s.inputs := rfl
@[simp] theorem acknowledge_hostRead (s : State) : (acknowledge s).hostRead = s.hostRead := rfl
@[simp] theorem acknowledge_draws (s : State) : (acknowledge s).draws = s.draws := rfl

/-! ### hostReads -/

@[simp] theorem hostReads_cfg (v : Word64) (s : State) : (hostReads v s).cfg = s.cfg := rfl
@[simp] theorem hostReads_cmd (v : Word64) (s : State) : (hostReads v s).cmd = s.cmd := rfl
@[simp] theorem hostReads_done (v : Word64) (s : State) : (hostReads v s).done = s.done := rfl
@[simp] theorem hostReads_err (v : Word64) (s : State) : (hostReads v s).err = s.err := rfl
@[simp] theorem hostReads_stage (v : Word64) (s : State) : (hostReads v s).stage = s.stage := rfl
@[simp] theorem hostReads_serr (v : Word64) (s : State) : (hostReads v s).serr = s.serr := rfl
@[simp] theorem hostReads_ilen (v : Word64) (s : State) : (hostReads v s).ilen = s.ilen := rfl
@[simp] theorem hostReads_olen (v : Word64) (s : State) : (hostReads v s).olen = s.olen := rfl
@[simp] theorem hostReads_wdata (v : Word64) (s : State) : (hostReads v s).wdata = s.wdata := rfl
@[simp] theorem hostReads_rdata (v : Word64) (s : State) : (hostReads v s).rdata = s.rdata := rfl
@[simp] theorem hostReads_pipe (v : Word64) (s : State) : (hostReads v s).pipe = s.pipe := rfl
@[simp] theorem hostReads_ie (v : Word64) (s : State) : (hostReads v s).ie = s.ie := rfl
@[simp] theorem hostReads_ibuf (v : Word64) (s : State) : (hostReads v s).ibuf = s.ibuf := rfl
@[simp] theorem hostReads_obuf (v : Word64) (s : State) : (hostReads v s).obuf = s.obuf := rfl
@[simp] theorem hostReads_sink (v : Word64) (s : State) : (hostReads v s).sink = s.sink := rfl
@[simp] theorem hostReads_source (v : Word64) (s : State) : (hostReads v s).source = s.source := rfl
@[simp] theorem hostReads_busyFor (v : Word64) (s : State) : (hostReads v s).busyFor = s.busyFor := rfl
@[simp] theorem hostReads_inputs (v : Word64) (s : State) : (hostReads v s).inputs = s.inputs := rfl
@[simp] theorem hostReads_hostRead (v : Word64) (s : State) : (hostReads v s).hostRead = v := rfl
@[simp] theorem hostReads_draws (v : Word64) (s : State) : (hostReads v s).draws = s.draws := rfl

/-! ### hostReadsDraw -/

@[simp] theorem hostReadsDraw_cfg (s : State) : (hostReadsDraw s).cfg = s.cfg := rfl
@[simp] theorem hostReadsDraw_cmd (s : State) : (hostReadsDraw s).cmd = s.cmd := rfl
@[simp] theorem hostReadsDraw_done (s : State) : (hostReadsDraw s).done = s.done := rfl
@[simp] theorem hostReadsDraw_err (s : State) : (hostReadsDraw s).err = s.err := rfl
@[simp] theorem hostReadsDraw_stage (s : State) : (hostReadsDraw s).stage = s.stage := rfl
@[simp] theorem hostReadsDraw_serr (s : State) : (hostReadsDraw s).serr = s.serr := rfl
@[simp] theorem hostReadsDraw_ilen (s : State) : (hostReadsDraw s).ilen = s.ilen := rfl
@[simp] theorem hostReadsDraw_olen (s : State) : (hostReadsDraw s).olen = s.olen := rfl
@[simp] theorem hostReadsDraw_wdata (s : State) : (hostReadsDraw s).wdata = s.wdata := rfl
@[simp] theorem hostReadsDraw_rdata (s : State) : (hostReadsDraw s).rdata = s.rdata := rfl
@[simp] theorem hostReadsDraw_pipe (s : State) : (hostReadsDraw s).pipe = s.pipe := rfl
@[simp] theorem hostReadsDraw_ie (s : State) : (hostReadsDraw s).ie = s.ie := rfl
@[simp] theorem hostReadsDraw_ibuf (s : State) : (hostReadsDraw s).ibuf = s.ibuf := rfl
@[simp] theorem hostReadsDraw_obuf (s : State) : (hostReadsDraw s).obuf = s.obuf := rfl
@[simp] theorem hostReadsDraw_sink (s : State) : (hostReadsDraw s).sink = s.sink := rfl
@[simp] theorem hostReadsDraw_source (s : State) : (hostReadsDraw s).source = s.source := rfl
@[simp] theorem hostReadsDraw_busyFor (s : State) : (hostReadsDraw s).busyFor = s.busyFor := rfl
@[simp] theorem hostReadsDraw_inputs (s : State) : (hostReadsDraw s).inputs = s.inputs := rfl
@[simp] theorem hostReadsDraw_hostRead (s : State) : (hostReadsDraw s).hostRead = Config.freeWord s.draws := rfl
@[simp] theorem hostReadsDraw_draws (s : State) : (hostReadsDraw s).draws = s.draws + 1 := rfl

/-! ### Compositions of these updates -/

@[simp] theorem illegalCommand_eq (s : State) :
    illegalCommand s = complete (some .illegalCommand) 0 (accepted s) := rfl
@[simp] theorem succeed_eq (s : State) : succeed s = complete none 0 s := rfl
@[simp] theorem failPlain_eq (f : Failure) (s : State) : failPlain f s = complete (some f) 0 s := rfl
@[simp] theorem failClass1_eq (f : Failure) (st : BitVec 2) (s : State) :
    failClass1 f st s = complete (some f) st (discardOutput s) := rfl

/-! ### Reset -/

@[simp] theorem applyReset_cfg (s : State) : (applyReset s).cfg = s.cfg := rfl
@[simp] theorem applyReset_cmd (s : State) : (applyReset s).cmd = 0 := rfl
@[simp] theorem applyReset_done (s : State) : (applyReset s).done = false := rfl
@[simp] theorem applyReset_err (s : State) : (applyReset s).err = none := rfl
@[simp] theorem applyReset_stage (s : State) : (applyReset s).stage = 0 := rfl
@[simp] theorem applyReset_serr (s : State) : (applyReset s).serr = false := rfl
@[simp] theorem applyReset_ilen (s : State) : (applyReset s).ilen = 0 := rfl
@[simp] theorem applyReset_olen (s : State) : (applyReset s).olen = 0 := rfl
@[simp] theorem applyReset_wdata (s : State) : (applyReset s).wdata = 0 := rfl
@[simp] theorem applyReset_rdata (s : State) : (applyReset s).rdata = 0 := rfl
@[simp] theorem applyReset_pipe (s : State) : (applyReset s).pipe = 0 := rfl
@[simp] theorem applyReset_ie (s : State) : (applyReset s).ie = false := rfl
@[simp] theorem applyReset_ibuf (s : State) : (applyReset s).ibuf = Memory.fresh s.draws := rfl
@[simp] theorem applyReset_obuf (s : State) : (applyReset s).obuf = Memory.fresh (s.draws + 1) := rfl
@[simp] theorem applyReset_sink (s : State) : (applyReset s).sink = none := rfl
@[simp] theorem applyReset_source (s : State) : (applyReset s).source = none := rfl
@[simp] theorem applyReset_busyFor (s : State) : (applyReset s).busyFor = none := rfl
@[simp] theorem applyReset_inputs (s : State) : (applyReset s).inputs = s.inputs := rfl
@[simp] theorem applyReset_hostRead (s : State) : (applyReset s).hostRead = s.hostRead := rfl
@[simp] theorem applyReset_draws (s : State) : (applyReset s).draws = s.draws + 2 := rfl

/-- Accepting twice is accepting once (R354). -/
@[simp] theorem accepted_accepted (s : State) : accepted (accepted s) = accepted s := rfl

/-- Destroying the sessions twice is destroying them once (R35). -/
@[simp] theorem destroySessions_destroySessions (s : State) :
    destroySessions (destroySessions s) = destroySessions s := rfl

end Sys2Proof.Machine
end

