-- ==== Sys2Proof/Laws/Command.lean ====
section
/-! SUPPORT. What each shared operation of the commands can do, said once: completion, output, the wrapper of
the class 1 commands, the sink and source commands, the stages of a pipeline, the cases of a step. -/

namespace Sys2Proof.Machine

/-! ### Completion (R351, R354, R357) -/

theorem CompletedWith.of_complete (c : Option Failure) (st : BitVec 2) {s u : State} (h : u.serr = s.serr) :
    CompletedWith c st s (complete c st u) :=
  ⟨rfl, rfl, rfl, rfl, by simp [h]⟩

theorem KeepsHostSide.refl (s : State) : KeepsHostSide s s :=
  ⟨rfl, rfl, rfl, rfl, rfl, rfl, fun _ => rfl, rfl, rfl⟩

theorem KeepsOutput.refl (s : State) : KeepsOutput s s := ⟨rfl, fun _ _ => rfl⟩

/-- `IllegalCommand` changes nothing but `STATUS` (R351). -/
theorem illegalCommand_failedPlain (s : State) : FailedPlain .illegalCommand s (illegalCommand s) :=
  ⟨CompletedWith.of_complete _ _ rfl, ⟨rfl, rfl, rfl, rfl, rfl, rfl, fun _ => rfl, rfl, rfl⟩,
    ⟨rfl, fun _ _ => rfl⟩, rfl, rfl, rfl⟩

/-- A failed class 0 command changes nothing but `STATUS` (R357). -/
theorem failPlain_failedPlain (f : Failure) (s : State) : FailedPlain f s (failPlain f (accepted s)) :=
  ⟨CompletedWith.of_complete _ _ rfl, ⟨rfl, rfl, rfl, rfl, rfl, rfl, fun _ => rfl, rfl, rfl⟩,
    ⟨rfl, fun _ _ => rfl⟩, rfl, rfl, rfl⟩

/-! ### Output (R31, R354) -/

/-- What `emitOutput` wrote is the output, if its length fits `OLEN`. -/
theorem outputBytes_emitOutput (out : List Byte) (s : State) (h : out.length < 2 ^ 32) :
    outputBytes (emitOutput out s) = out := by
  simp only [outputBytes, emitOutput, BitVec.toNat_ofNat, Nat.mod_eq_of_lt h]
  exact Memory.readBytes_writeBytes _ _ _

theorem olen_emitOutput (out : List Byte) (s : State) (h : out.length < 2 ^ 32) :
    (emitOutput out s).olen.toNat = out.length := by
  simpa [emitOutput] using h

/-- The bytes of an output are all listed. -/
theorem emitOutput_listed (out : List Byte) (s : State) (a : Nat) (h : a < out.length) :
    lookupCell a (emitOutput out s).obuf.cells = some out[a] := by
  simp [emitOutput, Memory.lookup_writeBytes, h]

/-- Writing below `cap` keeps every listed address below `cap`. -/
theorem cellsBelow_writeCells {cap a : Nat} (b : Byte) {cells : List Host.Cell} (ha : a < cap)
    (h : cellsBelow cap cells = true) : cellsBelow cap (writeCells a b cells) = true := by
  induction cells with
  | nil => simp [writeCells, cellsBelow, ha]
  | cons c rest ih =>
    obtain ⟨c, x⟩ := c
    simp only [cellsBelow, List.all_cons, Bool.and_eq_true, decide_eq_true_eq] at h ih ⊢
    simp only [writeCells]
    split
    · simp [ha, h.1, h.2]
    · split
      · simp [ha, h.2]
      · simp [h.1, ih h.2]

/-- `MemWrite` inside the capacity keeps every listed address below it. -/
theorem cellsBelow_writeBytes {cap : Nat} (m : Memory) (a : Nat) (bs : List Byte) (ha : a + bs.length ≤ cap)
    (h : cellsBelow cap m.cells = true) : cellsBelow cap (m.writeBytes a bs).cells = true := by
  induction bs generalizing m a with
  | nil => exact h
  | cons b bs ih =>
    simp only [List.length_cons] at ha
    exact ih (m.write a b) (a + 1) (by omega) (cellsBelow_writeCells b (by omega) h)

/-! ### The class 1 wrapper (R354 to R356) -/

/-- A class 1 command that failed leaves no output (R356). -/
theorem failClass1_failed (f : Failure) (st : BitVec 2) (s : State) :
    FailedClass1 f st s (failClass1 f st (destroySessions (accepted s))) :=
  ⟨CompletedWith.of_complete _ _ rfl, ⟨rfl, rfl, rfl, rfl, rfl, rfl, fun _ => rfl, rfl, rfl⟩, rfl, rfl, rfl, rfl⟩

/-- A class 1 command that succeeded leaves its result (R355). -/
theorem succeed_delivered (out : List Byte) (s : State) (h : out.length < 2 ^ 32) :
    Delivered out s (succeed (emitOutput out (destroySessions (accepted s)))) :=
  ⟨CompletedWith.of_complete _ _ rfl, ⟨rfl, rfl, rfl, rfl, rfl, rfl, fun _ => rfl, rfl, rfl⟩, rfl, rfl, rfl,
    olen_emitOutput out s h, outputBytes_emitOutput out _ h⟩

/-- A capacity that is admissible keeps every length that fits it below `2^32`. -/
theorem length_lt_of_cap {c : Config} (h : c.ok = true) {n : Nat} (hn : n ≤ c.bufCap) : n < 2 ^ 32 := by
  simp [Config.ok] at h; omega

/-- Everything the end of the wrapper can do. -/
theorem finishClass1_cases (r : Except (Failure × BitVec 2) (List Byte)) (s : State) (hc : s.cfg.ok = true) :
    (∀ e st, r = .error (e, st) → FailedClass1 e st s (finishClass1 r (destroySessions (accepted s)))) ∧
    (∀ out, r = .ok out → s.cfg.bufCap < out.length →
      FailedClass1 .resourceExhausted 0 s (finishClass1 r (destroySessions (accepted s)))) ∧
    (∀ out, r = .ok out → out.length ≤ s.cfg.bufCap →
      Delivered out s (finishClass1 r (destroySessions (accepted s)))) := by
  refine ⟨?_, ?_, ?_⟩
  · rintro e st rfl
    exact failClass1_failed e st s
  · rintro out rfl h
    simpa [finishClass1, h] using failClass1_failed .resourceExhausted 0 s
  · rintro out rfl h
    simpa [finishClass1, Nat.not_lt.mpr h] using succeed_delivered out s (length_lt_of_cap hc h)

theorem inputTooLong_eq_false {s : State} (h : s.ilen.toNat ≤ s.cfg.bufCap) : inputTooLong s = false := by
  simpa [inputTooLong] using h

theorem inputTooLong_eq_true {s : State} (h : s.cfg.bufCap < s.ilen.toNat) : inputTooLong s = true := by
  simpa [inputTooLong] using h

theorem codecCommand_tooLong (f : List Byte → Except Failure (List Byte)) {s : State}
    (h : s.cfg.bufCap < s.ilen.toNat) : codecCommand f s = illegalCommand s := by
  simp [codecCommand, inputTooLong_eq_true h]

theorem codecCommand_of_fits (f : List Byte → Except Failure (List Byte)) {s : State}
    (h : s.ilen.toNat ≤ s.cfg.bufCap) :
    codecCommand f s
      = finishClass1 ((f (inputBytes s)).mapError (fun e => (e, 0))) (destroySessions (accepted s)) := by
  simp [codecCommand, inputTooLong_eq_false h]

theorem pipeCommand_tooLong (f : List CodecUnit → List Byte → Except (Failure × BitVec 2) (List Byte)) {s : State}
    (h : s.cfg.bufCap < s.ilen.toNat) : pipeCommand f s = illegalCommand s := by
  simp [pipeCommand, inputTooLong_eq_true h]

theorem pipeCommand_illegal (f : List CodecUnit → List Byte → Except (Failure × BitVec 2) (List Byte)) {s : State}
    (h : pipeStages s.pipe = none) : pipeCommand f s = illegalCommand s := by
  simp only [pipeCommand, h]; split <;> rfl

theorem pipeCommand_of_fits (f : List CodecUnit → List Byte → Except (Failure × BitVec 2) (List Byte)) {s : State}
    {us : List CodecUnit} (h : s.ilen.toNat ≤ s.cfg.bufCap) (hp : pipeStages s.pipe = some us) :
    pipeCommand f s = finishClass1 (f us (inputBytes s)) (destroySessions (accepted s)) := by
  simp [pipeCommand, inputTooLong_eq_false h, hp]

/-- The 18 codec commands are the wrapper over their functions. -/
theorem exec_codecFunction {i : Instr} {f : List Byte → Except Failure (List Byte)} (s : State)
    (h : codecFunction i = some f) : exec i s = .next (codecCommand f s) := by
  cases i <;> simp only [codecFunction, Option.some.injEq, reduceCtorEq] at h <;> subst h <;> rfl

/-! ### Sessions (R135, R144 to R149) -/

/-- Everything appending bits to the host's sink can do. -/
theorem sinkCommand_cases (n : Nat) (put : Sink → Sink) (s : State) :
    (s.sink = none → sinkCommand n put s = illegalCommand s) ∧
    ∀ k, s.sink = some k →
      (8 * s.cfg.bufCap < k.bitCount + n → sinkCommand n put s = failPlain .resourceExhausted (accepted s)) ∧
      (k.bitCount + n ≤ 8 * s.cfg.bufCap → sinkCommand n put s = succeed (setSink (some (put k)) (accepted s))) := by
  refine ⟨fun h => by simp [sinkCommand, h], fun k h => ⟨fun hn => ?_, fun hn => ?_⟩⟩
  · simp [sinkCommand, h, hn]
  · simp [sinkCommand, h, Nat.not_lt.mpr hn]

/-- Everything reading bits of the host's source can do. -/
theorem sourceCommand_cases (n : Nat) (s : State) :
    (s.source = none → sourceCommand n s = illegalCommand s) ∧
    ∀ r, s.source = some r →
      (8 * r.len < r.pos + n → sourceCommand n s = failPlain .endOfStream (accepted s)) ∧
      (r.pos + n ≤ 8 * r.len →
        sourceCommand n s = succeed (setRdata (gatherBits s.ibuf.read n r.pos 0)
          (setSource (some ⟨r.len, r.pos + n⟩) (accepted s)))) := by
  refine ⟨fun h => by simp [sourceCommand, h], fun r h => ⟨fun hn => ?_, fun hn => ?_⟩⟩
  · simp [sourceCommand, h, Source.readBits, hn]
  · simp [sourceCommand, h, Source.readBits, Nat.not_lt.mpr hn]

theorem setSink_succeeded (k : Option Sink) (s : State) :
    SucceededPlain k s.source s.rdata s (succeed (setSink k (accepted s))) :=
  ⟨CompletedWith.of_complete _ _ rfl, ⟨rfl, rfl, rfl, rfl, rfl, rfl, fun _ => rfl, rfl, rfl⟩,
    ⟨rfl, fun _ _ => rfl⟩, rfl, rfl, rfl⟩

theorem setSource_succeeded (r : Option Source) (s : State) :
    SucceededPlain s.sink r s.rdata s (succeed (setSource r (accepted s))) :=
  ⟨CompletedWith.of_complete _ _ rfl, ⟨rfl, rfl, rfl, rfl, rfl, rfl, fun _ => rfl, rfl, rfl⟩,
    ⟨rfl, fun _ _ => rfl⟩, rfl, rfl, rfl⟩

theorem setRdata_succeeded (v : Word64) (r : Option Source) (s : State) :
    SucceededPlain s.sink r v s (succeed (setRdata v (setSource r (accepted s)))) :=
  ⟨CompletedWith.of_complete _ _ rfl, ⟨rfl, rfl, rfl, rfl, rfl, rfl, fun _ => rfl, rfl, rfl⟩,
    ⟨rfl, fun _ _ => rfl⟩, rfl, rfl, rfl⟩

/-! ### The stages of a pipeline (R330, R331) -/

theorem runStages_nil (cap : Nat) (f : CodecUnit → List Byte → Except Failure (List Byte)) (b : List Byte) :
    runStages cap f [] b = .ok b := rfl

theorem runStages_cons_ok {cap : Nat} {f : CodecUnit → List Byte → Except Failure (List Byte)} {u : CodecUnit}
    {b r : List Byte} (st : Nat) (rest : List (CodecUnit × Nat)) (h : f u b = .ok r) (hr : r.length ≤ cap) :
    runStages cap f ((u, st) :: rest) b = runStages cap f rest r := by
  simp [runStages, h, Nat.not_lt.mpr hr]

theorem runStages_cons_error {cap : Nat} {f : CodecUnit → List Byte → Except Failure (List Byte)} {u : CodecUnit}
    {b : List Byte} {e : Failure} (st : Nat) (rest : List (CodecUnit × Nat)) (h : f u b = .error e) :
    runStages cap f ((u, st) :: rest) b = .error (e, BitVec.ofNat 2 st) := by
  simp [runStages, h]

theorem runStages_cons_long {cap : Nat} {f : CodecUnit → List Byte → Except Failure (List Byte)} {u : CodecUnit}
    {b r : List Byte} (st : Nat) (rest : List (CodecUnit × Nat)) (h : f u b = .ok r) (hr : cap < r.length) :
    runStages cap f ((u, st) :: rest) b = .error (.resourceExhausted, BitVec.ofNat 2 st) := by
  simp [runStages, h, hr]

/-- A descriptor names two or three stages. -/
theorem pipeStages_length {p : Word32} {us : List CodecUnit} (h : pipeStages p = some us) :
    us.length = 2 ∨ us.length = 3 := by
  simp only [pipeStages] at h
  split at h
  · cases h
  · split at h
    · split at h
      · split at h
        · cases h; exact .inl rfl
        · cases h
      · split at h
        · split at h
          · cases h; exact .inr rfl
          · cases h
        · cases h
    · cases h

/-! ### The cases of a step (R71, R73, R395) -/

theorem step_idle_nil {s : State} (hb : s.busyFor = none) (hi : s.inputs = []) : step s = .next s := by
  simp [step, machineStep, takeInput, hb, hi]

theorem step_idle_cons {s : State} {e : HostEvent} {rest : List HostEvent} (hb : s.busyFor = none)
    (hi : s.inputs = e :: rest) : step s = hostEvent e { s with inputs := rest } := by
  simp [step, machineStep, takeInput, hb, hi]

theorem step_flight_nil {s : State} {k : Nat} (hb : s.busyFor = some (k + 1)) (hi : s.inputs = []) :
    step s = .next { s with busyFor := some k } := by
  simp [step, machineStep, takeInput, hb, hi]

theorem step_flight_cons {s : State} {k : Nat} {e : HostEvent} {rest : List HostEvent}
    (hb : s.busyFor = some (k + 1)) (hi : s.inputs = e :: rest) :
    step s = hostEvent e { s with busyFor := some k, inputs := rest } := by
  simp [step, machineStep, takeInput, hb, hi]

theorem step_complete {s : State} (hb : s.busyFor = some 0) :
    step s = runWord s.cmd { s with busyFor := none } := by
  simp [step, machineStep, finishCommand, hb]

/-- Everything a step can do. -/
theorem step_cases (s : State) :
    (∃ rest e, s.inputs = e :: rest ∧ s.busyFor ≠ some 0 ∧
      step s = hostEvent e { s with busyFor := s.busyFor.map (· - 1), inputs := rest }) ∨
    (s.inputs = [] ∧ s.busyFor ≠ some 0 ∧ step s = .next { s with busyFor := s.busyFor.map (· - 1) }) ∨
    (s.busyFor = some 0 ∧ step s = runWord s.cmd { s with busyFor := none }) := by
  obtain hb | ⟨k, hb⟩ : s.busyFor = none ∨ ∃ k, s.busyFor = some k := by
    cases h : s.busyFor <;> simp
  · cases hi : s.inputs with
    | nil => exact .inr (.inl ⟨rfl, by simp [hb], by
        rw [step_idle_nil hb hi]
        exact congrArg _ (by cases s; simp_all)⟩)
    | cons e rest => exact .inl ⟨rest, e, rfl, by simp [hb], by
        rw [step_idle_cons hb hi]
        exact congrArg _ (by cases s; simp_all)⟩
  · cases k with
    | zero => exact .inr (.inr ⟨hb, step_complete hb⟩)
    | succ k =>
      cases hi : s.inputs with
      | nil => exact .inr (.inl ⟨rfl, by simp [hb], by rw [step_flight_nil hb hi, hb, hi]; rfl⟩)
      | cons e rest => exact .inl ⟨rest, e, rfl, by simp [hb], by rw [step_flight_cons hb hi, hb]; rfl⟩

/-- A decoded word runs as its command. -/
theorem runWord_ok {w : Word32} {i : Instr} (s : State) (h : decode w = .ok i) : runWord w s = exec i s := by
  simp [runWord, h]

theorem runWord_error {w : Word32} {e : DecodeReject} (s : State) (h : decode w = .error e) :
    runWord w s = .next (illegalCommand s) := by
  simp [runWord, h]

end Sys2Proof.Machine
end

