-- ==== Sys2Proof/Laws/PerInstr.lean ====
section
/-! SUPPORT. Facts about every command as syntax, one lemma per constructor. -/

namespace Sys2Proof.Laws

/-- The fields of an encoded command read back (30_encoding.md R90): `RSV` is 0, `OPC` and `N` are the
command's, and the code names the command again (R95). -/
def EncodedFields.Statement (i : Instr) : Prop :=
  wordReserved (encode i) = 0 ∧ wordOpc (encode i) = opcodeOf i ∧ wordCount (encode i) = countOf i
    ∧ instrOfOpcode (opcodeOf i) (countOf i) = some i

/-- The three fields of a word put together from them. -/
theorem fields_of_append (n opc : BitVec 8) :
    wordReserved (0#16 ++ n ++ opc) = 0 ∧ wordOpc (0#16 ++ n ++ opc) = opc ∧ wordCount (0#16 ++ n ++ opc) = n := by
  refine ⟨?_, ?_, ?_⟩ <;>
  · apply BitVec.eq_of_getLsbD_eq
    intro i hi
    simp only [wordReserved, wordOpc, wordCount, BitVec.getLsbD_append, BitVec.getLsbD_extractLsb']
    interval_cases i <;> simp

theorem EncodedFields.bsWopen : EncodedFields.Statement .bsWopen :=
  have h := fields_of_append (countOf .bsWopen) (opcodeOf .bsWopen)
  ⟨h.1, h.2.1, h.2.2, rfl⟩

theorem EncodedFields.bsWbit : EncodedFields.Statement .bsWbit :=
  have h := fields_of_append (countOf .bsWbit) (opcodeOf .bsWbit)
  ⟨h.1, h.2.1, h.2.2, rfl⟩

theorem EncodedFields.bsWbits (n : BitVec 8) : EncodedFields.Statement (.bsWbits n) :=
  have h := fields_of_append (countOf (.bsWbits n)) (opcodeOf (.bsWbits n))
  ⟨h.1, h.2.1, h.2.2, rfl⟩

theorem EncodedFields.bsFinish : EncodedFields.Statement .bsFinish :=
  have h := fields_of_append (countOf .bsFinish) (opcodeOf .bsFinish)
  ⟨h.1, h.2.1, h.2.2, rfl⟩

theorem EncodedFields.bsRopen : EncodedFields.Statement .bsRopen :=
  have h := fields_of_append (countOf .bsRopen) (opcodeOf .bsRopen)
  ⟨h.1, h.2.1, h.2.2, rfl⟩

theorem EncodedFields.bsRbit : EncodedFields.Statement .bsRbit :=
  have h := fields_of_append (countOf .bsRbit) (opcodeOf .bsRbit)
  ⟨h.1, h.2.1, h.2.2, rfl⟩

theorem EncodedFields.bsRbits (n : BitVec 8) : EncodedFields.Statement (.bsRbits n) :=
  have h := fields_of_append (countOf (.bsRbits n)) (opcodeOf (.bsRbits n))
  ⟨h.1, h.2.1, h.2.2, rfl⟩

theorem EncodedFields.bsAtend : EncodedFields.Statement .bsAtend :=
  have h := fields_of_append (countOf .bsAtend) (opcodeOf .bsAtend)
  ⟨h.1, h.2.1, h.2.2, rfl⟩

theorem EncodedFields.deltaEnc : EncodedFields.Statement .deltaEnc :=
  have h := fields_of_append (countOf .deltaEnc) (opcodeOf .deltaEnc)
  ⟨h.1, h.2.1, h.2.2, rfl⟩

theorem EncodedFields.dodEnc : EncodedFields.Statement .dodEnc :=
  have h := fields_of_append (countOf .dodEnc) (opcodeOf .dodEnc)
  ⟨h.1, h.2.1, h.2.2, rfl⟩

theorem EncodedFields.dodfEnc : EncodedFields.Statement .dodfEnc :=
  have h := fields_of_append (countOf .dodfEnc) (opcodeOf .dodfEnc)
  ⟨h.1, h.2.1, h.2.2, rfl⟩

theorem EncodedFields.xorfEnc : EncodedFields.Statement .xorfEnc :=
  have h := fields_of_append (countOf .xorfEnc) (opcodeOf .xorfEnc)
  ⟨h.1, h.2.1, h.2.2, rfl⟩

theorem EncodedFields.chimpEnc : EncodedFields.Statement .chimpEnc :=
  have h := fields_of_append (countOf .chimpEnc) (opcodeOf .chimpEnc)
  ⟨h.1, h.2.1, h.2.2, rfl⟩

theorem EncodedFields.huffEnc : EncodedFields.Statement .huffEnc :=
  have h := fields_of_append (countOf .huffEnc) (opcodeOf .huffEnc)
  ⟨h.1, h.2.1, h.2.2, rfl⟩

theorem EncodedFields.grEnc : EncodedFields.Statement .grEnc :=
  have h := fields_of_append (countOf .grEnc) (opcodeOf .grEnc)
  ⟨h.1, h.2.1, h.2.2, rfl⟩

theorem EncodedFields.bpEnc : EncodedFields.Statement .bpEnc :=
  have h := fields_of_append (countOf .bpEnc) (opcodeOf .bpEnc)
  ⟨h.1, h.2.1, h.2.2, rfl⟩

theorem EncodedFields.rleEnc : EncodedFields.Statement .rleEnc :=
  have h := fields_of_append (countOf .rleEnc) (opcodeOf .rleEnc)
  ⟨h.1, h.2.1, h.2.2, rfl⟩

theorem EncodedFields.pipeEnc : EncodedFields.Statement .pipeEnc :=
  have h := fields_of_append (countOf .pipeEnc) (opcodeOf .pipeEnc)
  ⟨h.1, h.2.1, h.2.2, rfl⟩

theorem EncodedFields.deltaDec : EncodedFields.Statement .deltaDec :=
  have h := fields_of_append (countOf .deltaDec) (opcodeOf .deltaDec)
  ⟨h.1, h.2.1, h.2.2, rfl⟩

theorem EncodedFields.dodDec : EncodedFields.Statement .dodDec :=
  have h := fields_of_append (countOf .dodDec) (opcodeOf .dodDec)
  ⟨h.1, h.2.1, h.2.2, rfl⟩

theorem EncodedFields.dodfDec : EncodedFields.Statement .dodfDec :=
  have h := fields_of_append (countOf .dodfDec) (opcodeOf .dodfDec)
  ⟨h.1, h.2.1, h.2.2, rfl⟩

theorem EncodedFields.xorfDec : EncodedFields.Statement .xorfDec :=
  have h := fields_of_append (countOf .xorfDec) (opcodeOf .xorfDec)
  ⟨h.1, h.2.1, h.2.2, rfl⟩

theorem EncodedFields.chimpDec : EncodedFields.Statement .chimpDec :=
  have h := fields_of_append (countOf .chimpDec) (opcodeOf .chimpDec)
  ⟨h.1, h.2.1, h.2.2, rfl⟩

theorem EncodedFields.huffDec : EncodedFields.Statement .huffDec :=
  have h := fields_of_append (countOf .huffDec) (opcodeOf .huffDec)
  ⟨h.1, h.2.1, h.2.2, rfl⟩

theorem EncodedFields.grDec : EncodedFields.Statement .grDec :=
  have h := fields_of_append (countOf .grDec) (opcodeOf .grDec)
  ⟨h.1, h.2.1, h.2.2, rfl⟩

theorem EncodedFields.bpDec : EncodedFields.Statement .bpDec :=
  have h := fields_of_append (countOf .bpDec) (opcodeOf .bpDec)
  ⟨h.1, h.2.1, h.2.2, rfl⟩

theorem EncodedFields.rleDec : EncodedFields.Statement .rleDec :=
  have h := fields_of_append (countOf .rleDec) (opcodeOf .rleDec)
  ⟨h.1, h.2.1, h.2.2, rfl⟩

theorem EncodedFields.pipeDec : EncodedFields.Statement .pipeDec :=
  have h := fields_of_append (countOf .pipeDec) (opcodeOf .pipeDec)
  ⟨h.1, h.2.1, h.2.2, rfl⟩

end Sys2Proof.Laws
end

