-- ==== Sys2Proof/Tests/Slice0.lean ====
section
/-! SUPPORT. Tests of the model: refused terms and words, words written out from the encoding, the vectors of
95_test_vectors.md (each test names its vector), and a witness for the hypotheses of every statement. -/

open Sys2Proof Sys2Proof.Machine

namespace Sys2Proof.Tests

-- The tests are checked one after the other, so that no more than one kernel evaluation waits at a time.
set_option Elab.async false

/-! ### Small states -/

/-- Bytes listed one after the other from an address on. -/
def cellsFrom (a : Nat) : List Byte → List Host.Cell
  | [] => []
  | b :: bs => (a, b) :: cellsFrom (a + 1) bs

/-- An engine whose host has loaded `bs` and written `ILEN`. -/
def loaded (bs : List Byte) (s : State) : State :=
  { s with ibuf := ⟨cellsFrom 0 bs, 0⟩, ilen := BitVec.ofNat 32 bs.length }

theorem test_lookup_cellsFrom (bs : List Byte) (a c : Nat) (h : c < bs.length) :
    lookupCell (a + c) (cellsFrom a bs) = some bs[c] := by
  induction bs generalizing a c with
  | nil => simp at h
  | cons b bs ih =>
    cases c with
    | zero => simp [cellsFrom, lookupCell]
    | succ c =>
      have := ih (a + 1) c (by simpa using h)
      simp only [cellsFrom, lookupCell]
      rw [if_neg (by omega), show a + (c + 1) = a + 1 + c by omega, this]
      rfl

/-- What the host loaded is the input. -/
theorem test_inputBytes_loaded (bs : List Byte) (s : State) (h : bs.length < 2 ^ 32) :
    inputBytes (loaded bs s) = bs := by
  apply List.ext_getElem?
  intro i
  simp only [inputBytes, loaded, BitVec.toNat_ofNat, Nat.mod_eq_of_lt h, Memory.getElem?_readBytes, Memory.read]
  split
  · rename_i hi
    rw [test_lookup_cellsFrom bs 0 i hi, List.getElem?_eq_getElem hi, Option.getD_some]
  · rename_i hi
    rw [List.getElem?_eq_none (by omega)]

/-- An engine whose host is about to act. -/
def acting (es : List HostEvent) (s : State) : State := { s with inputs := es }

/-- An engine with a command word in flight for `k` more steps. -/
def flying (w : Word32) (k : Nat) (s : State) : State := { s with cmd := w, busyFor := some k }

/-- A fact about every entry of a list, checked entry by entry. -/
theorem test_all_of {α : Type} (l : List α) (P : α → Prop) [DecidablePred P]
    (h : l.all (fun a => decide (P a)) = true) : ∀ a ∈ l, P a := by
  simpa using h

/-- The outcome is a next state that passes a check. -/
def passes (r : Result) (p : State → Bool) : Bool :=
  match r with
  | .next t => p t
  | .fault _ => false
  | .refused _ => false

/-- A command completed with `OK` and this output. -/
def gives (out : List Byte) (r : Result) : Bool := passes r fun t => t.err.isNone && t.done && outputBytes t == out

/-- A command completed with this failure and no output. -/
def fails (f : Failure) (r : Result) : Bool := passes r fun t => t.err == some f && t.done && t.olen == 0

/-- The word that `CMD` is given next, on a machine that has just been reset. -/
def afterReset (w : Nat) : Result := step (State.reset.withFetchWord 32 w)

/-! ### Well-formedness: ill-formed terms are refused (R91 check 3) -/

theorem test_wbits_65_is_ill_formed : (Instr.bsWbits 65).wellFormed = false := by decide
theorem test_rbits_65_is_ill_formed : (Instr.bsRbits 65).wellFormed = false := by decide
theorem test_rbits_255_is_ill_formed : (Instr.bsRbits 255).wellFormed = false := by decide
theorem test_counts_up_to_64_are_well_formed :
    (Instr.bsWbits 64).wellFormed = true ∧ (Instr.bsRbits 64).wellFormed = true
      ∧ (Instr.bsWbits 0).wellFormed = true := by decide
theorem test_run_time_guard_of_wbits :
    passes (exec (.bsWbits 65) { State.reset with sink := some Sink.empty }) (fun t => t.err == some .illegalCommand) = true := by
  decide

/-! ### Decoding: refused words, by name (R91, V70) -/

theorem test_reserved_bits_are_refused : decode 0x00010017#32 = .error .reservedBits := by decide
theorem test_top_bit_is_refused : decode 0x80000001#32 = .error .reservedBits := by decide
theorem test_unknown_opcode_is_refused : decode 0x00000019#32 = .error (.unknownOpcode 0x19) := by decide
theorem test_reserved_checked_before_opcode : decode 0x00010000#32 = .error .reservedBits := by decide
theorem test_count_65_is_refused : decode 0x00004103#32 = .error (.badCount 65) := by decide
theorem test_count_without_operand_is_refused : decode 0x00000117#32 = .error (.badCount 1) := by decide
theorem test_opcode_checked_before_count : decode 0x0000FF99#32 = .error (.unknownOpcode 0x99) := by decide

/-! ### Decoding: words written out field by field, RSV then N then OPC (R90, R95) -/

theorem test_decode_sink_commands :
    decode (0b0000000000000000#16 ++ 0b00000000#8 ++ 0b00000001#8) = .ok .bsWopen
    ∧ decode (0b0000000000000000#16 ++ 0b00000000#8 ++ 0b00000010#8) = .ok .bsWbit
    ∧ decode (0b0000000000000000#16 ++ 0b00001001#8 ++ 0b00000011#8) = .ok (.bsWbits 9)
    ∧ decode (0b0000000000000000#16 ++ 0b00000000#8 ++ 0b00000100#8) = .ok .bsFinish := by decide

theorem test_decode_source_commands :
    decode (0b0000000000000000#16 ++ 0b00000000#8 ++ 0b00000101#8) = .ok .bsRopen
    ∧ decode (0b0000000000000000#16 ++ 0b00000000#8 ++ 0b00000110#8) = .ok .bsRbit
    ∧ decode (0b0000000000000000#16 ++ 0b01000000#8 ++ 0b00000111#8) = .ok (.bsRbits 64)
    ∧ decode (0b0000000000000000#16 ++ 0b00000000#8 ++ 0b00001000#8) = .ok .bsAtend := by decide

theorem test_decode_delta_family :
    decode (0b0000000000000000#16 ++ 0b00000000#8 ++ 0b00010000#8) = .ok .deltaEnc
    ∧ decode (0b0000000000000000#16 ++ 0b00000000#8 ++ 0b10010000#8) = .ok .deltaDec
    ∧ decode (0b0000000000000000#16 ++ 0b00000000#8 ++ 0b00010001#8) = .ok .dodEnc
    ∧ decode (0b0000000000000000#16 ++ 0b00000000#8 ++ 0b10010001#8) = .ok .dodDec
    ∧ decode (0b0000000000000000#16 ++ 0b00000000#8 ++ 0b00010010#8) = .ok .dodfEnc
    ∧ decode (0b0000000000000000#16 ++ 0b00000000#8 ++ 0b10010010#8) = .ok .dodfDec := by decide

theorem test_decode_float_family :
    decode (0b0000000000000000#16 ++ 0b00000000#8 ++ 0b00010011#8) = .ok .xorfEnc
    ∧ decode (0b0000000000000000#16 ++ 0b00000000#8 ++ 0b10010011#8) = .ok .xorfDec
    ∧ decode (0b0000000000000000#16 ++ 0b00000000#8 ++ 0b00010100#8) = .ok .chimpEnc
    ∧ decode (0b0000000000000000#16 ++ 0b00000000#8 ++ 0b10010100#8) = .ok .chimpDec := by decide

theorem test_decode_huff :
    decode (0b0000000000000000#16 ++ 0b00000000#8 ++ 0b00010101#8) = .ok .huffEnc
    ∧ decode (0b0000000000000000#16 ++ 0b00000000#8 ++ 0b10010101#8) = .ok .huffDec := by decide

theorem test_decode_packing_family :
    decode (0b0000000000000000#16 ++ 0b00000000#8 ++ 0b00010110#8) = .ok .grEnc
    ∧ decode (0b0000000000000000#16 ++ 0b00000000#8 ++ 0b10010110#8) = .ok .grDec
    ∧ decode (0b0000000000000000#16 ++ 0b00000000#8 ++ 0b00010111#8) = .ok .bpEnc
    ∧ decode (0b0000000000000000#16 ++ 0b00000000#8 ++ 0b10010111#8) = .ok .bpDec := by decide

theorem test_decode_rle_and_pipe :
    decode (0b0000000000000000#16 ++ 0b00000000#8 ++ 0b00011000#8) = .ok .rleEnc
    ∧ decode (0b0000000000000000#16 ++ 0b00000000#8 ++ 0b10011000#8) = .ok .rleDec
    ∧ decode (0b0000000000000000#16 ++ 0b00000000#8 ++ 0b00011111#8) = .ok .pipeEnc
    ∧ decode (0b0000000000000000#16 ++ 0b00000000#8 ++ 0b10011111#8) = .ok .pipeDec := by decide

/-! ### The first command after reset (V70) -/

theorem test_first_wopen : passes (afterReset 0x00000001) (fun t => statusWord t == 0x00000402#32) = true := by decide
theorem test_first_ropen : passes (afterReset 0x00000005) (fun t => statusWord t == 0x00000802#32) = true := by decide
theorem test_first_finish_is_illegal :
    passes (afterReset 0x00000004) (fun t => statusWord t == 0x00001052#32 && t.cmd == 0x00000004#32) = true := by decide
theorem test_first_bad_word_is_illegal :
    passes (afterReset 0x00004103) (fun t => statusWord t == 0x00001052#32 && t.cmd == 0x00004103#32) = true := by decide
theorem test_first_rle_of_nothing :
    passes (afterReset 0x00000018) (fun t => statusWord t == 0x00000002#32 && t.olen == 0) = true := by decide
theorem test_first_huff_dec_of_nothing_is_truncated :
    passes (afterReset 0x00000095) (fun t => statusWord t == 0x00001022#32) = true := by decide
theorem test_first_pipe_with_no_descriptor_is_illegal :
    passes (afterReset 0x0000001F) (fun t => statusWord t == 0x00001052#32) = true := by decide

/-! ### Bit-stream commands (P1, V71) -/

theorem test_wbit_after_two_fields :
    passes (exec .bsWbit { State.reset with sink := some ⟨[0xBF], 0xF0, 4⟩, wdata := 1 })
      (fun t => t.sink == some ⟨[0xBF], 0xF8, 5⟩ && statusWord t == 0x00000402#32) = true := by decide
theorem test_wbits_crosses_a_byte :
    passes (exec (.bsWbits 9) { State.reset with sink := some ⟨[], 0xA0, 3⟩, wdata := 0x1FF })
      (fun t => t.sink == some ⟨[0xBF], 0xF0, 4⟩) = true := by decide
theorem test_wbits_past_the_capacity :
    passes (exec (.bsWbits 1) { State.resetOf 1 with sink := some ⟨[0], 0, 0⟩ })
      (fun t => statusWord t == 0x00001462#32 && t.sink == some ⟨[0], 0, 0⟩) = true := by decide
theorem test_wbit_past_the_capacity :
    passes (exec .bsWbit { State.resetOf 1 with sink := some ⟨[0], 0, 0⟩ })
      (fun t => statusWord t == 0x00001462#32) = true := by decide
theorem test_finish_pads :
    gives [0xBF, 0xF8] (exec .bsFinish { State.reset with sink := some ⟨[0xBF], 0xF8, 5⟩ }) = true := by decide
theorem test_ropen_too_long :
    passes (exec .bsRopen { State.resetOf 16 with ilen := 17 }) (fun t => t.err == some .illegalCommand && t.source == none)
      = true := by decide
theorem test_rbit_reads_bit_12 :
    passes (exec .bsRbit { loaded [0xBF, 0xF8] State.reset with source := some ⟨2, 12⟩ })
      (fun t => t.rdata == 1 && t.source == some ⟨2, 13⟩) = true := by decide
theorem test_rbit_at_the_end :
    passes (exec .bsRbit { loaded [0xBF, 0xF8] State.reset with source := some ⟨2, 16⟩, rdata := 1, serr := false })
      (fun t => statusWord t == 0x00001842#32 && t.rdata == 1 && t.source == some ⟨2, 16⟩) = true := by decide
theorem test_rbits_reads_nine :
    passes (exec (.bsRbits 9) { loaded [0xBF, 0xF8] State.reset with source := some ⟨2, 3⟩ })
      (fun t => t.rdata == 0x1FF && t.source == some ⟨2, 12⟩) = true := by decide
theorem test_rbits_zero_at_the_end :
    passes (exec (.bsRbits 0) { loaded [0xBF, 0xF8] State.reset with source := some ⟨2, 16⟩, rdata := 1 })
      (fun t => t.rdata == 0 && t.err == none) = true := by decide
theorem test_atend_before_and_at_the_end :
    passes (exec .bsAtend { State.reset with source := some ⟨2, 13⟩ }) (fun t => t.rdata == 0) = true
    ∧ passes (exec .bsAtend { State.reset with source := some ⟨2, 16⟩ }) (fun t => t.rdata == 1) = true := by decide

/-! ### Codec commands -/

-- V20: a falling, an equal and a wrapping step.
theorem test_delta_enc :
    gives [0, 0, 0, 0, 0, 0, 0, 0x64, 0x13, 0x0A, 0x00]
      (exec .deltaEnc (loaded (bytesOf64 [100, 90, 95, 95]) State.reset)) = true := by decide +kernel
-- V20: the sum wraps.
theorem test_delta_dec_wraps :
    gives (bytesOf64 [0x7FFFFFFFFFFFFFFF, 0x8000000000000000])
      (exec .deltaDec (loaded [0x7F, 0xFF, 0xFF, 0xFF, 0xFF, 0xFF, 0xFF, 0xFF, 0x02] State.reset)) = true := by
  decide +kernel
-- V20: a tenth byte above 1.
theorem test_delta_dec_bad_varint :
    fails .malformedInput (exec .deltaDec (loaded
      [0, 0, 0, 0, 0, 0, 0, 1, 0xFF, 0xFF, 0xFF, 0xFF, 0xFF, 0xFF, 0xFF, 0xFF, 0xFF, 0x02] State.reset)) = true := by
  decide +kernel
-- S6: the timestamp scenario.
theorem test_dod_enc :
    gives [0x00, 0x00, 0x01, 0x8B, 0x1F, 0x77, 0x64, 0x00, 0x14, 0x00]
      (exec .dodEnc (loaded (bytesOf64 [1697040000000, 1697040000010, 1697040000020]) State.reset)) = true := by
  decide +kernel
-- V21.
theorem test_dod_dec :
    gives (bytesOf64 [7, 17, 26]) (exec .dodDec (loaded [0, 0, 0, 0, 0, 0, 0, 7, 0x14, 0x01] State.reset)) = true := by
  decide +kernel
theorem test_dod_dec_cut_raw_value :
    fails .truncatedStream (exec .dodDec (loaded [0, 0, 0, 0, 0, 0, 0] State.reset)) = true := by decide +kernel
-- V22: `[-2^62, 0]`.
theorem test_dodf_enc :
    gives (bytesOf64 [0x7FFFFFFFFFFFFFFF, 0x8000000000000000])
      (exec .dodfEnc (loaded (bytesOf64 [0xC000000000000000, 0]) State.reset)) = true := by decide +kernel
-- V22.
theorem test_dodf_dec :
    gives (bytesOf64 [5, 15, 24]) (exec .dodfDec (loaded (bytesOf64 [10, 20, 1]) State.reset)) = true := by
  decide +kernel
-- V34: new windows and reused ones.
theorem test_xorf_enc :
    gives [0x00, 0x00, 0x00, 0x06, 0x41, 0xC0, 0x00, 0x00, 0xD0, 0x47, 0xFC, 0x31, 0xFC, 0x1B, 0x78, 0x30]
      (exec .xorfEnc (loaded (bytesOf32 [0x41C00000, 0x413F0000, 0x41270000, 0x41270001, 0x41270001, 0x41260001])
        State.reset)) = true := by decide +kernel
-- S7.
theorem test_xorf_dec :
    gives (bytesOf32 [0x41C00000, 0x41C00000, 0x41C08000])
      (exec .xorfDec (loaded [0x00, 0x00, 0x00, 0x03, 0x41, 0xC0, 0x00, 0x00, 0x70, 0x06] State.reset)) = true := by
  decide +kernel
-- V35: a reuse record with no window yet.
theorem test_xorf_dec_no_window :
    fails .malformedInput (exec .xorfDec (loaded [0x00, 0x00, 0x00, 0x02, 0x41, 0xC0, 0x00, 0x00, 0x80] State.reset))
      = true := by decide +kernel
-- V40: the second slot of the history.
theorem test_chimp_enc :
    gives [0x00, 0x00, 0x00, 0x06, 0x41, 0xC0, 0x00, 0x00, 0xD0, 0x47, 0xFC, 0x00, 0x63, 0xF8, 0x34, 0x00, 0x04]
      (exec .chimpEnc (loaded (bytesOf32 [0x41C00000, 0x413F0000, 0x41270000, 0x41270001, 0x41270001, 0x41260001])
        State.reset)) = true := by decide +kernel
theorem test_chimp_dec :
    gives (bytesOf32 [0x41C00000, 0x413F0000, 0x41270000, 0x41270001, 0x41270001, 0x41260001])
      (exec .chimpDec (loaded
        [0x00, 0x00, 0x00, 0x06, 0x41, 0xC0, 0x00, 0x00, 0xD0, 0x47, 0xFC, 0x00, 0x63, 0xF8, 0x34, 0x00, 0x04]
        State.reset)) = true := by decide +kernel
-- V43: an index that no window was stored at.
theorem test_chimp_dec_empty_slot :
    fails .malformedInput
      (exec .chimpDec (loaded [0x00, 0x00, 0x00, 0x02, 0x41, 0xC0, 0x00, 0x00, 0x80, 0x00] State.reset)) = true := by
  decide +kernel
-- V45: `AABBC`.
theorem test_huff_enc :
    gives [0, 3, 0x41, 0, 0, 0, 2, 0x42, 0, 0, 0, 2, 0x43, 0, 0, 0, 1, 0, 0, 0, 5, 0xF2]
      (exec .huffEnc (loaded [0x41, 0x41, 0x42, 0x42, 0x43] State.reset)) = true := by decide +kernel
theorem test_huff_enc_one_symbol :
    gives [0, 1, 0x41, 0, 0, 0, 4, 0, 0, 0, 4, 0] (exec .huffEnc (loaded [0x41, 0x41, 0x41, 0x41] State.reset))
      = true := by decide +kernel
-- V46.
theorem test_huff_dec :
    gives [0x41, 0x41, 0x41, 0x42] (exec .huffDec (loaded
      [0, 2, 0x41, 0, 0, 0, 3, 0x42, 0, 0, 0, 1, 0, 0, 0, 4, 0xE0, 0xFF, 0xFF] State.reset)) = true := by
  decide +kernel
theorem test_huff_dec_table_not_rising :
    fails .malformedInput (exec .huffDec (loaded
      [0, 2, 0x42, 0, 0, 0, 1, 0x41, 0, 0, 0, 1, 0, 0, 0, 2, 0x40] State.reset)) = true := by decide +kernel
-- V50.
theorem test_gr_enc :
    gives [0, 0, 0, 4, 0x07, 0x86, 0xA0] (exec .grEnc (loaded (bytesOf64 [0, 7, 8, 21]) State.reset)) = true := by
  decide +kernel
theorem test_gr_enc_2048 :
    fails .unsupportedValue (exec .grEnc (loaded (bytesOf64 [8, 2048]) State.reset)) = true := by decide +kernel
theorem test_gr_dec :
    gives (bytesOf64 [0, 7, 8, 21]) (exec .grDec (loaded [0, 0, 0, 4, 0x07, 0x86, 0xA1] State.reset)) = true := by
  decide +kernel
theorem test_gr_dec_256_ones :
    fails .malformedInput (exec .grDec (loaded ([0, 0, 0, 1] ++ List.replicate 32 0xFF) State.reset)) = true := by
  decide +kernel
-- V53.
theorem test_bp_enc :
    gives [0, 0, 0, 3, 2, 0xD8] (exec .bpEnc (loaded (bytesOf64 [3, 1, 2]) State.reset)) = true := by decide +kernel
theorem test_bp_enc_negative :
    fails .unsupportedValue (exec .bpEnc (loaded (bytesOf64 [3, 0xFFFFFFFFFFFFFFFF, 2]) State.reset)) = true := by
  decide +kernel
theorem test_bp_dec :
    gives (bytesOf64 [1000, 1001, 999])
      (exec .bpDec (loaded [0, 0, 0, 3, 0x0A, 0xFA, 0x3E, 0x9F, 0x9C] State.reset)) = true := by decide +kernel
theorem test_bp_dec_width_0 :
    fails .malformedInput (exec .bpDec (loaded [0, 0, 0, 5, 0] State.reset)) = true := by decide +kernel
-- V56: the function itself on the run of 300, a short run through the command.
theorem test_rle_enc_long_run :
    rleEnc (List.replicate 300 0x41) = .ok [0x41, 0xFF, 0x41, 0x2D] := by decide +kernel
theorem test_rle_enc :
    gives [0x41, 0x03, 0x42, 0x01] (exec .rleEnc (loaded [0x41, 0x41, 0x41, 0x42] State.reset)) = true := by
  decide +kernel
theorem test_rle_dec :
    gives [0x41, 0x41, 0x41, 0x42] (exec .rleDec (loaded [0x41, 0x03, 0x42, 0x01] State.reset)) = true := by
  decide +kernel
-- V71: a data failure wins over a result that does not fit.
theorem test_rle_dec_data_failure_first :
    fails .malformedInput (exec .rleDec (loaded [0x41, 0xFF, 0x42, 0x00] (State.resetOf 16))) = true := by decide +kernel
-- V60, V61: DODF, BP, RLE.
theorem test_pipe_enc :
    gives [0x00, 0x03, 0x08, 0x01, 0x05, 0x01, 0x55, 0x01, 0x00, 0x04]
      (exec .pipeEnc { loaded (bytesOf64 [5, 15, 25, 35, 45, 55, 65, 75]) State.reset with pipe := 0x3872 }) = true := by
  decide +kernel
-- P3 step 3: the second stage fails.
theorem test_pipe_enc_failing_stage :
    passes (exec .pipeEnc { loaded (bytesOf64 [1697040000000, 1697040000010, 1697040000020]) State.reset with
      pipe := 0x3871 }) (fun t => statusWord t == 0x00001112#32 && t.olen == 0) = true := by decide +kernel
theorem test_pipe_dec :
    gives (bytesOf64 [5, 15, 25, 35, 45, 55, 65, 75])
      (exec .pipeDec { loaded [0x00, 0x03, 0x08, 0x01, 0x05, 0x01, 0x55, 0x01, 0x00, 0x04] State.reset with
        pipe := 0x3872 }) = true := by decide +kernel

/-! ### Witnesses for the hypotheses of the statements

One theorem per statement with hypotheses; each conjunct meets the hypotheses of one clause. -/

theorem test_witness_DecodeInvertsEncode : (Instr.bsWbits 64).wellFormed = true := by decide

theorem test_witness_EncodeInvertsDecode : decode 0x00004007#32 = .ok (.bsRbits 64) := by decide

theorem test_witness_IllegalWordsChangeOnlyCmdAndStatus :
    (∀ w ∈ [0x00010017#32, 0x80000001#32, 0x00000000#32, 0x00000009#32, 0x0000000F#32, 0x00000019#32, 0x0000001E#32,
        0x00000099#32, 0x0000009E#32, 0x00000020#32, 0x0000008F#32, 0x000000A0#32, 0x000000FF#32, 0x00004103#32,
        0x0000FF07#32, 0x00000117#32, 0x00000101#32],
      illegalWord w ∧ (acting [.writeCmd w 0] State.reset).busyFor = none
        ∧ (acting [.writeCmd w 0] State.reset).inputs = .writeCmd w 0 :: []) ∧
    ∀ w ∈ [0x00000001#32, 0x00000008#32, 0x00000010#32, 0x00000018#32, 0x0000001F#32, 0x00000090#32, 0x00000098#32,
        0x0000009F#32, 0x00004003#32, 0x00000007#32], ¬ illegalWord w := by
  unfold illegalWord
  exact ⟨test_all_of _ _ (by decide +kernel), test_all_of _ _ (by decide +kernel)⟩

theorem test_witness_IllegalWordsChangeOnlyCmdAndStatus_register :
    illegalWord 0x00000117#32 ∧ (acting [.writeReg 0 0xFFFFFFFF00000117] State.reset).busyFor = none
    ∧ (acting [.writeReg 0 0xFFFFFFFF00000117] State.reset).inputs = .writeReg 0 0xFFFFFFFF00000117 :: []
    ∧ (0xFFFFFFFF00000117#64).setWidth 32 = 0x00000117#32 := by
  unfold illegalWord; decide +kernel

theorem test_witness_StepRunsTheDecodedCommand :
    (acting [.writeCmd 0x00000012 0] State.reset).busyFor = none
    ∧ (acting [.writeCmd 0x00000012 0] State.reset).inputs = .writeCmd 0x00000012 0 :: []
    ∧ decode 0x00000012#32 = .ok .dodfEnc := by decide

theorem test_witness_StepRunsTheDecodedCommand_register :
    (acting [.writeReg 0 0xFFFFFFFF00004007] State.reset).busyFor = none
    ∧ (acting [.writeReg 0 0xFFFFFFFF00004007] State.reset).inputs = .writeReg 0 0xFFFFFFFF00004007 :: []
    ∧ (0xFFFFFFFF00004007#64).setWidth 32 = 0x00004007#32 ∧ decode 0x00004007#32 = .ok (.bsRbits 64) := by decide

theorem test_witness_BusyTimeChangesNoResult :
    ∀ k ∈ [0, 1, 7], (acting [.writeCmd 0x00000018 k] State.reset).busyFor = none
      ∧ (acting [.writeCmd 0x00000018 k] State.reset).inputs = [.writeCmd 0x00000018 k] :=
  test_all_of _ _ (by decide +kernel)

theorem test_witness_AccessesWhileBusyChangeNothing :
    (flying 0x18 1 State.reset).busyFor = some (0 + 1) ∧
    ∀ e ∈ [HostEvent.writeCmd 1 0, .writeCmd 1 3, .writeReg 0 1, .writeReg 6 1, .writeReg 8 1, .writeIbuf 0 1,
        .writeIbuf 4095 1, .readReg 1, .readReg 3, .readReg 5, .readReg 8, .readIbuf 0, .readIbuf 4095, .readObuf 4095],
      (acting [e] (flying 0x18 1 State.reset)).busyFor = some (0 + 1)
        ∧ (acting [e] (flying 0x18 1 State.reset)).inputs = e :: []
        ∧ 4095 < (acting [e] (flying 0x18 1 State.reset)).cfg.bufCap :=
  ⟨rfl, test_all_of _ _ (by decide +kernel)⟩

theorem test_witness_RegisterAccessesByNumber :
    ∀ num ∈ [0, 1, 2, 3, 4, 5, 6, 7, 8, 9],
      (acting [.writeReg num 0xFFFFFFFFFFFFFFFF] State.reset).busyFor = none
      ∧ (acting [.writeReg num 0xFFFFFFFFFFFFFFFF] State.reset).inputs = .writeReg num 0xFFFFFFFFFFFFFFFF :: []
      ∧ (acting [.readReg num] State.reset).inputs = .readReg num :: [] :=
  test_all_of _ _ (by decide +kernel)

theorem test_witness_CtrlWriteSetsEnableAndAcknowledges :
    ((acting [.writeReg 7 3] State.reset).inputs = .writeReg 7 3 :: []
      ∧ (acting [.writeReg 7 3] State.reset).busyFor ≠ some 0) ∧
    (acting [.writeReg 7 0] (flying 0x18 1 State.reset)).inputs = .writeReg 7 0 :: []
      ∧ (acting [.writeReg 7 0] (flying 0x18 1 State.reset)).busyFor ≠ some 0 := by decide

theorem test_witness_InterruptLineFollowsDoneAndEnable :
    (∃ t, exec .bsWopen { State.reset with ie := true } = .next t ∧ irq t = true) ∧
    ((acting [.writeReg 7 2] { State.reset with done := true }).busyFor = none
      ∧ (acting [.writeReg 7 2] { State.reset with done := true }).inputs = .writeReg 7 2 :: []
      ∧ (2#64).getLsbD 1 = true) ∧
    (acting [.writeCmd 1 (0 + 1)] { State.reset with done := true, ie := true }).inputs = .writeCmd 1 (0 + 1) :: [] ∧
    (acting [.reset] { State.reset with done := true, ie := true }).inputs = .reset :: [] :=
  ⟨⟨_, rfl, by decide⟩, by decide, by decide, by decide⟩

theorem test_witness_ResetClearsRegistersAndSessions :
    (acting [.reset] (flying 0x18 1 State.reset)).busyFor ≠ some 0
    ∧ (acting [.reset] (flying 0x18 1 State.reset)).inputs = .reset :: []
    ∧ (acting [.reset] { State.reset with serr := true, cmd := 1 }).busyFor ≠ some 0
    ∧ (acting [.reset] { State.reset with serr := true, cmd := 1 }).inputs = .reset :: [] := by decide

theorem test_witness_BufferAccessesByIndex :
    ∀ e ∈ [HostEvent.writeIbuf 0 5, .writeIbuf 4095 5, .readIbuf 4095, .readObuf 4095, .writeIbuf 4096 5, .readIbuf 4096,
        .readObuf 4096],
      (acting [e] State.reset).busyFor = none ∧ (acting [e] State.reset).inputs = e :: []
        ∧ 4095 < (acting [e] State.reset).cfg.bufCap ∧ (acting [e] State.reset).cfg.bufCap ≤ 4096 :=
  test_all_of _ _ (by decide +kernel)

theorem test_witness_ResetMeetsInvariant : ∀ cap ∈ [1, 2 ^ 32 - 1], 1 ≤ cap ∧ cap ≤ 2 ^ 32 - 1 :=
  test_all_of _ _ (by decide +kernel)

/-- A full output, a full sink, a source at its end, after a failure, a command in flight not yet begun. -/
def busyCorner : State :=
  { loaded [0x41] (State.resetOf 1) with
    obuf := (Memory.fresh 1).writeBytes 0 [0x55], olen := 1, sink := some ⟨[0xFF], 0, 0⟩, source := some ⟨1, 8⟩
    err := some .truncatedStream, stage := 2, serr := true, done := true, inputs := [.writeCmd 0x18 1] }

theorem test_witness_StepKeepsInvariant : Inv busyCorner ∧ ∃ t, step busyCorner = .next t :=
  ⟨{ cap := by decide, ibufWf := by decide, ibufIn := by decide, obufWf := by decide, obufIn := by decide
     olenFits := by decide, outputListed := by decide
     sinkOk := fun k h => by cases h; decide
     sourceOk := fun r h => by cases h; decide
     stageLegal := by decide, stageOfFailure := by decide, failureSticky := by decide, busyFlags := by decide },
    _, rfl⟩

theorem test_witness_NoCommandWritesTheHostSide : ∃ t, exec .bsWopen State.reset = .next t := ⟨_, rfl⟩

theorem test_witness_StickyErrorOnlyResetClears :
    (∃ t, exec .bsFinish State.reset = .next t ∧ t.err ≠ none) ∧
    ∃ t, step (acting [.writeCmd 1 0] { State.reset with serr := true }) = .next t :=
  ⟨⟨_, rfl, by decide⟩, _, rfl⟩

theorem test_witness_ResultsDependOnInputsAlone :
    isClass1 .rleEnc = true ∧
    ∃ t t', exec .rleEnc (loaded [7, 7] State.reset) = .next t
      ∧ exec .rleEnc { loaded [7, 7] State.reset with rdata := 9, serr := true, sink := some Sink.empty } = .next t'
      ∧ inputBytes (loaded [7, 7] State.reset)
        = inputBytes { loaded [7, 7] State.reset with rdata := 9, serr := true, sink := some Sink.empty } :=
  ⟨rfl, _, _, rfl, rfl, rfl⟩

theorem test_witness_WbitAppendsOneBit :
    State.reset.sink = none ∧
    (sinkWf ⟨[7], 0, 0⟩ = true ∧ 8 * (State.resetOf 1).cfg.bufCap < 8 * [7#8].length + 0 + 1) ∧
    sinkWf ⟨[], 0xFE, 7⟩ = true ∧ 8 * ([] : List Byte).length + 7 + 1 ≤ 8 * (State.resetOf 1).cfg.bufCap := by decide

theorem test_witness_WbitsAppendsTheLowBits :
    (64#8).toNat ≤ 64 ∧ State.reset.sink = none ∧
    (sinkWf ⟨[], 0x80, 1⟩ = true ∧ 8 * (State.resetOf 8).cfg.bufCap < 8 * ([] : List Byte).length + 1 + (64#8).toNat) ∧
    sinkWf ⟨[], 0, 0⟩ = true ∧ 8 * ([] : List Byte).length + 0 + (64#8).toNat ≤ 8 * (State.resetOf 8).cfg.bufCap := by
  decide

theorem test_witness_FinishDeliversThePaddedBits :
    State.reset.sink = none ∧ sinkWf ⟨[1], 0, 0⟩ = true ∧ (State.resetOf 1).cfg.ok = true
      ∧ Sink.bitCount ⟨[1], 0, 0⟩ ≤ 8 * (State.resetOf 1).cfg.bufCap
      ∧ sinkWf ⟨[], 0x80, 1⟩ = true ∧ Sink.bitCount ⟨[], 0x80, 1⟩ ≤ 8 * (State.resetOf 1).cfg.bufCap := by decide

theorem test_witness_RopenOpensAFreshSource :
    ({ State.resetOf 16 with ilen := 17 }).cfg.bufCap < ({ State.resetOf 16 with ilen := 17 }).ilen.toNat ∧
    ({ State.resetOf 16 with ilen := 16 }).ilen.toNat ≤ ({ State.resetOf 16 with ilen := 16 }).cfg.bufCap := by decide

theorem test_witness_RbitReadsTheNextBit :
    State.reset.source = none ∧
    (∃ r : Source, ({ State.reset with source := some ⟨1, 8⟩ }).source = some r ∧ 8 * r.len ≤ r.pos) ∧
    ∃ r : Source, ({ State.reset with source := some ⟨1, 7⟩ }).source = some r ∧ r.pos < 8 * r.len :=
  ⟨rfl, ⟨_, rfl, by decide⟩, _, rfl, by decide⟩

theorem test_witness_RbitsReadsTheNextBits :
    (64#8).toNat ≤ 64 ∧ State.reset.source = none ∧
    (∃ r : Source, ({ State.reset with source := some ⟨8, 1⟩ }).source = some r ∧ 8 * r.len < r.pos + (64#8).toNat) ∧
    ∃ r : Source, ({ State.reset with source := some ⟨8, 0⟩ }).source = some r ∧ r.pos + (64#8).toNat ≤ 8 * r.len :=
  ⟨by decide, rfl, ⟨_, rfl, by decide⟩, _, rfl, by decide⟩

theorem test_witness_AtendTellsWhetherABitRemains :
    State.reset.source = none ∧ ({ State.reset with source := some ⟨1, 8⟩ }).source = some ⟨1, 8⟩ := by decide

theorem test_witness_WrittenFieldsReadBack : ∀ f ∈ [((0x1FF#64), 9), (5#64, 64), (1#64, 0)], f.2 ≤ 64 :=
  test_all_of _ _ (by decide +kernel)

theorem test_witness_CodecSuccessDeliversTheResult :
    codecFunction .rleEnc = some rleEnc ∧ (loaded [1, 2, 3, 4] (State.resetOf 8)).cfg.ok = true
    ∧ (loaded [1, 2, 3, 4] (State.resetOf 8)).ilen.toNat ≤ (loaded [1, 2, 3, 4] (State.resetOf 8)).cfg.bufCap
    ∧ rleEnc (inputBytes (loaded [1, 2, 3, 4] (State.resetOf 8))) = .ok [1, 1, 2, 1, 3, 1, 4, 1]
    ∧ [1#8, 1, 2, 1, 3, 1, 4, 1].length ≤ (loaded [1, 2, 3, 4] (State.resetOf 8)).cfg.bufCap :=
  ⟨rfl, by decide, by decide, by decide, by decide⟩

theorem test_witness_CodecFailureLeavesNoOutput :
    codecFunction .rleDec = some rleDec ∧
    ((loaded [0x41, 0] (State.resetOf 8)).ilen.toNat ≤ (loaded [0x41, 0] (State.resetOf 8)).cfg.bufCap
      ∧ rleDec (inputBytes (loaded [0x41, 0] (State.resetOf 8))) = .error .malformedInput) ∧
    (loaded [0x41, 9] (State.resetOf 8)).ilen.toNat ≤ (loaded [0x41, 9] (State.resetOf 8)).cfg.bufCap
      ∧ rleDec (inputBytes (loaded [0x41, 9] (State.resetOf 8))) = .ok (List.replicate 9 0x41)
      ∧ (loaded [0x41, 9] (State.resetOf 8)).cfg.bufCap < (List.replicate 9 (0x41 : Byte)).length :=
  ⟨rfl, by decide, by decide, by decide, by decide⟩

theorem test_witness_OverlongInputIsIllegal :
    isClass1 .pipeDec = true
    ∧ ({ State.resetOf 16 with ilen := 17 }).cfg.bufCap < ({ State.resetOf 16 with ilen := 17 }).ilen.toNat := by decide

theorem test_witness_WrongColumnLengthIsMalformed :
    (∀ n ∈ [1#32, 7, 9, 15], ({ State.resetOf 16 with ilen := n }).ilen.toNat ≤ ({ State.resetOf 16 with ilen := n }).cfg.bufCap
      ∧ ({ State.resetOf 16 with ilen := n }).ilen.toNat % 8 ≠ 0) ∧
    ∀ n ∈ [1#32, 3, 5, 15], ({ State.resetOf 16 with ilen := n }).ilen.toNat ≤ ({ State.resetOf 16 with ilen := n }).cfg.bufCap
      ∧ ({ State.resetOf 16 with ilen := n }).ilen.toNat % 4 ≠ 0 :=
  ⟨test_all_of _ _ (by decide +kernel), test_all_of _ _ (by decide +kernel)⟩

theorem test_witness_DescriptorCheck :
    (∀ p ∈ [0x00000000#32, 0x00001072#32, 0x00002972#32, 0x00002872#32, 0x00007872#32, 0x00003972#32, 0x00003897#32,
        0x00003879#32, 0x80002010#32],
      ¬ legalDescriptor p ∧ ({ State.reset with pipe := p }).pipe = p
        ∧ ({ State.reset with pipe := p }).ilen.toNat ≤ ({ State.reset with pipe := p }).cfg.bufCap) ∧
    ∀ p ∈ [0x00003872#32, 0x00002051#32, 0x00002000#32, 0x00003888#32], legalDescriptor p := by
  unfold legalDescriptor
  exact ⟨test_all_of _ _ (by decide +kernel), test_all_of _ _ (by decide +kernel)⟩

theorem test_witness_DescriptorCheck_stages :
    pipeStages 0x00003872#32 = some [.dodf, .bp, .rle] ∧ pipeStages 0x00002081#32 = some [.dod, .rle]
    ∧ ([CodecUnit.dodf, .bp, .rle])[2]? = some .rle ∧ ([CodecUnit.dod, .rle])[0]? = some .dod := by decide +kernel

/-- Four equal bytes before RLE then HUFF, and what each stage gives. -/
def piped (cap : Nat) (bs : List Byte) (p : Word32) : State := { loaded bs (State.resetOf cap) with pipe := p }

theorem test_witness_PipeEncChainsTheEncoders :
    ((piped 18 [65, 65] 0x2058).cfg.ok = true ∧ (piped 18 [65, 65] 0x2058).ilen.toNat ≤ (piped 18 [65, 65] 0x2058).cfg.bufCap
      ∧ pipeStages (piped 18 [65, 65] 0x2058).pipe = some [.rle, .huff]
      ∧ Chain unitEnc (piped 18 [65, 65] 0x2058).cfg.bufCap [.rle, .huff] (inputBytes (piped 18 [65, 65] 0x2058))
          [0, 2, 2, 0, 0, 0, 1, 65, 0, 0, 0, 1, 0, 0, 0, 2, 0x80]) ∧
    ([CodecUnit.rle, .bp] = [.rle] ++ .bp :: [] ∧ Chain unitEnc 16 [.rle] (inputBytes (piped 16 [65, 65] 0x2078)) [65, 2]
      ∧ unitEnc .bp [65, 2] = .error .malformedInput) ∧
    Chain unitEnc 16 [.rle] (inputBytes (piped 16 [65, 65] 0x2058)) [65, 2]
      ∧ unitEnc .huff [65, 2] = .ok [0, 2, 2, 0, 0, 0, 1, 65, 0, 0, 0, 1, 0, 0, 0, 2, 0x80]
      ∧ 16 < [0#8, 2, 2, 0, 0, 0, 1, 65, 0, 0, 0, 1, 0, 0, 0, 2, 0x80].length :=
  ⟨⟨by decide +kernel, by decide +kernel, by decide +kernel, .stage _ _ _ [65, 2] _ (by decide) (by decide)
      (.stage _ _ _ _ _ (by decide +kernel) (by decide) (.done _))⟩,
    ⟨rfl, .stage _ _ _ [65, 2] _ (by decide) (by decide) (.done _), by decide⟩,
    .stage _ _ _ [65, 2] _ (by decide) (by decide) (.done _), by decide +kernel, by decide⟩

theorem test_witness_PipeDecChainsTheDecodersBackwards :
    ((piped 20 [0, 2, 2, 0, 0, 0, 1, 65, 0, 0, 0, 1, 0, 0, 0, 2, 0x80] 0x2058).cfg.ok = true
      ∧ pipeStages (piped 20 [0, 2, 2, 0, 0, 0, 1, 65, 0, 0, 0, 1, 0, 0, 0, 2, 0x80] 0x2058).pipe = some [.rle, .huff]
      ∧ Chain unitDec 20 [CodecUnit.rle, .huff].reverse
          (inputBytes (piped 20 [0, 2, 2, 0, 0, 0, 1, 65, 0, 0, 0, 1, 0, 0, 0, 2, 0x80] 0x2058)) [65, 65]) ∧
    ([CodecUnit.dodf, .rle] = [.dodf] ++ .rle :: [] ∧ Chain unitDec 20 [].reverse [65] [65]
      ∧ unitDec .rle [65] = .error .truncatedStream) ∧
    Chain unitDec 20 [CodecUnit.rle].reverse [65, 2] [65, 65] ∧ unitDec .dodf [65, 65] = .error .malformedInput
      ∧ unitDec .rle [65, 21] = .ok (List.replicate 21 65) ∧ 20 < (List.replicate 21 (65 : Byte)).length :=
  ⟨⟨by decide +kernel, by decide +kernel, .stage _ _ _ [65, 2] _ (by decide +kernel) (by decide)
      (.stage _ _ _ _ _ (by decide) (by decide) (.done _))⟩,
    ⟨rfl, .done _, by decide⟩, .stage _ _ _ _ _ (by decide) (by decide) (.done _), by decide +kernel, by decide +kernel, by decide⟩

/-- `PIPE.ENC` as the wrapper over its chain. -/
theorem test_exec_pipeEnc (s : State) : exec .pipeEnc s = .next (pipeCommand (pipeEncode s.cfg.bufCap) s) := rfl

/-- What `PIPE.ENC` with RLE then HUFF makes of two equal bytes. -/
def pipedBytes : List Byte := [0, 2, 2, 0, 0, 0, 1, 65, 0, 0, 0, 1, 0, 0, 0, 2, 0x80]

theorem test_witness_PipelineRoundTrip :
    (piped 32 [65, 65] 0x2058).cfg.ok = true ∧
    (∃ t, exec .pipeEnc (piped 32 [65, 65] 0x2058) = .next t ∧ t.err = none ∧ outputBytes t = pipedBytes) ∧
    (piped 32 pipedBytes 0x2058).cfg = (piped 32 [65, 65] 0x2058).cfg
      ∧ (piped 32 pipedBytes 0x2058).pipe = (piped 32 [65, 65] 0x2058).pipe
      ∧ inputBytes (piped 32 pipedBytes 0x2058) = pipedBytes :=
  ⟨by decide, ⟨_, test_exec_pipeEnc (piped 32 [65, 65] 0x2058), by decide +kernel, by decide +kernel⟩, rfl, rfl,
    test_inputBytes_loaded pipedBytes (State.resetOf 32) (by decide)⟩

theorem test_witness_VarintDecoderAnswers :
    [0x80#8].length ≤ 1 ∧ (∀ n, ∀ b ∈ List.replicate n (0x80 : Byte), 128 ≤ b.toNat) ∧ (List.replicate 9 (0x80 : Byte)).length ≤ 9 ∧
    ((List.replicate 9 (0x80 : Byte)).length = 9 ∧ 2 ≤ (0x02 : Byte).toNat ∧ 2 ≤ (0x80 : Byte).toNat) ∧
    ((List.replicate 9 (0x80 : Byte)).length = 9 ∧ (0x01 : Byte).toNat < 128 ∧ (0x01 : Byte).toNat ≤ 1) ∧
    (List.replicate 8 (0x80 : Byte)).length ≤ 9 ∧ (0x7F : Byte).toNat < 128 :=
  ⟨by decide, fun n b h => by rw [List.eq_of_mem_replicate h]; decide, by decide, by decide, by decide, by decide⟩

/-- The capacity is admissible and the input fits it: the hypotheses of most statements on a codec command. -/
def ready (s : State) : Bool := s.cfg.ok && decide (s.ilen.toNat ≤ s.cfg.bufCap)

/-- A column whose deltas take one, two and ten bytes. -/
def steps : List Word64 := [100, 90, 290, 0x8000000000000000]

theorem test_witness_DeltaEncWritesTheStream :
    ready (loaded (bytesOf64 steps) (State.resetOf 32)) = true
    ∧ inputBytes (loaded (bytesOf64 steps) (State.resetOf 32)) = bytesOf64 steps ∧ (deltaStream steps).length ≤ 32 := by
  decide +kernel

theorem test_witness_DeltaDecInvertsDeltaEnc :
    ready (loaded (deltaStream steps) (State.resetOf 32)) = true
    ∧ inputBytes (loaded (deltaStream steps) (State.resetOf 32)) = deltaStream steps ∧ (bytesOf64 steps).length ≤ 32 := by
  decide +kernel

theorem test_isVarint (pre : List Byte) (b : Byte) (h : (pre.all fun x => decide (128 ≤ x.toNat)) = true)
    (hb : b.toNat < 128) (hl : pre.length ≤ 9) (h9 : pre.length = 9 → b.toNat ≤ 1) : IsVarint (pre ++ [b]) :=
  ⟨pre, b, rfl, by simpa using h, hb, hl, h9⟩

/-- A varint with a redundant zero group and one of ten bytes. -/
def looseVarints : List (List Byte) := [[0x80, 0x00], List.replicate 9 0xFF ++ [0x01]]

theorem test_looseVarints : ∀ w ∈ looseVarints, IsVarint w := by
  intro w h
  simp only [looseVarints, List.mem_cons, List.not_mem_nil, or_false] at h
  rcases h with rfl | rfl
  · exact test_isVarint [0x80] 0x00 (by decide) (by decide) (by decide) (by decide)
  · exact test_isVarint (List.replicate 9 0xFF) 0x01 (by decide) (by decide) (by decide) (by decide)

/-- A stream of the raw value 7 and the loose varints, then `tail`. -/
def looseStream (tail : List Byte) : List Byte := bytesBe64 7 ++ looseVarints.flatten ++ tail

theorem test_witness_DeltaDecInvertsDeltaEnc_streams :
    (∀ bs ∈ [[1#8], [1, 2, 3, 4, 5, 6, 7]], ready (loaded bs (State.resetOf 24)) = true
      ∧ 0 < (loaded bs (State.resetOf 24)).ilen.toNat ∧ (loaded bs (State.resetOf 24)).ilen.toNat < 8) ∧
    (∀ w ∈ looseVarints, IsVarint w) ∧
    (∀ tail ∈ [[], [0x80#8], List.replicate 9 0x80, List.replicate 9 0x80 ++ 0x02 :: [1]],
      ready (loaded (looseStream tail) (State.resetOf 40)) = true
        ∧ inputBytes (loaded (looseStream tail) (State.resetOf 40)) = looseStream tail) ∧
    8 * (looseVarints.length + 1) ≤ 24 ∧
    (ready (loaded (looseStream []) (State.resetOf 23)) = true ∧ 23 < 8 * (looseVarints.length + 1)) ∧
    (∀ x ∈ List.replicate 9 (0x80 : Byte), 128 ≤ x.toNat) ∧ (List.replicate 9 (0x80 : Byte)).length = 9
      ∧ 2 ≤ (0x02 : Byte).toNat :=
  ⟨test_all_of _ _ (by decide +kernel), test_looseVarints, test_all_of _ _ (by decide +kernel), by decide, by decide +kernel,
    fun x h => by rw [List.eq_of_mem_replicate h]; decide, by decide, by decide⟩

theorem test_witness_DodEncWritesTheStream :
    ready (loaded (bytesOf64 steps) (State.resetOf 32)) = true
    ∧ inputBytes (loaded (bytesOf64 steps) (State.resetOf 32)) = bytesOf64 steps ∧ (dodStream steps).length ≤ 32 := by
  decide +kernel

theorem test_witness_DodDecInvertsDodEnc :
    ready (loaded (dodStream steps) (State.resetOf 32)) = true
    ∧ inputBytes (loaded (dodStream steps) (State.resetOf 32)) = dodStream steps ∧ (bytesOf64 steps).length ≤ 32 := by
  decide +kernel

theorem test_witness_DodDecInvertsDodEnc_streams :
    (∀ w ∈ looseVarints, IsVarint w) ∧
    (∀ tail ∈ [[], [0x80#8], List.replicate 9 0x80, List.replicate 9 0x80 ++ 0x02 :: [1]],
      ready (loaded (looseStream tail) (State.resetOf 40)) = true
        ∧ inputBytes (loaded (looseStream tail) (State.resetOf 40)) = looseStream tail) ∧
    (ready (loaded [9] (State.resetOf 40)) = true ∧ (loaded [9] (State.resetOf 40)).ilen.toNat < 8) ∧
    ready (loaded (looseStream []) (State.resetOf 23)) = true ∧ 23 < 8 * (looseVarints.length + 1) :=
  ⟨test_looseVarints, test_all_of _ _ (by decide +kernel), by decide, by decide +kernel⟩

theorem test_witness_DodfIsABijectionOnColumns :
    ready (loaded (bytesOf64 steps) (State.resetOf 32)) = true
    ∧ inputBytes (loaded (bytesOf64 steps) (State.resetOf 32)) = bytesOf64 steps
    ∧ ready (loaded (dodfStream steps) (State.resetOf 32)) = true
    ∧ inputBytes (loaded (dodfStream steps) (State.resetOf 32)) = dodfStream steps := by decide +kernel

theorem test_witness_ConstantColumnsEncodeShort :
    (ready (loaded (bytesOf64 (List.replicate (0 + 1) 7)) (State.resetOf 8)) = true
      ∧ ready (loaded (bytesOf64 (List.replicate (3 + 1) 7)) (State.resetOf 32)) = true
      ∧ inputBytes (loaded (bytesOf64 (List.replicate (0 + 1) 7)) (State.resetOf 8)) = bytesOf64 (List.replicate (0 + 1) 7)
      ∧ inputBytes (loaded (bytesOf64 (List.replicate (3 + 1) 7)) (State.resetOf 32))
        = bytesOf64 (List.replicate (3 + 1) 7)) ∧
    ready (loaded (bytesOf32 (List.replicate (9 + 1) 7)) (State.resetOf 40)) = true ∧
    inputBytes (loaded (bytesOf32 (List.replicate (9 + 1) 7)) (State.resetOf 40)) = bytesOf32 (List.replicate (9 + 1) 7)
      ∧ 8 + (9 + 7) / 8 ≤ 40 := by decide +kernel

/-- A column of patterns with an equal step, new windows and reused ones. -/
def floats : List Word32 := [0x41C00000, 0x413F0000, 0x41270000, 0x41270001, 0x41270001, 0x41260001]

theorem test_witness_XorfEncWritesTheStream :
    ready (loaded (bytesOf32 floats) (State.resetOf 24)) = true
    ∧ inputBytes (loaded (bytesOf32 floats) (State.resetOf 24)) = bytesOf32 floats
    ∧ (floatBits (fun p => xorfBits p none) floats).length ≤ 8 * 24 := by decide +kernel

theorem test_witness_ChimpEncWritesTheStream :
    ready (loaded (bytesOf32 floats) (State.resetOf 24)) = true
    ∧ inputBytes (loaded (bytesOf32 floats) (State.resetOf 24)) = bytesOf32 floats
    ∧ (floatBits (fun p => chimpBits p []) floats).length ≤ 8 * 24 := by decide +kernel

theorem test_witness_CountsZeros : (1#32) ≠ 0 ∧ (0x80000000#32) ≠ 0 ∧ (0xFFFFFFFF#32) ≠ 0 := by decide

/-- A float stream of `n` patterns, the first `0x41C00000`, whose records are in `bytes`. -/
def floatStream (n : Word32) (bytes : List Byte) : List Byte := bytesBe32 n ++ bytesBe32 0x41C00000 ++ bytes

/-- The short inputs of the float decoders: a cut count, the empty column with data after it, a cut first pattern. -/
theorem test_short_float_streams :
    (∀ bs ∈ [[], [0#8, 0, 1], bytesBe32 0 ++ [9], bytesBe32 1 ++ [1, 2, 3]],
      ready (loaded bs (State.resetOf 16)) = true ∧ inputBytes (loaded bs (State.resetOf 16)) = bs) ∧
    (loaded [0, 0, 1] (State.resetOf 16)).ilen.toNat < 4 ∧ [1#8, 2, 3].length < 4 :=
  ⟨test_all_of _ _ (by decide +kernel), by decide, by decide⟩

/-- Every stream of the two witnesses below is an input. -/
theorem test_long_float_streams :
    ∀ bytes ∈ [[0x70#8, 0x06], [0x80], [0xC0, 0x00, 0xFF], [0xFE, 0x10], [], [0x01], [0xC0], [0xC0, 0x20],
        [0xD0, 0x47, 0xFC, 0x00, 0x63, 0xF8, 0x34, 0x00, 0x04], [0x80, 0x00]],
      ready (loaded (floatStream 3 bytes) (State.resetOf 24)) = true
        ∧ inputBytes (loaded (floatStream 3 bytes) (State.resetOf 24)) = floatStream 3 bytes :=
  test_all_of _ _ (by decide +kernel)

theorem test_witness_XorfRoundTrip_streams :
    (∃ bs post ps st, FloatRecords 0 (fun st _ => st.getLast?) 0x41C00000 [] bs ps st
      ∧ bitsOf [0x70, 0x06] = bs ++ post ∧ ps.length + 1 = (3#32).toNat ∧ 4 * (3#32).toNat ≤ 12
      ∧ ps.length + 1 < (4#32).toNat) ∧
    (11 < 4 * (3#32).toNat ∧ ready (loaded (floatStream 3 [0x70, 0x06]) (State.resetOf 11)) = true) ∧
    (bitsOf [0x80] = [] ++ bitsOf [0x80] ∧ BadRecord 0 (fun st _ => st.getLast?) [] (bitsOf [0x80])) ∧
    BadRecord 0 (fun st _ => st.getLast?) [] (bitsOf [0xC0, 0x00, 0xFF]) ∧
    BadRecord 0 (fun st _ => st.getLast?) [] (bitsOf [0xFE, 0x10]) ∧
    CutRecord 0 (fun st _ => st.getLast?) [] (bitsOf []) ∧ CutRecord 0 (fun st _ => st.getLast?) [] (bitsOf [0xC0]) ∧
    CutRecord 0 (fun st _ => st.getLast?) [] (bitsOf [0xC0, 0x20]) ∧
    (∃ bs ps st, FloatRecords 0 (fun st _ => st.getLast?) 0x41C00000 [] bs ps st ∧ bitsOf [0x01] = bs ++ [true]
      ∧ CutRecord 0 (fun st _ => st.getLast?) st [true]) :=
  ⟨⟨_, [false], _, _, .same _ _ _ _ _ (.fresh _ _ _ _ _ 16 [true] (by decide) (by decide) (by decide) (.done _ _)),
      by decide +kernel, by decide, by decide, by decide⟩, by decide +kernel,
    ⟨rfl, .inl ⟨0, List.replicate 6 false, by decide, rfl, by decide +kernel⟩⟩,
    .inr ⟨0, 0, List.replicate 3 false ++ List.replicate 8 true, by decide, by decide, .inl rfl, by decide +kernel⟩,
    .inr ⟨31, 2, List.replicate 3 false, by decide, by decide, .inr (by decide), by decide +kernel⟩,
    .inl rfl, .inr (.inr (.inr (.inr (.inl ⟨List.replicate 6 false, by decide, by decide +kernel⟩)))),
    .inr (.inr (.inr (.inr (.inr ⟨0, 4, List.replicate 3 false, by decide, by decide, by decide, by decide +kernel⟩)))),
    ⟨_, _, _, .same _ _ _ _ _ (.same _ _ _ _ _ (.same _ _ _ _ _ (.same _ _ _ _ _ (.same _ _ _ _ _ (.same _ _ _ _ _
      (.same _ _ _ _ _ (.done _ _))))))), by decide +kernel, .inr (.inl rfl)⟩⟩

theorem test_witness_ChimpRoundTrip_streams :
    (∃ bs post ps st, FloatRecords 7 ringSlot 0x41C00000 [] bs ps st
      ∧ bitsOf [0xD0, 0x47, 0xFC, 0x00, 0x63, 0xF8, 0x34, 0x00, 0x04] = bs ++ post ∧ ps.length + 1 = (6#32).toNat
      ∧ 4 * (6#32).toNat ≤ 24 ∧ 23 < 4 * (6#32).toNat ∧ ps.length + 1 < (7#32).toNat) ∧
    BadRecord 7 ringSlot [] (bitsOf [0x80, 0x00]) ∧ BadRecord 7 ringSlot [] (bitsOf [0xC0, 0x00, 0xFF]) ∧
    BadRecord 7 ringSlot [] (bitsOf [0xFE, 0x10]) ∧
    CutRecord 7 ringSlot [] (bitsOf []) ∧ CutRecord 7 ringSlot [] (bitsOf [0x80]) ∧
    CutRecord 7 ringSlot [] (bitsOf [0xC0]) :=
  ⟨⟨_, [false, false], _, _, .fresh _ _ _ _ _ 8 (List.replicate 8 true) (by decide) (by decide) (by decide)
      (.reuse _ _ _ _ _ 0 8 16 [false, false, false, true, true, false, false, false] (by decide) (by decide) (by decide)
      (.fresh _ _ _ _ _ 31 [true] (by decide) (by decide) (by decide)
      (.same _ _ _ _ _
      (.reuse _ _ _ _ _ 0 8 16 [false, false, false, false, false, false, false, true] (by decide) (by decide) (by decide)
      (.done _ _))))), by decide +kernel, by decide, by decide, by decide, by decide⟩,
    .inl ⟨0, List.replicate 7 false, by decide, by decide, by decide +kernel⟩,
    .inr ⟨0, 0, List.replicate 3 false ++ List.replicate 8 true, by decide, by decide, .inl rfl, by decide +kernel⟩,
    .inr ⟨31, 2, List.replicate 3 false, by decide, by decide, .inr (by decide), by decide +kernel⟩,
    .inl rfl, .inr (.inr (.inl ⟨List.replicate 6 false, by decide, by decide +kernel⟩)),
    .inr (.inr (.inr (.inr (.inl ⟨List.replicate 6 false, by decide, by decide +kernel⟩))))⟩

/-- The round trips have one form of hypotheses: an encoded buffer is the input and the original fits. -/
def roundTripMet (f : List Byte → Except Failure (List Byte)) (b out : List Byte) (s : State) : Bool :=
  s.cfg.ok && decide (s.ilen.toNat ≤ s.cfg.bufCap) && decide (b.length ≤ s.cfg.bufCap) && decide (f b = .ok out)
    && inputBytes s == out

theorem test_witness_XorfRoundTrip :
    roundTripMet xorfEnc (bytesOf32 [0x41C00000, 0x41C00000, 0x41C08000]) [0, 0, 0, 3, 0x41, 0xC0, 0, 0, 0x70, 0x06]
      (loaded [0, 0, 0, 3, 0x41, 0xC0, 0, 0, 0x70, 0x06] (State.resetOf 12)) = true := by decide +kernel

theorem test_witness_ChimpRoundTrip :
    roundTripMet chimpEnc (bytesOf32 floats)
      [0, 0, 0, 6, 0x41, 0xC0, 0, 0, 0xD0, 0x47, 0xFC, 0x00, 0x63, 0xF8, 0x34, 0x00, 0x04]
      (loaded [0, 0, 0, 6, 0x41, 0xC0, 0, 0, 0xD0, 0x47, 0xFC, 0x00, 0x63, 0xF8, 0x34, 0x00, 0x04] (State.resetOf 24))
      = true := by decide +kernel

theorem test_witness_HuffRoundTrip :
    roundTripMet huffEnc [0x41, 0x42] [0, 2, 0x41, 0, 0, 0, 1, 0x42, 0, 0, 0, 1, 0, 0, 0, 2, 0x40]
      (loaded [0, 2, 0x41, 0, 0, 0, 1, 0x42, 0, 0, 0, 1, 0, 0, 0, 2, 0x40] (State.resetOf 17)) = true := by
  decide +kernel

theorem test_witness_GrRoundTrip :
    roundTripMet grEnc (bytesOf64 [0, 7, 8, 21]) [0, 0, 0, 4, 0x07, 0x86, 0xA0]
      (loaded [0, 0, 0, 4, 0x07, 0x86, 0xA0] (State.resetOf 32)) = true := by decide +kernel

theorem test_witness_GrRoundTrip_streams :
    (∀ bs ∈ [[0#8, 0, 1], [0, 0, 0, 0, 7], [0, 0, 0, 1, 0x70], [0, 0, 0, 1] ++ List.replicate 32 0xFF,
        [0, 0, 0, 1] ++ List.replicate 31 0xFF ++ [0xFE], [0, 0, 0, 1, 0xFF], [0, 0, 0, 1, 0x00]],
      ready (loaded bs (State.resetOf 40)) = true ∧ inputBytes (loaded bs (State.resetOf 40)) = bs) ∧
    (bitsOf [0x70] = [7].flatMap grBits ++ List.replicate 4 false ∧ (7#64).toNat ≤ 2047 ∧ [7#64].length = (1#32).toNat) ∧
    (8 * (1#32).toNat ≤ 8 ∧ 7 < 8 * (1#32).toNat) ∧
    List.replicate 256 true <+: bitsOf (List.replicate 32 0xFF) ∧
    bitsOf [0xFF] = List.replicate 8 true ∧
    bitsOf (List.replicate 31 0xFF ++ [0xFE]) = List.replicate 255 true ++ false :: [] ∧
    bitsOf [0x00] = [0].flatMap grBits ++ (List.replicate 0 true ++ false :: [false, false, false]) :=
  ⟨test_all_of _ _ (by decide +kernel), by decide +kernel, by decide, by decide +kernel, by decide +kernel,
    by decide +kernel, by decide +kernel⟩

theorem test_witness_HuffEncWritesTheStream :
    (∀ cap ∈ [16, 17], ready (loaded [0x41, 0x42] (State.resetOf cap)) = true) ∧
    (huffBits [(0x41, 1), (0x42, 1)] (huffCode [(0x41, 1), (0x42, 1)]) [0x41, 0x42]).length ≤ 8 * 17 ∧
    8 * 16 < (huffBits [(0x41, 1), (0x42, 1)] (huffCode [(0x41, 1), (0x42, 1)]) [0x41, 0x42]).length ∧
    (∃ root, buildTree [(0x41, 1), (0x42, 1)] = some root) ∧ [(0x41#8, 4)].length = 1 :=
  ⟨test_all_of _ _ (by decide +kernel), by decide +kernel, by decide +kernel, ⟨_, rfl⟩, rfl⟩

theorem test_witness_HuffmanTreeCodesTheTable :
    popMin [.leaf 3 0 0x41, .leaf 1 1 0x42] = some (.leaf 1 1 0x42, [.leaf 3 0 0x41]) ∧
    (AscendingTable [(0x41, 3), (0x42, 1)] ∧ [(0x41#8, 3), (0x42, 1)] ≠ [] ∧ 2 ≤ [(0x41#8, 3), (0x42, 1)].length) ∧
    AscendingTable [(0x41, 3)] ∧ [(0x41#8, 3)] ≠ [] ∧ [(0x41#8, 3)].length = 1 := by
  unfold AscendingTable; decide

theorem test_witness_HuffRoundTrip_streams :
    (∀ bs ∈ [[], [0#8], [1, 1], [0, 1, 65, 0, 0, 0], [0, 1, 65, 0, 0, 0, 0], [0, 2, 66, 0, 0, 0, 1, 66, 0, 0, 0, 1],
        [0, 0, 0, 0, 0], [0, 0, 0, 0, 0, 1], [0, 2, 65, 0, 0, 0, 1, 66, 0, 0, 0, 1, 0, 0, 0, 2, 0x40],
        [0, 1, 65, 0, 0, 0, 18, 0, 0, 0, 18, 0, 0, 0], [0, 2, 65, 0, 0, 0, 1, 66, 0, 0, 0, 1, 0, 0, 0, 2],
        [0, 1, 65, 0, 0, 0, 1, 0, 0, 0, 1, 0x80]],
      ready (loaded bs (State.resetOf 17)) = true ∧ inputBytes (loaded bs (State.resetOf 17)) = bs) ∧
    256 < 256 * (1#8).toNat + (1#8).toNat ∧
    (AscendingTable [] ∧ AscendingTable [(66, 1)] ∧ AscendingTable [(65, 1), (66, 1)] ∧ AscendingTable [(65, 18)]) ∧
    ([1#8, 65, 0, 0, 0].length = 5 ∧ [65#8, 0, 0, 0].length < 5 ∧ [0#8, 0, 0].length < 4) ∧
    [66#8, 0, 0, 0, 1, 66, 0, 0, 0, 1] = entryBytes [(66, 1)] ++ 66 :: bytesBe32 1 ∧ (∃ e ∈ [(66#8, 1)], (66#8).toNat ≤ e.1.toNat) ∧
    ([(65#8, 1), (66, 1)].map Prod.snd).sum = (2#32).toNat ∧
    bitsOf [0x40] = [65, 66].flatMap (huffCode [(65, 1), (66, 1)]) ++ List.replicate 6 false ∧
    (bitsOf [0, 0, 0] = (List.replicate 18 65).flatMap (huffCode [(65, 18)]) ++ List.replicate 6 false
      ∧ 17 < (List.replicate 18 (65 : Byte)).length) ∧
    ([] <+: huffCode [(65, 1), (66, 1)] 66 ∧ [] ≠ huffCode [(65, 1), (66, 1)] 66) ∧
    (bitsOf [0x80]).head? = some true :=
  ⟨test_all_of _ _ (by decide +kernel), by decide, by unfold AscendingTable; decide, by decide, by decide +kernel,
    ⟨(66, 1), by simp, by decide⟩, by decide, by decide +kernel, by decide +kernel, by decide +kernel, by decide⟩

theorem test_witness_GrEncWritesTheStreamOnItsDomain :
    (ready (loaded (bytesOf64 [8, 2048]) (State.resetOf 16)) = true
      ∧ ready (loaded (bytesOf64 [0, 2047]) (State.resetOf 40)) = true) ∧
    (inputBytes (loaded (bytesOf64 [8, 2048]) (State.resetOf 16)) = bytesOf64 [8, 2048]
      ∧ ∃ v ∈ [8#64, 2048], v.toInt < 0 ∨ 2047 < v.toInt) ∧
    (∃ v ∈ [0#64, 0xFFFFFFFFFFFFFFFF], v.toInt < 0 ∨ 2047 < v.toInt) ∧
    inputBytes (loaded (bytesOf64 [0, 2047]) (State.resetOf 40)) = bytesOf64 [0, 2047]
      ∧ (∀ v ∈ [0#64, 2047], 0 ≤ v.toInt ∧ v.toInt ≤ 2047)
      ∧ (fieldBits 2 32 ++ [0#64, 2047].flatMap grBits).length ≤ 8 * 40 :=
  ⟨by decide, ⟨test_inputBytes_loaded _ _ (by decide), 2048, by simp, by decide⟩, ⟨0xFFFFFFFFFFFFFFFF, by simp, by decide⟩,
    test_inputBytes_loaded _ _ (by decide), test_all_of _ _ (by decide +kernel), by decide +kernel⟩

theorem test_witness_BpEncPacksWithTheLeastWidth :
    (ready (loaded (bytesOf64 [3, 0xFFFFFFFFFFFFFFFF]) (State.resetOf 16)) = true
      ∧ ready (loaded (bytesOf64 [0, 0]) (State.resetOf 16)) = true
      ∧ ready (loaded (bytesOf64 [0x7FFFFFFFFFFFFFFF, 0]) (State.resetOf 21)) = true) ∧
    (inputBytes (loaded (bytesOf64 [3, 0xFFFFFFFFFFFFFFFF]) (State.resetOf 16)) = bytesOf64 [3, 0xFFFFFFFFFFFFFFFF]
      ∧ ∃ v ∈ [3#64, 0xFFFFFFFFFFFFFFFF], v.toInt < 0) ∧
    (inputBytes (loaded (bytesOf64 [0, 0]) (State.resetOf 16)) = bytesOf64 [0, 0]
      ∧ (∀ v ∈ [0#64, 0], 0 ≤ v.toInt ∧ v.toNat < 2 ^ 1) ∧ (bpBits 1 [0, 0]).length ≤ 8 * 16) ∧
    inputBytes (loaded (bytesOf64 [0x7FFFFFFFFFFFFFFF, 0]) (State.resetOf 21)) = bytesOf64 [0x7FFFFFFFFFFFFFFF, 0]
      ∧ (∀ v ∈ [0x7FFFFFFFFFFFFFFF#64, 0], 0 ≤ v.toInt ∧ v.toNat < 2 ^ 63)
      ∧ (∃ v ∈ [0x7FFFFFFFFFFFFFFF#64, 0], 2 ^ (63 - 1) ≤ v.toNat)
      ∧ (bpBits 63 [0x7FFFFFFFFFFFFFFF, 0]).length ≤ 8 * 21 :=
  ⟨by decide, ⟨test_inputBytes_loaded _ _ (by decide), 0xFFFFFFFFFFFFFFFF, by simp, by decide⟩,
    ⟨test_inputBytes_loaded _ _ (by decide), test_all_of _ _ (by decide +kernel), by decide +kernel⟩,
    test_inputBytes_loaded _ _ (by decide), test_all_of _ _ (by decide +kernel),
    ⟨0x7FFFFFFFFFFFFFFF, by simp, by decide⟩, by decide +kernel⟩

theorem test_witness_BpDecReadsTheFields :
    (∀ bs ∈ [[0#8, 0, 0, 5], [0, 0, 0, 5, 0], [0, 0, 0, 1, 64], [0, 0, 0, 3, 3, 0xD8]],
      ready (loaded bs (State.resetOf 16)) = true) ∧
    (loaded [0, 0, 0, 5] (State.resetOf 16)).ilen.toNat < 5 ∧ ready (loaded [0, 0, 0, 3, 2, 0xD8] (State.resetOf 24)) = true ∧
    (inputBytes (loaded [0, 0, 0, 5, 0] (State.resetOf 16)) = bytesBe32 5 ++ 0 :: []
      ∧ inputBytes (loaded [0, 0, 0, 1, 64] (State.resetOf 16)) = bytesBe32 1 ++ 64 :: [] ∧ 63 < (64#8).toNat) ∧
    (inputBytes (loaded [0, 0, 0, 3, 3, 0xD8] (State.resetOf 16)) = bytesBe32 3 ++ 3 :: [0xD8]
      ∧ 8 * [0xD8#8].length < (3#32).toNat * (3#8).toNat) ∧
    inputBytes (loaded [0, 0, 0, 3, 2, 0xD8] (State.resetOf 24)) = bytesBe32 3 ++ 2 :: [0xD8]
      ∧ [3#64, 1, 2].length = (3#32).toNat ∧ (∀ v ∈ [3#64, 1, 2], v.toNat < 2 ^ (2#8).toNat)
      ∧ bitsOf [0xD8] = ([3#64, 1, 2].flatMap fun v => fieldBits v (2#8).toNat) ++ [false, false]
      ∧ 8 * (3#32).toNat ≤ 24 :=
  ⟨test_all_of _ _ (by decide +kernel), by decide, by decide, by decide +kernel, by decide +kernel, by decide +kernel, by decide, test_all_of _ _ (by decide +kernel),
    by decide +kernel, by decide⟩

theorem test_witness_RleEncSplitsLongRuns :
    (ready (loaded (List.replicate 0 7) (State.resetOf 1)) = true ∧ ready (loaded (List.replicate 256 7) (State.resetOf 256)) = true) ∧
    (inputBytes (loaded (List.replicate 0 7) (State.resetOf 1)) = List.replicate 0 7 ∧ 2 * ((0 + 254) / 255) ≤ 1) ∧
    ∀ n ∈ [255, 256], inputBytes (loaded (List.replicate n 7) (State.resetOf 256)) = List.replicate n 7
      ∧ 2 * ((n + 254) / 255) ≤ 256 :=
  ⟨by decide +kernel, ⟨test_inputBytes_loaded _ _ (by decide), by decide⟩, fun n h =>
    ⟨test_inputBytes_loaded _ _ (by simp at h ⊢; omega), by simp at h; omega⟩⟩

theorem test_witness_RleDecExpandsThePairs :
    (∀ bs ∈ [[65#8], [65, 0], [65, 15, 66, 1]], ready (loaded bs (State.resetOf 16)) = true) ∧
    (loaded [65] (State.resetOf 16)).ilen.toNat % 2 ≠ 0 ∧
    (inputBytes (loaded [65, 0] (State.resetOf 16)) = pairBytes [(65, 0)] ∧ ∃ p ∈ [(65#8, 0#8)], p.2 = 0) ∧
    inputBytes (loaded [65, 15, 66, 1] (State.resetOf 16)) = pairBytes [(65, 15), (66, 1)]
      ∧ (∀ p ∈ [(65#8, 15#8), (66, 1)], p.2 ≠ 0) ∧ ([(65#8, 15#8), (66, 1)].map fun p => p.2.toNat).sum ≤ 16 :=
  ⟨test_all_of _ _ (by decide +kernel), by decide, ⟨by decide, (65, 0), by simp, rfl⟩, by decide, test_all_of _ _ (by decide +kernel), by decide⟩

theorem test_witness_RleRoundTrip :
    ready (loaded [65, 65, 66] (State.resetOf 4)) = true
    ∧ 2 * [(65#8, 2#8), (66, 1)].length ≤ 4 ∧ inputBytes (loaded [65, 2, 66, 1] (State.resetOf 4))
        = pairBytes [(65, 2), (66, 1)] := by decide +kernel

end Sys2Proof.Tests
end

section
/-! SUPPORT. The invariant of the state (O14, O15): what each update of the state asks for to keep it, that every
command keeps it, and that every step does. -/

namespace Sys2Proof.Machine

/-! ### Sinks inside their capacity (R33, R135) -/

/-- What the invariant asks of an open sink: its own form (R33) and room for its bits (R135). -/
def SinkFits (cap : Nat) (k : Sink) : Prop := sinkWf k = true ∧ k.bitCount ≤ 8 * cap

theorem bitCount_writeBit {k : Sink} (b : Bool) (h : sinkWf k = true) :
    (k.writeBit b).bitCount = k.bitCount + 1 := by
  obtain ⟨hwf, hbits⟩ := sinkBits_writeBit b h
  rw [← sinkBits_length hwf, ← sinkBits_length h, hbits]
  simp

theorem bitCount_writeBits {k : Sink} (v : Word64) (n : Nat) (h : sinkWf k = true) :
    (k.writeBits v n).bitCount = k.bitCount + n := by
  obtain ⟨hwf, hbits⟩ := sinkBits_writeBits v n h
  rw [← sinkBits_length hwf, ← sinkBits_length h, hbits]
  simp

theorem SinkFits.empty (cap : Nat) : SinkFits cap Sink.empty := ⟨sinkWf_empty, Nat.zero_le _⟩

theorem SinkFits.writeBit {cap : Nat} {k : Sink} (b : Bool) (h : SinkFits cap k) (hn : k.bitCount + 1 ≤ 8 * cap) :
    SinkFits cap (k.writeBit b) :=
  ⟨(sinkBits_writeBit b h.1).1, by rw [bitCount_writeBit b h.1]; exact hn⟩

theorem SinkFits.writeBits {cap : Nat} {k : Sink} (v : Word64) (n : Nat) (h : SinkFits cap k)
    (hn : k.bitCount + n ≤ 8 * cap) : SinkFits cap (k.writeBits v n) :=
  ⟨(sinkBits_writeBits v n h.1).1, by rw [bitCount_writeBits v n h.1]; exact hn⟩

theorem SinkFits.finish_length_le {cap : Nat} {k : Sink} (h : SinkFits cap k) : k.finish.length ≤ cap := by
  have hcount := h.2
  rw [finish_length h.1]
  omega

/-! ### Updates that keep the invariant

Each lemma asks for exactly what the update could break. -/

theorem Inv.latchCommand {s : State} (w : Word32) (h : Inv s) : Inv (latchCommand w s) := { h with }
theorem Inv.setRdata {s : State} (v : Word64) (h : Inv s) : Inv (setRdata v s) := { h with }
theorem Inv.hostReads {s : State} (v : Word64) (h : Inv s) : Inv (hostReads v s) := { h with }
theorem Inv.hostReadsDraw {s : State} (h : Inv s) : Inv (hostReadsDraw s) := { h with }
theorem Inv.withInputs {s : State} (es : List HostEvent) (h : Inv s) : Inv { s with inputs := es } := { h with }

theorem Inv.acknowledge {s : State} (h : Inv s) : Inv (acknowledge s) :=
  { h with busyFlags := fun hb => ⟨rfl, (h.busyFlags hb).2⟩ }

theorem Inv.accepted {s : State} (h : Inv s) : Inv (accepted s) :=
  { h with
    stageLegal := Nat.zero_le _
    stageOfFailure := fun _ => rfl
    failureSticky := fun he => absurd rfl he
    busyFlags := fun _ => ⟨rfl, rfl⟩ }

theorem Inv.complete {s : State} {c : Option Failure} {st : BitVec 2} (h : Inv s) (hst : st.toNat ≤ 2)
    (h0 : c = none → st = 0) : Inv (complete c st s) :=
  { h with
    stageLegal := hst
    stageOfFailure := h0
    failureSticky := fun hc => by simp [Option.isSome_iff_ne_none.mpr (show c ≠ none from hc)]
    busyFlags := fun hb => by simp [busy] at hb }

theorem Inv.illegalCommand {s : State} (h : Inv s) : Inv (illegalCommand s) :=
  h.accepted.complete (Nat.zero_le _) fun _ => rfl

theorem Inv.succeed {s : State} (h : Inv s) : Inv (succeed s) := h.complete (Nat.zero_le _) fun _ => rfl

theorem Inv.failPlain {s : State} (f : Failure) (h : Inv s) : Inv (failPlain f s) :=
  h.complete (Nat.zero_le _) fun _ => rfl

theorem Inv.setSink {s : State} {k : Option Sink} (h : Inv s) (hk : ∀ x, k = some x → SinkFits s.cfg.bufCap x) :
    Inv (setSink k s) := { h with sinkOk := hk }

theorem Inv.setSource {s : State} {r : Option Source} (h : Inv s)
    (hr : ∀ x, r = some x → x.len ≤ s.cfg.bufCap ∧ x.pos ≤ 8 * x.len) : Inv (setSource r s) :=
  { h with sourceOk := hr }

theorem Inv.destroySessions {s : State} (h : Inv s) : Inv (destroySessions s) :=
  { h with sinkOk := nofun, sourceOk := nofun }

/-- An output inside the capacity is listed byte for byte (R25, R32). -/
theorem Inv.emitOutput {s : State} {out : List Byte} (h : Inv s) (hlen : out.length ≤ s.cfg.bufCap) :
    Inv (emitOutput out s) := by
  have holen := olen_emitOutput out s (length_lt_of_cap h.cap hlen)
  exact
    { h with
      obufWf := Memory.wf_writeBytes 0 out (Memory.wf_fresh s.draws)
      obufIn := cellsBelow_writeBytes (Memory.fresh s.draws) 0 out ((Nat.zero_add _).trans_le hlen) rfl
      olenFits := holen ▸ hlen
      outputListed := fun a ha => by rw [emitOutput_listed out s a (holen ▸ ha)]; rfl }

theorem Inv.discardOutput {s : State} (h : Inv s) : Inv (discardOutput s) :=
  { h with
    obufWf := rfl
    obufIn := rfl
    olenFits := Nat.zero_le _
    outputListed := fun a ha => absurd ha (Nat.not_lt_zero a) }

theorem Inv.failClass1 {s : State} {f : Failure} {st : BitVec 2} (h : Inv s) (hst : st.toNat ≤ 2) :
    Inv (failClass1 f st s) := h.discardOutput.complete hst nofun

/-- `BUSY` may be shown only with the flags cleared (R24, R354). -/
theorem Inv.withBusyFor {s : State} {b : Option Nat} (h : Inv s)
    (hb : b.isSome = true → s.done = false ∧ s.err = none) : Inv { s with busyFor := b } := { h with busyFlags := hb }

/-! ### Reset (R48) -/

theorem inv_resetOf {cap : Nat} (h1 : 1 ≤ cap) (h2 : cap ≤ 2 ^ 32 - 1) : Inv (State.resetOf cap) where
  cap := Bool.and_eq_true_iff.mpr ⟨decide_eq_true h1, decide_eq_true h2⟩
  ibufWf := rfl
  ibufIn := rfl
  obufWf := rfl
  obufIn := rfl
  olenFits := Nat.zero_le _
  outputListed := fun a ha => absurd ha (Nat.not_lt_zero a)
  sinkOk := nofun
  sourceOk := nofun
  stageLegal := Nat.zero_le _
  stageOfFailure := fun _ => rfl
  failureSticky := fun he => absurd rfl he
  busyFlags := nofun

theorem Inv.applyReset {s : State} (h : Inv s) : Inv (applyReset s) := by
  have hcap := h.cap
  simp only [Config.ok, Bool.and_eq_true, decide_eq_true_eq] at hcap
  obtain ⟨hlow, hhigh⟩ := hcap
  exact { inv_resetOf hlow hhigh with }

/-- Settles O14: `State.reset` is the reset state of capacity 4096. -/
theorem resetMeetsInvariant : Obligations.ResetMeetsInvariant :=
  ⟨inv_resetOf (by decide) (by decide), fun _ => inv_resetOf⟩

/-! ### The bit-stream commands keep the invariant -/

theorem Inv.sinkCommand {s : State} {n : Nat} {put : Sink → Sink} (h : Inv s)
    (hput : ∀ k, SinkFits s.cfg.bufCap k → k.bitCount + n ≤ 8 * s.cfg.bufCap → SinkFits s.cfg.bufCap (put k)) :
    Inv (sinkCommand n put s) := by
  obtain ⟨hnone, hsome⟩ := sinkCommand_cases n put s
  cases hk : s.sink with
  | none => rw [hnone hk]; exact h.illegalCommand
  | some k =>
    obtain ⟨hfull, hroom⟩ := hsome k hk
    rcases Nat.lt_or_ge (8 * s.cfg.bufCap) (k.bitCount + n) with hn | hn
    · rw [hfull hn]; exact h.accepted.failPlain _
    · rw [hroom hn]
      refine (h.accepted.setSink ?_).succeed
      rintro _ ⟨⟩
      exact hput k (h.sinkOk k hk) hn

theorem Inv.sourceCommand {s : State} (n : Nat) (h : Inv s) : Inv (sourceCommand n s) := by
  obtain ⟨hnone, hsome⟩ := sourceCommand_cases n s
  cases hr : s.source with
  | none => rw [hnone hr]; exact h.illegalCommand
  | some r =>
    obtain ⟨hshort, hroom⟩ := hsome r hr
    rcases Nat.lt_or_ge (8 * r.len) (r.pos + n) with hn | hn
    · rw [hshort hn]; exact h.accepted.failPlain _
    · rw [hroom hn]
      refine ((h.accepted.setSource ?_).setRdata _).succeed
      rintro _ ⟨⟩
      exact ⟨(h.sourceOk r hr).1, hn⟩

theorem execBsFinish_keeps_inv {s t : State} (h : Inv s) (ht : execBsFinish s = .next t) : Inv t := by
  unfold execBsFinish at ht
  split at ht
  · cases ht; exact h.illegalCommand
  next k hk =>
    cases ht
    have hfits : k.finish.length ≤ s.cfg.bufCap := SinkFits.finish_length_le (h.sinkOk k hk)
    exact ((h.accepted.emitOutput hfits).setSink (by simp)).succeed

theorem execBsRopen_keeps_inv {s t : State} (h : Inv s) (ht : execBsRopen s = .next t) : Inv t := by
  unfold execBsRopen at ht
  split at ht
  · cases ht; exact h.illegalCommand
  next hlong =>
    cases ht
    refine (h.accepted.setSource ?_).succeed
    rintro _ ⟨⟩
    exact ⟨Nat.not_lt.mp (mt inputTooLong_eq_true hlong), Nat.zero_le _⟩

theorem execBsRbit_keeps_inv {s t : State} (h : Inv s) (ht : execBsRbit s = .next t) : Inv t := by
  unfold execBsRbit at ht
  split at ht
  · cases ht; exact h.illegalCommand
  next r hr =>
    simp only [Source.readBit] at ht
    split at ht
    · next hread =>
      cases ht
      exact h.accepted.failPlain _
    · next hread =>
      split at hread
      · cases hread
      next hroom =>
        cases hread; cases ht
        refine ((h.accepted.setSource ?_).setRdata _).succeed
        rintro _ ⟨⟩
        exact ⟨(h.sourceOk r hr).1, Nat.not_le.mp hroom⟩

theorem execBsAtend_keeps_inv {s t : State} (h : Inv s) (ht : execBsAtend s = .next t) : Inv t := by
  unfold execBsAtend at ht
  split at ht
  · cases ht; exact h.illegalCommand
  · cases ht; exact (h.accepted.setRdata _).succeed

/-! ### The class 1 commands keep the invariant -/

theorem Inv.finishClass1 {s : State} {r : Except (Failure × BitVec 2) (List Byte)} (h : Inv s)
    (hr : ∀ f st, r = .error (f, st) → st.toNat ≤ 2) : Inv (finishClass1 r s) := by
  unfold Machine.finishClass1
  split
  next f st => exact h.failClass1 (hr f st rfl)
  next out =>
    split
    · exact h.failClass1 (Nat.zero_le _)
    next hfits => exact (h.emitOutput (Nat.not_lt.mp hfits)).succeed

theorem Inv.codecCommand {s : State} (f : List Byte → Except Failure (List Byte)) (h : Inv s) :
    Inv (codecCommand f s) := by
  rcases Nat.lt_or_ge s.cfg.bufCap s.ilen.toNat with hlong | hfits
  · rw [codecCommand_tooLong f hlong]; exact h.illegalCommand
  · rw [codecCommand_of_fits f hfits]
    refine h.accepted.destroySessions.finishClass1 fun e st he => ?_
    cases hres : f (inputBytes s) with
    | error e' => rw [hres] at he; cases he; exact Nat.zero_le _
    | ok out => rw [hres] at he; cases he

theorem Inv.pipeCommand {s : State} {f : List CodecUnit → List Byte → Except (Failure × BitVec 2) (List Byte)}
    (h : Inv s)
    (hf : ∀ us inp e st, pipeStages s.pipe = some us → f us inp = .error (e, st) → st.toNat ≤ 2) :
    Inv (pipeCommand f s) := by
  rcases Nat.lt_or_ge s.cfg.bufCap s.ilen.toNat with hlong | hfits
  · rw [pipeCommand_tooLong f hlong]; exact h.illegalCommand
  · cases hp : pipeStages s.pipe with
    | none => rw [pipeCommand_illegal f hp]; exact h.illegalCommand
    | some us =>
      rw [pipeCommand_of_fits f hfits hp]
      exact h.accepted.destroySessions.finishClass1 fun e st he => hf us _ e st hp he

/-- A pipeline fails at the position of one of its stages (R330). -/
theorem runStages_error_position {cap : Nat} {f : CodecUnit → List Byte → Except Failure (List Byte)} {e : Failure}
    {st : BitVec 2} : ∀ {stages : List (CodecUnit × Nat)} {buf : List Byte},
      runStages cap f stages buf = .error (e, st) → ∃ p ∈ stages, st = BitVec.ofNat 2 p.2
  | [], _, h => by cases h
  | (u, pos) :: rest, buf, h => by
    simp only [runStages] at h
    split at h
    · cases h; exact ⟨_, List.mem_cons_self, rfl⟩
    · split at h
      · cases h; exact ⟨_, List.mem_cons_self, rfl⟩
      · obtain ⟨p, hp, hst⟩ := runStages_error_position h
        exact ⟨p, List.mem_cons_of_mem _ hp, hst⟩

/-- The position of a stage of a legal descriptor is 0, 1 or 2 (R24, R98). -/
theorem stagePosition_le_two {p : Word32} {us : List CodecUnit} (h : pipeStages p = some us) {x : CodecUnit × Nat}
    (hx : x ∈ us.zipIdx) : (BitVec.ofNat 2 x.2).toNat ≤ 2 := by
  have hlen := pipeStages_length h
  have hpos := List.snd_lt_of_mem_zipIdx hx
  rw [BitVec.toNat_ofNat]
  omega

theorem Inv.execPipeEnc {s t : State} (h : Inv s) (ht : execPipeEnc s = .next t) : Inv t := by
  cases ht
  refine h.pipeCommand fun us inp e st hus he => ?_
  obtain ⟨x, hx, rfl⟩ := runStages_error_position he
  exact stagePosition_le_two hus hx

theorem Inv.execPipeDec {s t : State} (h : Inv s) (ht : execPipeDec s = .next t) : Inv t := by
  cases ht
  refine h.pipeCommand fun us inp e st hus he => ?_
  obtain ⟨x, hx, rfl⟩ := runStages_error_position he
  exact stagePosition_le_two hus (List.mem_reverse.mp hx)

/-! ### Every command and every step keeps the invariant -/

/-- A class 1 command is one of the 18 codec commands or a pipeline command (R93, R95). -/
theorem class1_cases {i : Instr} (h : isClass1 i = true) :
    (∃ f, codecFunction i = some f) ∨ i = .pipeEnc ∨ i = .pipeDec := by
  cases i <;> simp [isClass1, codecFunction] at h ⊢

theorem exec_keeps_inv {i : Instr} {s t : State} (h : Inv s) (ht : exec i s = .next t) : Inv t := by
  cases hc : isClass1 i with
  | true =>
    obtain ⟨f, hf⟩ | rfl | rfl := class1_cases hc
    · rw [exec_codecFunction s hf] at ht
      cases ht; exact h.codecCommand f
    · exact h.execPipeEnc ht
    · exact h.execPipeDec ht
  | false =>
    cases i with
    | bsWopen =>
      cases ht
      refine (h.accepted.setSink ?_).succeed
      rintro _ ⟨⟩
      exact SinkFits.empty _
    | bsWbit => cases ht; exact h.sinkCommand fun k hk hn => hk.writeBit _ hn
    | bsWbits n =>
      simp only [exec, execBsWbits] at ht
      split at ht <;> cases ht
      · exact h.illegalCommand
      · exact h.sinkCommand fun k hk hn => hk.writeBits _ _ hn
    | bsFinish => exact execBsFinish_keeps_inv h ht
    | bsRopen => exact execBsRopen_keeps_inv h ht
    | bsRbit => exact execBsRbit_keeps_inv h ht
    | bsRbits n =>
      simp only [exec, execBsRbits] at ht
      split at ht <;> cases ht
      · exact h.illegalCommand
      · exact h.sourceCommand _
    | bsAtend => exact execBsAtend_keeps_inv h ht
    | _ => cases hc

theorem runWord_keeps_inv {w : Word32} {s t : State} (h : Inv s) (ht : runWord w s = .next t) : Inv t := by
  cases hd : decode w with
  | error e => rw [runWord_error s hd] at ht; cases ht; exact h.illegalCommand
  | ok i => rw [runWord_ok s hd] at ht; exact exec_keeps_inv h ht

theorem Inv.inFlight {s : State} (w : Word32) (k : Nat) (h : Inv s) : Inv (inFlight w k s) := by
  have hstart : Inv (if startDestroys w (Machine.accepted s) = true then Machine.destroySessions (Machine.accepted s)
      else Machine.accepted s) := by
    split
    · exact h.accepted.destroySessions
    · exact h.accepted
  refine hstart.withBusyFor fun _ => ?_
  split <;> exact ⟨rfl, rfl⟩

theorem writeCmd_keeps_inv {w : Word32} {k : Nat} {s t : State} (h : Inv s) (ht : writeCmd w k s = .next t) :
    Inv t := by
  unfold writeCmd at ht
  split at ht
  · cases ht; exact h
  · cases k with
    | zero => exact runWord_keeps_inv (h.latchCommand w) ht
    | succ k => cases ht; exact (h.latchCommand w).inFlight w k

theorem Inv.writeRegister {s : State} (num : Nat) (v : Word64) (h : Inv s) : Inv (writeRegister num v s) := by
  unfold Machine.writeRegister
  split
  iterate 3
    split
    · exact h
    · exact { h with }
  · unfold writeCtrl
    split
    · exact { h.acknowledge with }
    · exact { h with }
  · exact h

theorem Inv.readRegister {s : State} (num : Nat) (h : Inv s) : Inv (readRegister num s) := by
  unfold Machine.readRegister
  split
  · exact h.hostReadsDraw
  · exact h.hostReads _

theorem Inv.readByte {s : State} (m : Memory) (idx : Nat) (h : Inv s) : Inv (readByte m idx s) := by
  unfold Machine.readByte
  split
  · exact h.hostReadsDraw
  · exact h.hostReads _

theorem writeIbuf_keeps_inv {idx : Nat} {b : Byte} {s t : State} (h : Inv s) (ht : writeIbuf idx b s = .next t) :
    Inv t := by
  unfold writeIbuf at ht
  split at ht
  · cases ht
  next hidx =>
    split at ht
    · cases ht; exact h
    · cases ht
      exact
        { h with
          ibufWf := Memory.wf_write idx b h.ibufWf
          ibufIn := cellsBelow_writeCells b (Nat.not_le.mp hidx) h.ibufIn }

theorem hostEvent_keeps_inv {e : HostEvent} {s t : State} (h : Inv s) (ht : hostEvent e s = .next t) : Inv t := by
  cases e with
  | writeCmd w k => exact writeCmd_keeps_inv h ht
  | writeReg num v =>
    simp only [hostEvent] at ht
    split at ht
    · exact writeCmd_keeps_inv h ht
    · cases ht; exact h.writeRegister num v
  | readReg num => cases ht; exact h.readRegister num
  | writeIbuf idx b => exact writeIbuf_keeps_inv h ht
  | readIbuf idx =>
    simp only [hostEvent] at ht
    split at ht <;> cases ht
    exact h.readByte _ idx
  | readObuf idx =>
    simp only [hostEvent] at ht
    split at ht <;> cases ht
    exact h.readByte _ idx
  | reset => cases ht; exact h.applyReset

/-- A command in flight comes nearer to its completion (R395). -/
theorem Inv.countDown {s : State} (h : Inv s) : Inv { s with busyFor := s.busyFor.map (· - 1) } :=
  h.withBusyFor fun hb => h.busyFlags (by simpa [busy] using hb)

/-- Settles O15: a step is an action of the host, the passing of time or the completion of the command in flight, and
each keeps the invariant. -/
theorem stepKeepsInvariant : Obligations.StepKeepsInvariant := by
  intro s t h ht
  obtain ⟨rest, e, -, -, hs⟩ | ⟨-, -, hs⟩ | ⟨-, hs⟩ := step_cases s <;> rw [hs] at ht
  · exact hostEvent_keeps_inv (h.countDown.withInputs rest) ht
  · cases ht; exact h.countDown
  · exact runWord_keeps_inv (h.withBusyFor (by simp)) ht

end Sys2Proof.Machine
end

section
/-! SUPPORT. What a class 1 command answers depends on its input, the descriptor and the capacity alone (O19). -/

namespace Sys2Proof.Machine

/-- Two states show the same result of a command: code, stage and output (R24, R25). -/
structure SameResult (t t' : State) : Prop where
  err : t.err = t'.err
  stage : t.stage = t'.stage
  olen : t.olen = t'.olen
  output : outputBytes t = outputBytes t'

/-- `MemRead` of the first bytes a `MemWrite` at the same place wrote (R14). -/
theorem Memory.readBytes_writeBytes_take (m : Memory) (a n : Nat) (bs : List Byte) (h : n ≤ bs.length) :
    (m.writeBytes a bs).readBytes a n = bs.take n := by
  apply List.ext_getElem?
  intro i
  rw [Memory.getElem?_readBytes, List.getElem?_take]
  split
  next hi =>
    rw [Memory.read, Memory.lookup_writeBytes, if_pos (by omega), Nat.add_sub_cancel_left,
      List.getElem?_eq_getElem (by omega), Option.getD_some]
  · rfl

/-- Whatever its length, the output is what `OLEN` counts of the bytes written; no byte of it is a free value. -/
theorem outputBytes_emitOutput_eq_take (out : List Byte) (s : State) :
    outputBytes (emitOutput out s) = out.take (out.length % 2 ^ 32) := by
  rw [outputBytes, emitOutput_olen, BitVec.toNat_ofNat, emitOutput_obuf]
  exact Memory.readBytes_writeBytes_take _ _ _ _ (Nat.mod_le _ _)

theorem failClass1_sameResult (f : Failure) (st : BitVec 2) (s s' : State) :
    SameResult (failClass1 f st s) (failClass1 f st s') := ⟨rfl, rfl, rfl, rfl⟩

theorem succeed_emitOutput_sameResult (out : List Byte) (s s' : State) :
    SameResult (succeed (emitOutput out s)) (succeed (emitOutput out s')) :=
  ⟨rfl, rfl, rfl, (outputBytes_emitOutput_eq_take out s).trans (outputBytes_emitOutput_eq_take out s').symm⟩

/-- The end of the wrapper looks at nothing of the state but the capacity (R353, R354). -/
theorem finishClass1_sameResult (r : Except (Failure × BitVec 2) (List Byte)) {s s' : State} (hcfg : s.cfg = s'.cfg) :
    SameResult (finishClass1 r s) (finishClass1 r s') := by
  rcases r with ⟨f, st⟩ | out
  · exact failClass1_sameResult f st s s'
  · simp only [finishClass1, ← hcfg]
    split
    · exact failClass1_sameResult _ _ s s'
    · exact succeed_emitOutput_sameResult out s s'

/-- What O19 says of two runs of one command: the same code and stage, and the same output unless it is turned away. -/
def AgreesUnless (turnedAway : Prop) (t t' : State) : Prop :=
  t.err = t'.err ∧ t.stage = t'.stage ∧ (¬ turnedAway → t.olen = t'.olen ∧ outputBytes t = outputBytes t')

theorem SameResult.agreesUnless {t t' : State} (h : SameResult t t') (p : Prop) : AgreesUnless p t t' :=
  ⟨h.err, h.stage, fun _ => ⟨h.olen, h.output⟩⟩

theorem illegalCommand_agreesUnless (s s' : State) {p : Prop} (hp : p) :
    AgreesUnless p (illegalCommand s) (illegalCommand s') := ⟨rfl, rfl, fun h => absurd hp h⟩

section
variable {s s' : State} (hcfg : s.cfg = s'.cfg) (hilen : s.ilen = s'.ilen) (hinp : inputBytes s = inputBytes s')
include hcfg hilen hinp

theorem codecCommand_agrees (f : List Byte → Except Failure (List Byte)) :
    AgreesUnless (s.cfg.bufCap < s.ilen.toNat) (codecCommand f s) (codecCommand f s') := by
  rcases Nat.lt_or_ge s.cfg.bufCap s.ilen.toNat with hlong | hfits
  · rw [codecCommand_tooLong f hlong, codecCommand_tooLong f (hcfg ▸ hilen ▸ hlong)]
    exact illegalCommand_agreesUnless s s' hlong
  · rw [codecCommand_of_fits f hfits, codecCommand_of_fits f (hcfg ▸ hilen ▸ hfits), hinp]
    exact (finishClass1_sameResult _ (by simpa using hcfg)).agreesUnless _

theorem pipeCommand_agrees (f : List CodecUnit → List Byte → Except (Failure × BitVec 2) (List Byte))
    (hpipe : s.pipe = s'.pipe) :
    AgreesUnless (s.cfg.bufCap < s.ilen.toNat ∨ pipeStages s.pipe = none) (pipeCommand f s) (pipeCommand f s') := by
  rcases Nat.lt_or_ge s.cfg.bufCap s.ilen.toNat with hlong | hfits
  · rw [pipeCommand_tooLong f hlong, pipeCommand_tooLong f (hcfg ▸ hilen ▸ hlong)]
    exact illegalCommand_agreesUnless s s' (.inl hlong)
  · cases hp : pipeStages s.pipe with
    | none =>
      rw [pipeCommand_illegal f hp, pipeCommand_illegal f (hpipe ▸ hp)]
      exact illegalCommand_agreesUnless s s' (.inr rfl)
    | some us =>
      rw [pipeCommand_of_fits f hfits hp, pipeCommand_of_fits f (hcfg ▸ hilen ▸ hfits) (hpipe ▸ hp), hinp]
      exact (finishClass1_sameResult _ (by simpa using hcfg)).agreesUnless _

end

/-- Settles O19: a codec or pipeline command is the wrapper over a function of its input, and the wrapper looks at the
capacity, `ILEN` and `PIPE` only. -/
theorem resultsDependOnInputsAlone : Obligations.ResultsDependOnInputsAlone := by
  intro i s s' t t' hclass hcfg hilen hpipe hinp ht ht'
  obtain ⟨f, hf⟩ | hi := class1_cases hclass
  · rw [exec_codecFunction s hf] at ht
    rw [exec_codecFunction s' hf] at ht'
    cases ht; cases ht'
    obtain ⟨herr, hstage, hout⟩ := codecCommand_agrees hcfg hilen hinp f
    exact ⟨herr, hstage, fun hfits _ => hout (mt inputTooLong_eq_true hfits)⟩
  · have hpair : ∃ g, t = pipeCommand g s ∧ t' = pipeCommand g s' ∧ isPipe i = true := by
      obtain rfl | rfl := hi <;> cases ht <;> cases ht'
      · exact ⟨pipeEncode s.cfg.bufCap, rfl, by rw [hcfg], rfl⟩
      · exact ⟨pipeDecode s.cfg.bufCap, rfl, by rw [hcfg], rfl⟩
    obtain ⟨g, rfl, rfl, hisPipe⟩ := hpair
    obtain ⟨herr, hstage, hout⟩ := pipeCommand_agrees hcfg hilen hinp g hpipe
    refine ⟨herr, hstage, fun hfits hlegal => hout ?_⟩
    rintro (hlong | hnone)
    · exact hfits (inputTooLong_eq_true hlong)
    · simpa [hnone] using hlegal hisPipe

end Sys2Proof.Machine
end
section
/-! SUPPORT. The counts of zeros (R13) and the bits of the XOR float streams (O47, O49): the sinks of `XORF.ENC` and
`CHIMP.ENC` hold the reference bit strings. -/

namespace Sys2Proof.Machine

/-! ### Counts of zeros (R13) -/

/-- The highest one bit of the low `k` bits stands below the counted zeros. -/
theorem zerosAbove_bounds {w : Nat} (x : BitVec w) (k : Nat) (h : x.toNat % 2 ^ k ≠ 0) :
    zerosAbove x k < k ∧ 2 ^ (k - 1 - zerosAbove x k) ≤ x.toNat % 2 ^ k ∧
      x.toNat % 2 ^ k < 2 ^ (k - zerosAbove x k) := by
  induction k with
  | zero => simp [Nat.mod_one] at h
  | succ k ih =>
    have hbit : x.toNat % 2 ^ (k + 1) = x.toNat % 2 ^ k + 2 ^ k * (x.getLsbD k).toNat := by
      rw [Nat.mod_pow_succ, BitVec.getLsbD, Nat.testBit_eq_decide_div_mod_eq]
      rcases Nat.mod_two_eq_zero_or_one (x.toNat / 2 ^ k) with h | h <;> simp [h]
    have hlt : x.toNat % 2 ^ k < 2 ^ k := Nat.mod_lt _ (by positivity)
    simp only [zerosAbove]
    rw [hbit] at h ⊢
    cases hb : x.getLsbD k with
    | true => simp [Nat.pow_succ]; omega
    | false =>
      simp only [hb, Bool.toNat_false, Nat.mul_zero, Nat.add_zero] at h ⊢
      obtain ⟨h1, h2, h3⟩ := ih h
      simp only [Bool.false_eq_true, if_false]
      rw [show k + 1 - 1 - (zerosAbove x k + 1) = k - 1 - zerosAbove x k by omega,
        show k + 1 - (zerosAbove x k + 1) = k - zerosAbove x k by omega]
      exact ⟨by omega, h2, h3⟩

/-- The lowest one bit at or above bit `p` stands above the counted zeros. -/
theorem zerosBelow_spec {w : Nat} (x : BitVec w) (p fuel : Nat) (hlow : 2 ^ p ∣ x.toNat)
    (h : x.toNat < 2 ^ (p + fuel)) (hx : x.toNat ≠ 0) :
    zerosBelow x p fuel < fuel ∧ 2 ^ (p + zerosBelow x p fuel) ∣ x.toNat ∧
      x.toNat / 2 ^ (p + zerosBelow x p fuel) % 2 = 1 := by
  induction fuel generalizing p with
  | zero =>
    exact absurd (Nat.eq_zero_of_dvd_of_lt hlow h) hx
  | succ fuel ih =>
    simp only [zerosBelow]
    have hbit : x.getLsbD p = decide (x.toNat / 2 ^ p % 2 = 1) := by
      rw [BitVec.getLsbD, Nat.testBit_eq_decide_div_mod_eq]
    split
    next hb =>
      rw [hbit] at hb
      exact ⟨Nat.succ_pos _, hlow, by simpa using hb⟩
    next hb =>
      have heven : x.toNat / 2 ^ p % 2 = 0 := by
        rw [hbit] at hb
        simp at hb
        omega
      have hnext : 2 ^ (p + 1) ∣ x.toNat := by
        rw [Nat.pow_succ]
        exact Nat.mul_dvd_of_dvd_div hlow (Nat.dvd_of_mod_eq_zero heven)
      obtain ⟨h1, h2, h3⟩ := ih (p + 1) hnext (by rwa [Nat.add_right_comm, Nat.add_assoc])
      rw [show p + (zerosBelow x (p + 1) fuel + 1) = p + 1 + zerosBelow x (p + 1) fuel by omega]
      exact ⟨by omega, h2, h3⟩

theorem clz32_bounds {x : Word32} (hx : x ≠ 0) :
    clz32 x < 32 ∧ 2 ^ (31 - clz32 x) ≤ x.toNat ∧ x.toNat < 2 ^ (32 - clz32 x) := by
  have hmod : x.toNat % 2 ^ 32 = x.toNat := Nat.mod_eq_of_lt x.isLt
  have h := zerosAbove_bounds x 32 (by rw [hmod]; simpa [BitVec.toNat_eq] using hx)
  rwa [hmod] at h

theorem ctz32_spec {x : Word32} (hx : x ≠ 0) :
    ctz32 x < 32 ∧ 2 ^ ctz32 x ∣ x.toNat ∧ x.toNat / 2 ^ ctz32 x % 2 = 1 := by
  have h := zerosBelow_spec x 0 32 (by simp) (by simpa using x.isLt) (by simpa [BitVec.toNat_eq] using hx)
  simpa [ctz32] using h

theorem countsZeros : CountsZeros := fun _ hx =>
  have ⟨_, hlo, hhi⟩ := clz32_bounds hx
  ⟨hlo, hhi, (ctz32_spec hx).2⟩

/-- The counts of a non-zero pattern leave room for its one bits (R202). -/
theorem clz32_add_ctz32_lt {x : Word32} (hx : x ≠ 0) : clz32 x + ctz32 x < 32 := by
  obtain ⟨hlz, -, hhi⟩ := clz32_bounds hx
  obtain ⟨-, hdvd, -⟩ := ctz32_spec hx
  have hpos : 0 < x.toNat := Nat.pos_of_ne_zero (by simpa [BitVec.toNat_eq] using hx)
  have := (Nat.pow_lt_pow_iff_right (by decide : 1 < 2)).mp ((Nat.le_of_dvd hpos hdvd).trans_lt hhi)
  omega

/-! ### Columns as bits (R66) -/

theorem bitsOf_bytesBe32 (p : Word32) : bitsOf (bytesBe32 p) = fieldBits (p.setWidth 64) 32 := by
  simp [bytesBe32, bitsOf, byteBits, fieldBits]

theorem bitsOf_bytesOf32 (ps : List Word32) :
    bitsOf (bytesOf32 ps) = ps.flatMap fun p => fieldBits (p.setWidth 64) 32 := by
  induction ps with
  | nil => rfl
  | cons p ps ih => rw [bytesOf32, bitsOf_append, bitsOf_bytesBe32, ih, List.flatMap_cons]

/-! ### Sinks that hold a bit string -/

/-- The sink is in its form (R33) and holds exactly these bits. -/
def Holds (k : Sink) (bits : List Bool) : Prop := sinkWf k = true ∧ sinkBits k = bits

theorem Holds.empty : Holds Sink.empty [] := ⟨sinkWf_empty, sinkBits_empty⟩

theorem Holds.writeBit {k : Sink} {bits : List Bool} (b : Bool) (h : Holds k bits) :
    Holds (k.writeBit b) (bits ++ [b]) := h.2 ▸ sinkBits_writeBit b h.1

theorem Holds.writeBits {k : Sink} {bits : List Bool} (v : Word64) (n : Nat) (h : Holds k bits) :
    Holds (k.writeBits v n) (bits ++ fieldBits v n) := h.2 ▸ sinkBits_writeBits v n h.1

theorem Holds.writeAll {k : Sink} {bits : List Bool} (bs : List Bool) (h : Holds k bits) :
    Holds (k.writeAll bs) (bits ++ bs) := h.2 ▸ sinkBits_writeAll bs h.1

/-- A finished sink lays out its bits (R134, R64). -/
theorem Holds.laysOut {k : Sink} {bits : List Bool} (h : Holds k bits) : LaysOut k.finish bits := by
  obtain ⟨hwf, rfl⟩ := h
  have hlen := finish_length hwf
  have hnb := ((sinkWf_iff k).mp hwf).1
  refine ⟨by rw [hlen, sinkBits_length hwf], ?_⟩
  rw [bitsOf_finish hwf, hlen, sinkBits_length hwf]
  congr 2
  simp only [Sink.bitCount]
  omega

/-- A byte sequence that lays out few enough bits fits the capacity. -/
theorem LaysOut.length_le {out : List Byte} {bits : List Bool} {cap : Nat} (h : LaysOut out bits)
    (hbits : bits.length ≤ 8 * cap) : out.length ≤ cap := by
  rw [h.1]
  omega

/-! ### Windows as bits (R201, R202) -/

/-- The bits of `x` placed in a window, as the reference form writes them (R201). -/
def windowBits (x : Word32) (l t : Nat) : List Bool := fieldBits (BitVec.ofNat 64 (x.toNat / 2 ^ t)) (32 - l - t)

theorem shiftRight_setWidth64 (x : Word32) (t : Nat) :
    (x >>> t).setWidth 64 = BitVec.ofNat 64 (x.toNat / 2 ^ t) := by
  apply BitVec.eq_of_toNat_eq
  have hx : x.toNat < 2 ^ 64 := x.isLt.trans (by decide)
  rw [BitVec.toNat_setWidth, BitVec.toNat_ushiftRight, BitVec.toNat_ofNat, Nat.shiftRight_eq_div_pow]

theorem Holds.writeWindow {k : Sink} {bits : List Bool} (x : Word32) (w : Window) (h : Holds k bits) :
    Holds (writeWindow x w k) (bits ++ windowBits x w.lead w.trail) := by
  rw [Machine.writeWindow, shiftRight_setWidth64]
  exact h.writeBits _ _

theorem Holds.writeHeader {k : Sink} {bits : List Bool} (w : Window) (h : Holds k bits) :
    Holds (writeHeader w k) (bits ++ fieldBits (BitVec.ofNat 64 w.lead) 5
      ++ fieldBits (BitVec.ofNat 64 (32 - w.lead - w.trail)) 6) :=
  (h.writeBits (BitVec.ofNat 64 w.lead) 5).writeBits (BitVec.ofNat 64 (windowWidth w)) 6

/-- A new-window record after the control bits and the header (R202, R203). -/
def newWindowBits (x : Word32) : List Bool :=
  [true, true] ++ fieldBits (BitVec.ofNat 64 (clz32 x)) 5 ++ fieldBits (BitVec.ofNat 64 (32 - clz32 x - ctz32 x)) 6
    ++ windowBits x (clz32 x) (ctz32 x)

theorem Holds.newWindow {k : Sink} {bits : List Bool} (x : Word32) (h : Holds k bits) :
    Holds (Machine.writeWindow x (windowOf x) (Machine.writeHeader (windowOf x) ((k.writeBit true).writeBit true)))
      (bits ++ newWindowBits x) := by
  simpa [newWindowBits, windowOf] using (((h.writeBit true).writeBit true).writeHeader (windowOf x)).writeWindow x _

/-- The header of a float stream (R115, R116). -/
theorem floatHeader_holds (n : Nat) (p : Word32) :
    Holds (floatHeader n p) (fieldBits (BitVec.ofNat 64 n) 32 ++ fieldBits (p.setWidth 64) 32) :=
  (Holds.empty.writeBits _ _).writeBits _ _

theorem emptyFloatStream_laysOut (records : Word32 → List Word32 → List Bool) :
    LaysOut emptyFloatStream (floatBits records []) := (Holds.empty.writeBits 0 32).laysOut

/-! ### XORF (R202) -/

/-- The window of a pair of counts, as the reference forms name windows. -/
def pairWindow (w : Nat × Nat) : Window := ⟨w.1, w.2⟩

theorem fitsWindow_pairWindow (x : Word32) (w : Nat × Nat) :
    fitsWindow x (pairWindow w) = decide (w.1 ≤ clz32 x ∧ w.2 ≤ ctz32 x) :=
  (Bool.decide_and _ _).symm

theorem xorfRecords_holds (ps : List Word32) {prev : Word32} {win : Option (Nat × Nat)} {k : Sink} {bits : List Bool}
    (h : Holds k bits) : Holds (xorfRecords prev (win.map pairWindow) k ps) (bits ++ xorfBits prev win ps) := by
  induction ps generalizing prev win k bits with
  | nil => simpa [xorfRecords, xorfBits] using h
  | cons cur ps ih =>
    have hfilter : (win.map pairWindow).filter (fitsWindow (prev ^^^ cur))
        = (win.filter fun w => decide (w.1 ≤ clz32 (prev ^^^ cur) ∧ w.2 ≤ ctz32 (prev ^^^ cur))).map pairWindow := by
      cases win with
      | none => rfl
      | some w => simp only [Option.map_some, Option.filter, fitsWindow_pairWindow]; split <;> rfl
    simp only [xorfRecords, xorfBits, hfilter]
    split
    · simpa using ih (h.writeBit false)
    · cases win.filter fun w => decide (w.1 ≤ clz32 (prev ^^^ cur) ∧ w.2 ≤ ctz32 (prev ^^^ cur)) with
      | some w =>
        simpa [windowBits, pairWindow] using
          ih (((h.writeBit true).writeBit false).writeWindow (prev ^^^ cur) (pairWindow w))
      | none =>
        simpa [newWindowBits, windowBits, pairWindow, windowOf] using
          ih (win := some (clz32 (prev ^^^ cur), ctz32 (prev ^^^ cur))) (h.newWindow (prev ^^^ cur))

/-- `XORF.ENC` on a column lays out the bits of its stream (R115, R202). -/
theorem xorfEnc_laysOut (ps : List Word32) :
    ∃ out, xorfEnc (bytesOf32 ps) = .ok out ∧ LaysOut out (floatBits (fun p => xorfBits p none) ps) := by
  rw [xorfEnc, withColumn32_bytesOf32]
  cases ps with
  | nil => exact ⟨_, rfl, emptyFloatStream_laysOut _⟩
  | cons p ps => exact ⟨_, rfl, (xorfRecords_holds (win := none) ps (floatHeader_holds _ p)).laysOut⟩

/-- A codec command whose function gives a result that fits delivers it (R355). -/
theorem codec_delivers {i : Instr} {f : List Byte → Except Failure (List Byte)} {s : State} {out : List Byte}
    (hf : codecFunction i = some f) (hc : s.cfg.ok = true) (hi : s.ilen.toNat ≤ s.cfg.bufCap)
    (hout : f (inputBytes s) = .ok out) (hlen : out.length ≤ s.cfg.bufCap) :
    ∃ t, exec i s = .next t ∧ Delivered out s t := by
  refine ⟨_, exec_codecFunction s hf, ?_⟩
  rw [codecCommand_of_fits f hi, hout]
  exact (finishClass1_cases _ s hc).2.2 out rfl hlen

/-- Settles O47: the sink of `XORF.ENC` holds the reference bits, so its bytes lay them out and fit. -/
theorem xorfEncWritesTheStream : Obligations.XorfEncWritesTheStream := by
  refine ⟨countsZeros, bitsOf_bytesOf32, fun s ps hc hi hinp hfit => ?_⟩
  obtain ⟨out, hout, hlay⟩ := xorfEnc_laysOut ps
  obtain ⟨t, ht, hdel⟩ := codec_delivers (i := .xorfEnc) rfl hc hi (hinp ▸ hout) (hlay.length_le hfit)
  exact ⟨t, out, ht, hdel, hlay⟩

end Sys2Proof.Machine
end
section
/-! SUPPORT. CHIMP (O49): the history of windows is the ring of the windows stored so far (R218, R219). -/

namespace Sys2Proof.Machine

/-! ### The ring (R219) -/

/-- The slot the next window goes to holds it. -/
theorem ringSlot_append_same (stored : List (Nat × Nat)) (w : Nat × Nat) :
    ringSlot (stored ++ [w]) (stored.length % 128) = some w := by
  have hidx : stored.length % 128 + 128 * ((stored.length - stored.length % 128) / 128) = stored.length := by omega
  have hle : stored.length % 128 ≤ stored.length := Nat.mod_le _ _
  rw [ringSlot, List.length_append, List.length_singleton, if_neg (by omega), Nat.add_sub_cancel, hidx]
  exact List.getElem?_concat_length

/-- Every other slot keeps its window. -/
theorem ringSlot_append_other {stored : List (Nat × Nat)} (w : Nat × Nat) {j : Nat} (hj : j < 128)
    (hne : j ≠ stored.length % 128) : ringSlot (stored ++ [w]) j = ringSlot stored j := by
  simp only [ringSlot, List.length_append, List.length_singleton, Nat.add_sub_cancel]
  rcases Nat.lt_or_ge j stored.length with hlt | hge
  · have hidx : (stored.length - j) / 128 = (stored.length - 1 - j) / 128 := by omega
    rw [if_neg (by omega), if_neg (by omega), hidx, List.getElem?_append_left (by omega)]
  · rw [if_pos (by omega), if_pos hge]

theorem ringSlot_of_length_le {stored : List (Nat × Nat)} {j : Nat} (h : stored.length ≤ j) :
    ringSlot stored j = none := if_pos h

/-! ### The history is the ring (R39, R216, R219) -/

/-- The history after the windows `stored`, oldest first. -/
structure HoldsRing (h : History) (stored : List (Nat × Nat)) : Prop where
  size : h.slot.length = 128
  count : h.count = min stored.length 128
  next : h.wp = stored.length % 128
  slots : ∀ j < h.count, (ringSlot stored j).map pairWindow = some (slotWindow h j)

theorem freshHistory_holdsRing : HoldsRing freshHistory [] where
  size := List.length_replicate
  count := rfl
  next := rfl
  slots := fun j hj => absurd hj (Nat.not_lt_zero j)

theorem slotWindow_appendWindow {h : History} (w : Window) {j : Nat} (hwp : h.wp < h.slot.length) :
    slotWindow (appendWindow w h) j = if j = h.wp then w else slotWindow h j := by
  simp only [slotWindow, appendWindow, List.getD_eq_getElem?_getD, List.getElem?_set]
  by_cases hj : h.wp = j
  · subst hj; simp [hwp]
  · simp [hj, Ne.symm hj]

theorem HoldsRing.append {h : History} {stored : List (Nat × Nat)} (hr : HoldsRing h stored) (w : Nat × Nat) :
    HoldsRing (appendWindow (pairWindow w) h) (stored ++ [w]) where
  size := by simp [appendWindow, hr.size]
  count := by simp only [appendWindow, hr.count, List.length_append, List.length_singleton]; omega
  next := by simp only [appendWindow, hr.next, List.length_append, List.length_singleton]; omega
  slots := fun j hj => by
    simp only [appendWindow, hr.count] at hj
    rw [slotWindow_appendWindow _ (by rw [hr.next, hr.size]; omega), hr.next]
    split
    next heq => rw [heq, ringSlot_append_same, Option.map_some]
    next hne =>
      rw [ringSlot_append_other w (by omega) hne]
      exact hr.slots j (by rw [hr.count]; omega)

/-- A slot of the ring is the history's, or nothing stands there yet. -/
theorem HoldsRing.ringSlot_cases {h : History} {stored : List (Nat × Nat)} (hr : HoldsRing h stored) {j : Nat}
    (hj : j < 128) :
    (j < h.count ∧ ∃ w, ringSlot stored j = some w ∧ slotWindow h j = pairWindow w) ∨
      (h.count ≤ j ∧ ringSlot stored j = none) := by
  rcases Nat.lt_or_ge j h.count with hlt | hge
  · obtain ⟨w, hw, hwin⟩ := Option.map_eq_some_iff.mp (hr.slots j hlt)
    exact .inl ⟨hlt, w, hw, hwin.symm⟩
  · have := hr.count
    exact .inr ⟨hge, ringSlot_of_length_le (by omega)⟩

/-- Whether a value fits the window of a slot (R218), as `ringFind` asks it. -/
def fitsSlot (stored : List (Nat × Nat)) (x : Word32) (j : Nat) : Bool :=
  match ringSlot stored j with
  | none => false
  | some w => decide (w.1 ≤ clz32 x ∧ w.2 ≤ ctz32 x)

theorem ringFind_eq_find? (stored : List (Nat × Nat)) (x : Word32) :
    ringFind stored (clz32 x) (ctz32 x) = (List.range 128).find? (fitsSlot stored x) := rfl

theorem HoldsRing.fitsSlot_eq {h : History} {stored : List (Nat × Nat)} (hr : HoldsRing h stored) (x : Word32) {j : Nat}
    (hj : j < 128) : fitsSlot stored x j = (decide (j < h.count) && fitsWindow x (slotWindow h j)) := by
  obtain ⟨hlt, w, hw, hwin⟩ | ⟨hge, hnone⟩ := hr.ringSlot_cases hj
  · simp [fitsSlot, hw, hwin, fitsWindow_pairWindow, hlt]
  · simp [fitsSlot, hnone, Nat.not_lt.mpr hge]

/-- `H.find` finds the lowest fitting slot of the ring (R218). -/
theorem HoldsRing.findWindow_eq {h : History} {stored : List (Nat × Nat)} (hr : HoldsRing h stored) (x : Word32) :
    findWindow x h = ringFind stored (clz32 x) (ctz32 x) := by
  have hcount : h.count ≤ 128 := by rw [hr.count]; exact Nat.min_le_right _ _
  have htake : (h.slot.take h.count).length = h.count := by rw [List.length_take, hr.size]; omega
  have hget : ∀ j (hj : j < (h.slot.take h.count).length), (h.slot.take h.count)[j] = slotWindow h j := by
    intro j hj
    rw [List.getElem_take, slotWindow, List.getD_eq_getElem]
  rw [ringFind_eq_find?]
  cases hfind : findWindow x h with
  | none =>
    symm
    rw [List.find?_eq_none]
    intro j hj
    rw [hr.fitsSlot_eq x (List.mem_range.mp hj)]
    have hno := List.findIdx?_eq_none_iff.mp hfind
    by_cases hlt : j < h.count
    · have := hno _ (List.getElem_mem (htake ▸ hlt))
      rw [hget] at this
      simp [this]
    · simp [hlt]
  | some j =>
    obtain ⟨hj, hfit, hbefore⟩ := List.findIdx?_eq_some_iff_getElem.mp hfind
    rw [htake] at hj
    symm
    rw [List.find?_range_eq_some]
    refine ⟨?_, List.mem_range.mpr (by omega), fun i hi => ?_⟩
    · rw [hr.fitsSlot_eq x (by omega), ← hget j (by omega), hfit]
      simp [hj]
    · have hmiss := hbefore i hi
      rw [hget] at hmiss
      rw [hr.fitsSlot_eq x (by omega)]
      simp [hmiss]

/-- The window a reference stands for is the slot's (R217). -/
theorem HoldsRing.slotWindow_found {h : History} {stored : List (Nat × Nat)} (hr : HoldsRing h stored) {x : Word32}
    {j : Nat} (hfind : ringFind stored (clz32 x) (ctz32 x) = some j) :
    j < h.count ∧ j < 128 ∧ fitsWindow x (slotWindow h j) = true ∧
      slotWindow h j = pairWindow ((ringSlot stored j).getD (0, 0)) := by
  rw [ringFind_eq_find?] at hfind
  have hfit := List.find?_some hfind
  have hj : j < 128 := List.mem_range.mp (List.mem_of_find?_eq_some hfind)
  rw [hr.fitsSlot_eq x hj, Bool.and_eq_true, decide_eq_true_eq] at hfit
  obtain ⟨-, w, hw, hwin⟩ | ⟨hge, -⟩ := hr.ringSlot_cases hj
  · exact ⟨hfit.1, hj, hfit.2, by rw [hw, hwin]; rfl⟩
  · exact absurd hfit.1 (Nat.not_lt.mpr hge)

/-! ### CHIMP (R217) -/

theorem chimpRecords_holds (ps : List Word32) {prev : Word32} {h : History} {stored : List (Nat × Nat)} {k : Sink}
    {bits : List Bool} (hr : HoldsRing h stored) (hk : Holds k bits) :
    Holds (chimpRecords prev h k ps) (bits ++ chimpBits prev stored ps) := by
  induction ps generalizing prev h stored k bits with
  | nil => simpa [chimpRecords, chimpBits] using hk
  | cons cur ps ih =>
    simp only [chimpRecords, chimpBits, hr.findWindow_eq]
    split
    · simpa using ih hr (hk.writeBit false)
    · cases hfind : ringFind stored (clz32 (prev ^^^ cur)) (ctz32 (prev ^^^ cur)) with
      | some j =>
        obtain ⟨-, -, -, hwin⟩ := hr.slotWindow_found hfind
        simpa [windowBits, hwin, pairWindow] using
          ih hr ((((hk.writeBit true).writeBit false).writeBits (BitVec.ofNat 64 j) 7).writeWindow (prev ^^^ cur)
            (slotWindow h j))
      | none =>
        simpa [newWindowBits, windowBits, windowOf, pairWindow] using
          ih (hr.append (clz32 (prev ^^^ cur), ctz32 (prev ^^^ cur))) (hk.newWindow (prev ^^^ cur))

/-- `CHIMP.ENC` on a column lays out the bits of its stream (R116, R217). -/
theorem chimpEnc_laysOut (ps : List Word32) :
    ∃ out, chimpEnc (bytesOf32 ps) = .ok out ∧ LaysOut out (floatBits (fun p => chimpBits p []) ps) := by
  rw [chimpEnc, withColumn32_bytesOf32]
  cases ps with
  | nil => exact ⟨_, rfl, emptyFloatStream_laysOut _⟩
  | cons p ps => exact ⟨_, rfl, (chimpRecords_holds ps freshHistory_holdsRing (floatHeader_holds _ p)).laysOut⟩

/-- Settles O49: the history of `CHIMP.ENC` is the ring, so its sink holds the reference bits. -/
theorem chimpEncWritesTheStream : Obligations.ChimpEncWritesTheStream := by
  refine ⟨countsZeros, bitsOf_bytesOf32, fun s ps hc hi hinp hfit => ?_⟩
  obtain ⟨out, hout, hlay⟩ := chimpEnc_laysOut ps
  obtain ⟨t, ht, hdel⟩ := codec_delivers (i := .chimpEnc) rfl hc hi (hinp ▸ hout) (hlay.length_le hfit)
  exact ⟨t, out, ht, hdel, hlay⟩

end Sys2Proof.Machine
end
section
/-! SUPPORT. Reading a stream back field by field, and the round trips of RLE (R315), DELTA, DOD and DODF (R168, R175,
R179), GR (R287) and BP (R297): what an encoder wrote, the decoder gives back. -/

namespace Sys2Proof.Machine

/-! ### A source before given bits (R136 to R138) -/

@[simp] theorem except_ok_bind {ε α β : Type} (a : α) (f : α → Except ε β) : (Except.ok a >>= f) = f a := rfl

/-- The source `r` over `bs` has exactly the bits `rest` still to read. -/
def Ahead (bs : List Byte) (rest : List Bool) (r : Source) : Prop :=
  ∃ done, bitsOf bs = done ++ rest ∧ r = ⟨bs.length, done.length⟩

theorem ahead_open (bs : List Byte) : Ahead bs (bitsOf bs) (Source.open bs.length) := ⟨[], rfl, rfl⟩

/-- A finished stream is read from its first bit on; padding follows the bits it lays out (R64). -/
theorem LaysOut.ahead {out : List Byte} {bits : List Bool} (h : LaysOut out bits) :
    ∃ pad, Ahead out (bits ++ pad) (Source.open out.length) :=
  ⟨_, h.2 ▸ ahead_open out⟩

section
variable {bs : List Byte} {rest : List Bool} {r : Source}

/-- Reading a field that `writeBits` wrote gives the value, if it fits the field (R142). -/
theorem Ahead.readField {v : Word64} {n : Nat} (h : Ahead bs (fieldBits v n ++ rest) r) (hv : v.toNat < 2 ^ n) :
    ∃ r', readField (dataOf bs) n r = .ok (v, r') ∧ Ahead bs rest r' := by
  obtain ⟨done, hbits, rfl⟩ := h
  refine ⟨_, ?_, done ++ fieldBits v n, by rw [hbits, List.append_assoc], rfl⟩
  have := readField_fieldBits bs done rest v n (by rw [hbits, List.append_assoc])
  rw [this, Nat.mod_eq_of_lt hv]
  simp

/-- Reading a count (R63). -/
theorem Ahead.readCount {m n : Nat} (h : Ahead bs (fieldBits (BitVec.ofNat 64 m) n ++ rest) r) (hm : m < 2 ^ n)
    (hn : n ≤ 64) : ∃ v r', Machine.readField (dataOf bs) n r = .ok (v, r') ∧ v.toNat = m ∧ Ahead bs rest r' := by
  have htoNat : (BitVec.ofNat 64 m).toNat = m := by
    rw [BitVec.toNat_ofNat, Nat.mod_eq_of_lt (hm.trans_le (Nat.pow_le_pow_right (by decide) hn))]
  obtain ⟨r', hread, hr'⟩ := h.readField (by rwa [htoNat])
  exact ⟨_, r', hread, htoNat, hr'⟩

/-- Reading one bit (R137). -/
theorem Ahead.readBit {b : Bool} (h : Ahead bs (b :: rest) r) :
    ∃ r', Machine.readField (dataOf bs) 1 r = .ok (if b then 1 else 0, r') ∧ Ahead bs rest r' := by
  have hfield : fieldBits (if b then 1 else 0) 1 = [b] := by cases b <;> rfl
  have h' : Ahead bs (fieldBits (if b then 1 else 0) 1 ++ rest) r := by rwa [hfield]
  exact h'.readField (by cases b <;> decide)

end

/-! ### RLE (R311 to R315) -/

theorem rleRuns_length_even (l : List Byte) (cur : Byte) (run : Nat) : (rleRuns cur run l).length % 2 = 0 := by
  induction l generalizing cur run with
  | nil => simp [rleRuns]
  | cons b l ih =>
    simp only [rleRuns]
    split
    · exact ih cur (run + 1)
    · have := ih b 1
      simp only [List.length_cons]
      omega

/-- The count byte of a run of 1 to 255 bytes holds its length (R120). -/
theorem runCount_toNat {run : Nat} (h : run ≤ 255) : (BitVec.ofNat 8 run).toNat = run := by
  rw [BitVec.toNat_ofNat]
  exact Nat.mod_eq_of_lt (by omega)

theorem runCount_ne_zero {run : Nat} (h1 : 1 ≤ run) (h2 : run ≤ 255) : BitVec.ofNat 8 run ≠ 0 := fun h => by
  have hzero := runCount_toNat h2
  simp [h] at hzero
  omega

/-- The pairs of a run in progress expand to the run and the bytes after it. -/
theorem rleExpand_rleRuns (l : List Byte) (cur : Byte) (run : Nat) (h1 : 1 ≤ run) (h2 : run ≤ 255) :
    rleExpand (rleRuns cur run l) = .ok (List.replicate run cur ++ l) := by
  induction l generalizing cur run with
  | nil =>
    simp only [rleRuns, rleExpand, runCount_toNat h2]
    exact if_neg (runCount_ne_zero h1 h2)
  | cons b l ih =>
    simp only [rleRuns]
    split
    next hgrow =>
      obtain ⟨rfl, hrun⟩ := hgrow
      rw [ih b (run + 1) (by omega) (by omega), List.replicate_succ', List.append_assoc]
      rfl
    next =>
      rw [rleExpand, if_neg (runCount_ne_zero h1 h2), ih b 1 (by omega) (by omega), runCount_toNat h2]
      rfl

theorem rle_roundTrip {b out : List Byte} (h : rleEnc b = .ok out) : rleDec out = .ok b := by
  cases b with
  | nil => cases h; rfl
  | cons b l =>
    cases h
    rw [rleDec, if_neg (by simp [rleRuns_length_even]), rleExpand_rleRuns l b 1 (by omega) (by omega)]
    rfl

/-! ### Zigzag and varint (R160 to R164) -/

theorem getLsbD_zigzag (v : Word64) {i : Nat} (hi : i < 64) :
    (zigzag v).getLsbD i = ((decide (0 < i) && v.getLsbD (i - 1)) ^^ v.getLsbD 63) := by
  have hsign : (v.sshiftRight 63).getLsbD i = v.getLsbD 63 := by
    rw [BitVec.getLsbD_sshiftRight, BitVec.msb_eq_getLsbD_last]
    rcases Nat.eq_zero_or_pos i with rfl | hpos
    · simp
    · simp [Nat.not_le.mpr hi, show ¬ 63 + i < 64 by omega]
  rw [zigzag, BitVec.getLsbD_xor, hsign, BitVec.getLsbD_shiftLeft]
  rcases i with _ | i <;> simp [hi]

theorem getLsbD_unzigzag (u : Word64) {i : Nat} (hi : i < 64) :
    (unzigzag u).getLsbD i = (u.getLsbD (i + 1) ^^ u.getLsbD 0) := by
  have hlow : u &&& 1 = if u.getLsbD 0 then 1 else 0 := by
    apply BitVec.eq_of_getLsbD_eq
    intro j hj
    cases hu : u.getLsbD 0 <;> rcases j with _ | j <;> simp_all
  have hmask : (0 - (u &&& 1)).getLsbD i = u.getLsbD 0 := by
    rw [hlow]
    cases u.getLsbD 0
    · simp
    · rw [show (0 - (if true = true then 1 else 0) : Word64) = BitVec.allOnes 64 from rfl, BitVec.getLsbD_allOnes]
      simpa using hi
  rw [unzigzag, BitVec.getLsbD_xor, hmask, BitVec.getLsbD_ushiftRight, Nat.add_comm]

theorem unzigzag_zigzag (v : Word64) : unzigzag (zigzag v) = v := by
  apply BitVec.eq_of_getLsbD_eq
  intro i hi
  rw [getLsbD_unzigzag _ hi, getLsbD_zigzag v (i := 0) (by decide)]
  rcases Nat.lt_or_ge (i + 1) 64 with hlt | hge
  · rw [getLsbD_zigzag v hlt]
    simp
  · rw [BitVec.getLsbD_of_ge _ _ hge, show i = 63 by omega]
    simp

theorem getLsbD_low7 (i : Nat) : (0x7F#64).getLsbD i = decide (i < 7) := by
  rw [show 0x7F#64 = (BitVec.allOnes 7).setWidth 64 from rfl, BitVec.getLsbD_setWidth, BitVec.getLsbD_allOnes]
  by_cases h : i < 7 <;> simp [h]
  omega

/-- The bits of one group of a varint, unmarked (R111). -/
def varintGroup (z : Word64) : Byte := (z &&& 0x7F#64).setWidth 8

theorem varintGroup_unmarked (z : Word64) : varintGroup z &&& 0x80#8 = 0 := by
  apply BitVec.eq_of_getLsbD_eq
  intro i hi
  interval_cases i <;> simp [varintGroup]

theorem varintGroup_marked (z : Word64) : (varintGroup z ||| 0x80#8) &&& 0x80#8 ≠ 0 := fun h => by
  have := congrArg (BitVec.getLsbD · 7) h
  simp at this

theorem varintGroup_value (z : Word64) : ((varintGroup z &&& 0x7F#8).setWidth 64 : Word64) = z &&& 0x7F#64 := by
  have hmask : varintGroup z &&& 0x7F#8 = varintGroup z := by
    apply BitVec.eq_of_getLsbD_eq
    intro i hi
    interval_cases i <;> simp [varintGroup]
  rw [hmask]
  apply BitVec.eq_of_getLsbD_eq
  intro i hi
  simp only [varintGroup, BitVec.getLsbD_setWidth, BitVec.getLsbD_and, getLsbD_low7]
  by_cases h : i < 7
  · simp [h, hi, show i < 8 by omega]
  · simp [h]

theorem varintGroup_marked_value (z : Word64) :
    (((varintGroup z ||| 0x80#8) &&& 0x7F#8).setWidth 64 : Word64) = z &&& 0x7F#64 := by
  rw [BitVec.and_comm, BitVec.and_or_distrib_left, show 0x7F#8 &&& 0x80#8 = 0#8 from rfl, BitVec.or_zero,
    BitVec.and_comm, varintGroup_value]

/-- The tenth group of a 64-bit value is 0 or 1 (R163). -/
theorem varintGroup_of_lt_two {z : Word64} (h : z.toNat < 2) : varintGroup z &&& 0xFE#8 = 0 := by
  obtain rfl | rfl : z = 0 ∨ z = 1 := by simp only [BitVec.toNat_eq]; simp; omega
  all_goals rfl

/-- The low group and the rest of a word make up the word (R162). -/
theorem low7_or_high (z : Word64) (k : Nat) :
    ((z &&& 0x7F#64) <<< k) ||| ((z >>> 7) <<< (7 + k)) = z <<< k := by
  have hz : (z &&& 0x7F#64) ||| ((z >>> 7) <<< 7) = z := by
    apply BitVec.eq_of_getLsbD_eq
    intro i hi
    simp only [BitVec.getLsbD_or, BitVec.getLsbD_and, getLsbD_low7, BitVec.getLsbD_shiftLeft,
      BitVec.getLsbD_ushiftRight]
    by_cases h : i < 7
    · simp [h, hi]
    · simp [h, hi, show 7 + (i - 7) = i by omega]
  rw [BitVec.shiftLeft_add, ← BitVec.shiftLeft_or_distrib, hz]

theorem varintGroups_succ (fuel : Nat) (z : Word64) :
    varintGroups (fuel + 1) z =
      if z >>> 7 ≠ 0 then (varintGroup z ||| 0x80#8) :: varintGroups fuel (z >>> 7) else [varintGroup z] := rfl

theorem varintDecFrom_last (fuel : Nat) {k : Nat} {z acc : Word64} (rest : List Byte) (hhigh : z >>> 7 = 0)
    (hten : k = 9 → z.toNat < 2) :
    varintDecFrom (fuel + 1) k (varintGroup z :: rest) acc = .ok (unzigzag (acc ||| z <<< (7 * k)), k + 1) := by
  have hz : z &&& 0x7F#64 = z := by simpa [hhigh] using low7_or_high z 0
  rw [varintDecFrom, if_neg fun h => h.2 (varintGroup_of_lt_two (hten h.1))]
  simp only [varintGroup_unmarked, varintGroup_value, hz, if_true]

/-- The decoder from group `k` on takes back the groups the encoder writes there: of the `64 - 7 * k` bits still to
come `fuel + 1 = 10 - k` groups hold all. -/
theorem varintDecFrom_varintGroups (fuel : Nat) {k : Nat} {z acc : Word64} (rest : List Byte) (hk : k + (fuel + 1) = 10)
    (hz : z.toNat < 2 ^ (64 - 7 * k)) :
    varintDecFrom (fuel + 1) k (varintGroups (fuel + 1) z ++ rest) acc
      = .ok (unzigzag (acc ||| z <<< (7 * k)), k + (varintGroups (fuel + 1) z).length) := by
  induction fuel generalizing k z acc with
  | zero =>
    obtain rfl : k = 9 := by omega
    have hhigh : z >>> 7 = 0 := by
      rw [BitVec.toNat_eq, BitVec.toNat_ushiftRight, Nat.shiftRight_eq_div_pow]
      exact Nat.div_eq_of_lt (hz.trans (by decide))
    rw [varintGroups_succ, if_neg (not_not.mpr hhigh)]
    exact varintDecFrom_last 0 rest hhigh fun _ => hz
  | succ fuel ih =>
    rw [varintGroups_succ]
    by_cases hhigh : z >>> 7 = 0
    · rw [if_neg (not_not.mpr hhigh)]
      exact varintDecFrom_last (fuel + 1) rest hhigh (by omega)
    · have hnext : (z >>> 7).toNat < 2 ^ (64 - 7 * (k + 1)) := by
        rw [BitVec.toNat_ushiftRight, Nat.shiftRight_eq_div_pow]
        apply Nat.div_lt_of_lt_mul
        rwa [← Nat.pow_add, show 7 + (64 - 7 * (k + 1)) = 64 - 7 * k by omega]
      rw [if_pos hhigh, List.cons_append, varintDecFrom, if_neg (by omega)]
      simp only [varintGroup_marked, varintGroup_marked_value, if_false]
      rw [ih (by omega) hnext, BitVec.or_assoc, Nat.mul_succ, Nat.add_comm _ 7, low7_or_high, List.length_cons]
      congr 2
      omega

/-- A varint decodes to its value and its length, whatever follows (R164). -/
theorem varintDec_varintEnc (v : Word64) (rest : List Byte) :
    varintDec (varintEnc v ++ rest) 0 = .ok (v, (varintEnc v).length) := by
  have h := varintDecFrom_varintGroups 9 (k := 0) (z := zigzag v) (acc := 0) rest rfl (zigzag v).isLt
  rw [varintDec, List.drop_zero, varintEnc, h]
  simp [unzigzag_zigzag]

theorem varintEnc_ne_nil (v : Word64) : varintEnc v ≠ [] := by
  rw [varintEnc, varintGroups_succ]
  split <;> exact List.cons_ne_nil _ _

theorem varintsFrom_varintsOf (xs : List Word64) (fuel : Nat) (h : (varintsOf xs).length ≤ fuel) :
    varintsFrom fuel (varintsOf xs) = .ok xs := by
  induction xs generalizing fuel with
  | nil => cases fuel <;> rfl
  | cons x xs ih =>
    obtain ⟨b, bs, hb⟩ := List.exists_cons_of_ne_nil (varintEnc_ne_nil x)
    have hdec := varintDec_varintEnc x (varintsOf xs)
    have hdrop : (varintEnc x ++ varintsOf xs).drop (varintEnc x).length = varintsOf xs := List.drop_left
    simp only [varintsOf, List.length_append] at h ⊢
    rw [hb] at h hdec hdrop ⊢
    obtain ⟨fuel, rfl⟩ : ∃ n, fuel = n + 1 := ⟨fuel - 1, by simp at h; omega⟩
    simp only [List.cons_append] at hdec hdrop ⊢
    simp only [varintsFrom, hdec, except_ok_bind, hdrop]
    rw [ih fuel (by simp at h; omega)]
    rfl

/-- The varints of a byte sequence made of varints (R168, R174). -/
theorem varintValues_varintsOf (xs : List Word64) : varintValues (varintsOf xs) = .ok xs :=
  varintsFrom_varintsOf xs _ (Nat.le_refl _)

/-! ### DELTA (R166, R168) -/

/-- A raw first value and varints read back (R168, R174). -/
theorem rawThenVarints_stream (v0 : Word64) (xs : List Word64) (f : Word64 → List Word64 → List Word64) :
    rawThenVarints (bytesBe64 v0 ++ varintsOf xs) f = .ok (bytesOf64 (v0 :: f v0 xs)) := by
  have htake : (bytesBe64 v0 ++ varintsOf xs).take 8 = bytesBe64 v0 := List.take_left' rfl
  have hdrop : (bytesBe64 v0 ++ varintsOf xs).drop 8 = varintsOf xs := List.drop_left' rfl
  have hfirst : column64 (bytesBe64 v0) = [v0] := column64_bytesOf64 [v0]
  rw [rawThenVarints, if_neg (by simp), htake, hdrop, hfirst, varintValues_varintsOf]
  rfl

/-- The differences of a column to the predecessors (R166). -/
def differences (vs : List Word64) : List Word64 := List.zipWith (fun a b => b - a) vs vs.tail

theorem deltaTail_eq_varintsOf (vs : List Word64) (prev : Word64) :
    deltaTail prev vs = varintsOf (differences (prev :: vs)) := by
  induction vs generalizing prev with
  | nil => rfl
  | cons cur vs ih => rw [deltaTail, ih]; rfl

theorem sumDeltas_differences (vs : List Word64) (prev : Word64) :
    sumDeltas prev (differences (prev :: vs)) = vs := by
  induction vs generalizing prev with
  | nil => rfl
  | cons cur vs ih =>
    have hcur : prev + (cur - prev) = cur := by rw [BitVec.add_comm, BitVec.sub_add_cancel]
    have := ih cur
    simp only [differences, List.tail_cons, List.zipWith_cons_cons, sumDeltas, hcur] at this ⊢
    rw [this]

theorem deltaEnc_cons (v0 : Word64) (vs : List Word64) :
    deltaEnc (bytesOf64 (v0 :: vs)) = .ok (bytesBe64 v0 ++ varintsOf (differences (v0 :: vs))) := by
  rw [deltaEnc, withColumn64_bytesOf64, bytesOf64, List.take_left' (bytesBe64_length v0)]
  simp only [deltaTail_eq_varintsOf]

/-- What a column operation encodes is a column. -/
theorem exists_column64 {inp out : List Byte} {f : List Word64 → Except Failure (List Byte)}
    (h : withColumn64 inp f = .ok out) : ∃ vs, inp = bytesOf64 vs ∧ f vs = .ok out :=
  ⟨_, withColumn64_ok h⟩

theorem delta_roundTrip {b out : List Byte} (h : deltaEnc b = .ok out) : deltaDec out = .ok b := by
  obtain ⟨vs, rfl, -⟩ := exists_column64 h
  cases vs with
  | nil => cases h; rfl
  | cons v0 vs =>
    cases (deltaEnc_cons v0 vs).symm.trans h
    rw [deltaDec, rawThenVarints_stream, sumDeltas_differences]

/-! ### DOD and DODF (R171 to R179) -/

theorem rebuild_secondDiffs (vs : List Word64) (prev delta : Word64) :
    rebuild prev delta (secondDiffs prev delta vs) = vs := by
  induction vs generalizing prev delta with
  | nil => rfl
  | cons cur vs ih =>
    have hdelta : delta + (cur - prev - delta) = cur - prev := by rw [BitVec.add_comm, BitVec.sub_add_cancel]
    have hcur : prev + (cur - prev) = cur := by rw [BitVec.add_comm, BitVec.sub_add_cancel]
    simp only [secondDiffs, rebuild, hdelta, hcur, ih]

theorem columnOfTerms_columnTerms (vs : List Word64) : columnOfTerms (columnTerms vs) = vs := by
  cases vs with
  | nil => rfl
  | cons v0 vs => rw [columnTerms, columnOfTerms, rebuild_secondDiffs]

theorem dodEnc_cons (v0 : Word64) (vs : List Word64) :
    dodEnc (bytesOf64 (v0 :: vs)) = .ok (bytesBe64 v0 ++ varintsOf (secondDiffs v0 0 vs)) := by
  rw [dodEnc, withColumn64_bytesOf64, bytesOf64, List.take_left' (bytesBe64_length v0)]

theorem dod_roundTrip {b out : List Byte} (h : dodEnc b = .ok out) : dodDec out = .ok b := by
  obtain ⟨vs, rfl, -⟩ := exists_column64 h
  cases vs with
  | nil => cases h; rfl
  | cons v0 vs =>
    cases (dodEnc_cons v0 vs).symm.trans h
    rw [dodDec, rawThenVarints_stream, rebuild_secondDiffs]

theorem dodf_roundTrip {b out : List Byte} (h : dodfEnc b = .ok out) : dodfDec out = .ok b := by
  obtain ⟨vs, rfl, henc⟩ := exists_column64 h
  cases henc
  have hmap : ((columnTerms vs).map zigzag).map unzigzag = columnTerms vs := by
    simp [List.map_map, Function.comp_def, unzigzag_zigzag]
  rw [dodfDec, withColumn64_bytesOf64, hmap, columnOfTerms_columnTerms]

end Sys2Proof.Machine
end
section
/-! SUPPORT. The round trips of GR (R287) and BP (R297). -/

namespace Sys2Proof.Machine

/-! ### GR (R281 to R287) -/

theorem grWrite_holds {k : Sink} {bits : List Bool} (v : Word64) (h : Holds k bits) :
    Holds (grWrite k v) (bits ++ grBits v) := by
  simpa [grWrite, grBits] using
    ((h.writeAll (List.replicate (v.toNat / 8) true)).writeBit false).writeBits (BitVec.ofNat 64 (v.toNat % 8)) 3

/-- A value of the domain of GR as a natural number (R281). -/
theorem toNat_le_of_toInt {v : Word64} {m : Nat} (h0 : 0 ≤ v.toInt) (hm : v.toInt ≤ m) : v.toNat ≤ m := by
  have := BitVec.toInt_eq_toNat_cond v
  split at this <;> omega

/-- What `GR.ENC` accepts and the bits it writes (R281, R282). -/
theorem grValues_ok {vs : List Word64} {k k' : Sink} {bits : List Bool} (hk : Holds k bits)
    (h : grValues k vs = .ok k') : (∀ v ∈ vs, v.toNat ≤ grMax) ∧ Holds k' (bits ++ vs.flatMap grBits) := by
  induction vs generalizing k bits with
  | nil => cases h; exact ⟨by simp, by simpa using hk⟩
  | cons v vs ih =>
    simp only [grValues] at h
    split at h
    · cases h
    next hdom =>
      obtain ⟨hle, hholds⟩ := ih (grWrite_holds v hk) h
      refine ⟨?_, by simpa using hholds⟩
      rintro x (_ | ⟨_, hx⟩)
      · exact toNat_le_of_toInt (by omega) (by omega)
      · exact hle x hx

theorem readUnary_ones {bs : List Byte} {rest : List Bool} (m : Nat) {fuel q : Nat} {r : Source}
    (h : Ahead bs (List.replicate m true ++ false :: rest) r) (hfuel : m < fuel) (hq : q + m ≤ 255) :
    ∃ r', readUnary (dataOf bs) fuel q r = .ok (q + m, r') ∧ Ahead bs rest r' := by
  induction m generalizing fuel q r with
  | zero =>
    obtain ⟨fuel, rfl⟩ : ∃ n, fuel = n + 1 := ⟨fuel - 1, by omega⟩
    obtain ⟨r', hread, hr'⟩ := Ahead.readBit h
    exact ⟨r', by simp [readUnary, hread], hr'⟩
  | succ m ih =>
    obtain ⟨fuel, rfl⟩ : ∃ n, fuel = n + 1 := ⟨fuel - 1, by omega⟩
    obtain ⟨r1, hread, hr1⟩ := Ahead.readBit h
    obtain ⟨r', hmore, hr'⟩ := ih hr1 (fuel := fuel) (q := q + 1) (by omega) (by omega)
    refine ⟨r', ?_, hr'⟩
    simp only [readUnary, hread, except_ok_bind]
    rw [if_neg (by decide), if_neg (by omega), hmore, Nat.add_right_comm, Nat.add_assoc]

theorem grDecLoop_reads {bs : List Byte} {rest : List Bool} (vs : List Word64) {r : Source}
    (h : Ahead bs (vs.flatMap grBits ++ rest) r) (hdom : ∀ v ∈ vs, v.toNat ≤ grMax) :
    grDecLoop (dataOf bs) vs.length r = .ok vs := by
  induction vs generalizing r with
  | nil => rfl
  | cons v vs ih =>
    have hv : v.toNat ≤ 2047 := hdom v List.mem_cons_self
    rw [List.flatMap_cons, grBits, List.append_assoc, List.append_assoc, List.cons_append] at h
    obtain ⟨r1, hq, h1⟩ := readUnary_ones (v.toNat / 8) h (fuel := 256) (q := 0) (by omega) (by omega)
    obtain ⟨m, r2, hm, hmval, h2⟩ := h1.readCount (Nat.mod_lt _ (by decide)) (by decide)
    have hval : BitVec.ofNat 64 ((0 + v.toNat / 8) * 8 + m.toNat) = v := by
      rw [hmval, Nat.zero_add, Nat.div_add_mod', BitVec.ofNat_toNat, BitVec.setWidth_eq]
    have hrest := ih h2 fun x hx => hdom x (List.mem_cons_of_mem _ hx)
    simp only [List.length_cons, grDecLoop, hq, hm, hrest, hval, except_ok_bind]

/-- The stream of `GR.ENC` and the domain it was taken from (R118, R281). -/
theorem grEnc_ok {vs : List Word64} {out : List Byte} (h : grEnc (bytesOf64 vs) = .ok out) :
    (∀ v ∈ vs, v.toNat ≤ grMax) ∧ LaysOut out (fieldBits (BitVec.ofNat 64 vs.length) 32 ++ vs.flatMap grBits) := by
  rw [grEnc, withColumn64_bytesOf64] at h
  cases hk : grValues (Sink.empty.writeBits (BitVec.ofNat 64 vs.length) 32) vs with
  | error e => rw [hk] at h; cases h
  | ok k =>
    rw [hk] at h
    cases h
    obtain ⟨hdom, hholds⟩ := grValues_ok (Holds.empty.writeBits _ _) hk
    exact ⟨hdom, hholds.laysOut⟩

theorem gr_roundTrip {b out : List Byte} (hb : b.length < 2 ^ 32) (h : grEnc b = .ok out) : grDec out = .ok b := by
  obtain ⟨vs, rfl, -⟩ := exists_column64 h
  obtain ⟨hdom, hlay⟩ := grEnc_ok h
  obtain ⟨pad, hahead⟩ := hlay.ahead
  rw [List.append_assoc] at hahead
  rw [bytesOf64_length] at hb
  obtain ⟨n, r, hn, hnval, hr⟩ := hahead.readCount (by omega) (by decide)
  rw [grDec, hn, except_ok_bind]
  simp only [hnval, grDecLoop_reads vs hr hdom, except_ok_bind]

/-! ### BP (R290 to R297) -/

/-- A value of `k` bits has bit length at most `k` (R13). -/
theorem bitlen64_le {x : Word64} {k : Nat} (hx : x.toNat < 2 ^ k) : bitlen64 x ≤ k := by
  by_cases h0 : x = 0
  · subst h0; exact Nat.zero_le k
  · have hmod : x.toNat % 2 ^ 64 = x.toNat := Nat.mod_eq_of_lt x.isLt
    obtain ⟨-, hlo, -⟩ := zerosAbove_bounds x 64 (by rw [hmod]; simpa [BitVec.toNat_eq] using h0)
    rw [hmod] at hlo
    have := (Nat.pow_lt_pow_iff_right (by decide : 1 < 2)).mp (hlo.trans_lt hx)
    simp only [bitlen64]
    omega

theorem lt_two_pow_bitlen64 (x : Word64) : x.toNat < 2 ^ bitlen64 x := by
  by_cases h0 : x = 0
  · subst h0; exact Nat.two_pow_pos _
  · have hmod : x.toNat % 2 ^ 64 = x.toNat := Nat.mod_eq_of_lt x.isLt
    obtain ⟨-, -, hhi⟩ := zerosAbove_bounds x 64 (by rw [hmod]; simpa [BitVec.toNat_eq] using h0)
    rwa [hmod] at hhi

/-- The first pass finds a bound of the elements, none of which is negative (R292). -/
theorem bpMax_ok {vs : List Word64} {m m' : Word64} (h : bpMax m vs = .ok m') (hm : m.toNat < 2 ^ 63) :
    m'.toNat < 2 ^ 63 ∧ m.toNat ≤ m'.toNat ∧ ∀ v ∈ vs, v.toNat ≤ m'.toNat := by
  induction vs generalizing m with
  | nil => cases h; exact ⟨hm, Nat.le_refl _, by simp⟩
  | cons v vs ih =>
    simp only [bpMax] at h
    split at h
    · cases h
    next hneg =>
      have hv := BitVec.toInt_eq_toNat_cond v
      have hmi := BitVec.toInt_eq_toNat_cond m
      rw [if_pos (by omega)] at hmi
      have hvi : v.toInt = v.toNat := by
        split at hv
        · exact hv
        · have := v.isLt; omega
      have hnext : (if m.toInt < v.toInt then v else m).toNat = max m.toNat v.toNat := by
        split <;> omega
      obtain ⟨h1, h2, h3⟩ := ih h (by rw [hnext]; have := v.isLt; split at hv <;> omega)
      rw [hnext] at h2
      refine ⟨h1, by omega, ?_⟩
      rintro x (_ | ⟨_, hx⟩)
      · omega
      · exact h3 x hx

theorem bpBody_holds (w : Nat) (vs : List Word64) {k : Sink} {bits : List Bool} (h : Holds k bits) :
    Holds (bpBody w k vs) (bits ++ vs.flatMap fun v => fieldBits v w) := by
  induction vs generalizing k bits with
  | nil => simpa [bpBody] using h
  | cons v vs ih => simpa [bpBody] using ih (h.writeBits v w)

/-- The stream of `BP.ENC`: a width from 1 to 63 that holds every element (R119, R291, R292). -/
theorem bpEnc_ok {vs : List Word64} {out : List Byte} (h : bpEnc (bytesOf64 vs) = .ok out) :
    ∃ w, 1 ≤ w ∧ w ≤ 63 ∧ (∀ v ∈ vs, v.toNat < 2 ^ w) ∧ LaysOut out (bpBits w vs) := by
  rw [bpEnc, withColumn64_bytesOf64] at h
  cases hm : bpMax 0 vs with
  | error e => rw [hm] at h; cases h
  | ok m =>
    rw [hm] at h
    cases h
    obtain ⟨hlt, -, hall⟩ := bpMax_ok hm (by decide)
    have hwidth : m.toNat < 2 ^ bpWidth m :=
      (lt_two_pow_bitlen64 m).trans_le (Nat.pow_le_pow_right (by decide) (Nat.le_max_right _ _))
    refine ⟨bpWidth m, Nat.le_max_left _ _, Nat.max_le.mpr ⟨by decide, bitlen64_le hlt⟩,
      fun v hv => (hall v hv).trans_lt hwidth, ?_⟩
    exact (bpBody_holds _ vs ((Holds.empty.writeBits _ _).writeBits _ _)).laysOut

theorem bpDecLoop_reads {bs : List Byte} {rest : List Bool} {w : Nat} (vs : List Word64) {r : Source}
    (h : Ahead bs ((vs.flatMap fun v => fieldBits v w) ++ rest) r) (hdom : ∀ v ∈ vs, v.toNat < 2 ^ w) :
    bpDecLoop (dataOf bs) w vs.length r = .ok vs := by
  induction vs generalizing r with
  | nil => rfl
  | cons v vs ih =>
    rw [List.flatMap_cons, List.append_assoc] at h
    obtain ⟨r', hread, hr'⟩ := h.readField (hdom v List.mem_cons_self)
    have hrest := ih hr' fun x hx => hdom x (List.mem_cons_of_mem _ hx)
    simp only [List.length_cons, bpDecLoop, hread, hrest, except_ok_bind]

theorem bp_roundTrip {b out : List Byte} (hb : b.length < 2 ^ 32) (h : bpEnc b = .ok out) : bpDec out = .ok b := by
  obtain ⟨vs, rfl, -⟩ := exists_column64 h
  obtain ⟨w, hw1, hw63, hdom, hlay⟩ := bpEnc_ok h
  obtain ⟨pad, hahead⟩ := hlay.ahead
  rw [bpBits, List.append_assoc, List.append_assoc] at hahead
  rw [bytesOf64_length] at hb
  obtain ⟨n, r, hn, hnval, hr⟩ := hahead.readCount (by omega) (by decide)
  obtain ⟨w', r', hw', hwval, hr'⟩ := hr.readCount (by omega) (by decide)
  have hlegal : ¬(w' = 0 ∨ 63 < w'.toNat) := by
    rintro (rfl | hlong)
    · simp at hwval; omega
    · omega
  rw [bpDec, hn, except_ok_bind]
  simp only [hw', except_ok_bind]
  rw [if_neg hlegal, hnval, hwval, bpDecLoop_reads vs hr' hdom]
  rfl

end Sys2Proof.Machine
end
section
/-! SUPPORT. The round trips of XORF (R210) and CHIMP (R225). -/

namespace Sys2Proof.Machine

/-! ### Windows read back (R201, R208) -/

section
variable {bs : List Byte} {rest : List Bool} {r : Source}

/-- The bits of a value placed in a window it fits give the value back (R201). -/
theorem Ahead.readWindow {x : Word32} {w : Window} (h : Ahead bs (windowBits x w.lead w.trail ++ rest) r) (hx : x ≠ 0)
    (hfit : fitsWindow x w = true) : ∃ r', readWindow (dataOf bs) w r = .ok (x, r') ∧ Ahead bs rest r' := by
  simp only [fitsWindow, Bool.and_eq_true, decide_eq_true_eq] at hfit
  obtain ⟨hlead, htrail⟩ := hfit
  have hsum := clz32_add_ctz32_lt hx
  have hlt : x.toNat / 2 ^ w.trail < 2 ^ (32 - w.lead - w.trail) := by
    apply Nat.div_lt_of_lt_mul
    rw [← Nat.pow_add, show w.trail + (32 - w.lead - w.trail) = 32 - w.lead by omega]
    exact (clz32_bounds hx).2.2.trans_le (Nat.pow_le_pow_right (by decide) (by omega))
  have hmul : x.toNat / 2 ^ w.trail * 2 ^ w.trail = x.toNat :=
    Nat.div_mul_cancel ((Nat.pow_dvd_pow 2 htrail).trans (ctz32_spec hx).2.1)
  obtain ⟨v, r', hread, hval, hr'⟩ := h.readCount hlt (by omega)
  have hshift : v.setWidth 32 <<< w.trail = x := by
    apply BitVec.eq_of_toNat_eq
    rw [BitVec.toNat_shiftLeft, BitVec.toNat_setWidth, hval, Nat.shiftLeft_eq, Nat.mod_mul_mod, hmul,
      Nat.mod_eq_of_lt x.isLt]
  refine ⟨r', ?_, hr'⟩
  rw [Machine.readWindow, windowWidth, hread, except_ok_bind]
  simp only [hshift]

/-- The header of a new window reads back (R202, R208). -/
theorem Ahead.readHeader {x : Word32} (h : Ahead bs (fieldBits (BitVec.ofNat 64 (clz32 x)) 5
      ++ (fieldBits (BitVec.ofNat 64 (32 - clz32 x - ctz32 x)) 6 ++ rest)) r) (hx : x ≠ 0) :
    ∃ r', readHeader (dataOf bs) r = .ok (windowOf x, r') ∧ Ahead bs rest r' := by
  have hsum := clz32_add_ctz32_lt hx
  obtain ⟨lz, r1, hlz, hlzval, h1⟩ := h.readCount (by omega) (by decide)
  obtain ⟨sig, r2, hsig, hsigval, h2⟩ := h1.readCount (by omega) (by decide)
  refine ⟨r2, ?_, h2⟩
  rw [Machine.readHeader, hlz, except_ok_bind]
  simp only [hsig, except_ok_bind, hlzval, hsigval]
  rw [if_neg (by omega), windowOf, show 32 - clz32 x - (32 - clz32 x - ctz32 x) = ctz32 x by omega]

/-- A new-window record after its two control bits (R208, R223). -/
theorem Ahead.readNewWindow {x : Word32} (h : Ahead bs (newWindowBits x ++ rest) r) (hx : x ≠ 0) :
    ∃ r1 r2 r3 r4, Machine.readField (dataOf bs) 1 r = .ok (1, r1) ∧ Machine.readField (dataOf bs) 1 r1 = .ok (1, r2) ∧
      Machine.readHeader (dataOf bs) r2 = .ok (windowOf x, r3) ∧
      Machine.readWindow (dataOf bs) (windowOf x) r3 = .ok (x, r4) ∧ Ahead bs rest r4 := by
  rw [newWindowBits, List.append_assoc, List.append_assoc, List.append_assoc, List.cons_append, List.cons_append,
    List.nil_append] at h
  obtain ⟨r1, hc, h1⟩ := h.readBit
  obtain ⟨r2, hc2, h2⟩ := h1.readBit
  obtain ⟨r3, hhead, h3⟩ := h2.readHeader hx
  obtain ⟨r4, hwin, h4⟩ := Ahead.readWindow (w := windowOf x) h3 hx (by simp [fitsWindow, windowOf])
  exact ⟨r1, r2, r3, r4, hc, hc2, hhead, hwin, h4⟩

end

/-! ### The records of XORF (R208) -/

theorem xorfDecLoop_reads {bs : List Byte} {rest : List Bool} (ps : List Word32) {prev : Word32}
    {win : Option (Nat × Nat)} {r : Source} (h : Ahead bs (xorfBits prev win ps ++ rest) r) :
    xorfDecLoop (dataOf bs) ps.length prev (win.map pairWindow) r = .ok ps := by
  induction ps generalizing prev win r with
  | nil => rfl
  | cons cur ps ih =>
    simp only [xorfBits] at h
    rw [List.length_cons, xorfDecLoop]
    split at h
    next hsame =>
      obtain ⟨r1, hc, h1⟩ := Ahead.readBit h
      have hrest := ih h1
      obtain rfl : prev = cur := BitVec.xor_eq_zero_iff.mp hsame
      simp [hc, hrest]
    next hdiff =>
      split at h
      next l t hw =>
        obtain ⟨rfl, hfit⟩ := Option.filter_eq_some_iff.mp hw
        have h' : Ahead bs (true :: false :: (windowBits (prev ^^^ cur) l t ++ (xorfBits cur (some (l, t)) ps ++ rest)))
            r := by simpa [windowBits] using h
        obtain ⟨r1, hc, h1⟩ := h'.readBit
        obtain ⟨r2, hc2, h2⟩ := h1.readBit
        obtain ⟨r3, hread, h3⟩ := Ahead.readWindow (w := pairWindow (l, t)) h2 hdiff (by rwa [fitsWindow_pairWindow])
        have hrest := ih h3
        rw [Option.map_some] at hrest
        simp [hc, hc2, hread, hrest]
      next =>
        have h' : Ahead bs (newWindowBits (prev ^^^ cur)
            ++ (xorfBits cur (some (clz32 (prev ^^^ cur), ctz32 (prev ^^^ cur))) ps ++ rest)) r := by
          simpa [newWindowBits, windowBits] using h
        obtain ⟨r1, r2, r3, r4, hc, hc2, hhead, hread, h4⟩ := h'.readNewWindow hdiff
        have hrest : xorfDecLoop (dataOf bs) ps.length cur (some (windowOf (prev ^^^ cur))) r4 = .ok ps := ih h4
        simp [hc, hc2, hhead, hread, hrest]

/-! ### The records of CHIMP (R223) -/

theorem chimpDecLoop_reads {bs : List Byte} {rest : List Bool} (ps : List Word32) {prev : Word32} {hist : History}
    {stored : List (Nat × Nat)} {r : Source} (hr : HoldsRing hist stored)
    (h : Ahead bs (chimpBits prev stored ps ++ rest) r) :
    chimpDecLoop (dataOf bs) ps.length prev hist r = .ok ps := by
  induction ps generalizing prev hist stored r with
  | nil => rfl
  | cons cur ps ih =>
    simp only [chimpBits] at h
    rw [List.length_cons, chimpDecLoop]
    split at h
    next hsame =>
      obtain ⟨r1, hc, h1⟩ := Ahead.readBit h
      have hrest := ih hr h1
      obtain rfl : prev = cur := BitVec.xor_eq_zero_iff.mp hsame
      simp [hc, hrest]
    next hdiff =>
      split at h
      next j hj =>
        obtain ⟨hvalid, hj128, hfit, hwin⟩ := hr.slotWindow_found hj
        have h' : Ahead bs (true :: false :: (fieldBits (BitVec.ofNat 64 j) 7 ++ (windowBits (prev ^^^ cur)
            (slotWindow hist j).lead (slotWindow hist j).trail ++ (chimpBits cur stored ps ++ rest)))) r := by
          simpa [windowBits, hwin, pairWindow] using h
        obtain ⟨r1, hc, h1⟩ := h'.readBit
        obtain ⟨r2, hc2, h2⟩ := h1.readBit
        obtain ⟨v, r3, hidx, hval, h3⟩ := h2.readCount hj128 (by decide)
        obtain ⟨r4, hread, h4⟩ := h3.readWindow hdiff hfit
        simp [hc, hc2, hidx, hval, Nat.not_le.mpr hvalid, hread, ih hr h4]
      next =>
        have h' : Ahead bs (newWindowBits (prev ^^^ cur)
            ++ (chimpBits cur (stored ++ [(clz32 (prev ^^^ cur), ctz32 (prev ^^^ cur))]) ps ++ rest)) r := by
          simpa [newWindowBits, windowBits] using h
        obtain ⟨r1, r2, r3, r4, hc, hc2, hhead, hread, h4⟩ := h'.readNewWindow hdiff
        have hrest : chimpDecLoop (dataOf bs) ps.length cur (appendWindow (windowOf (prev ^^^ cur)) hist) r4 = .ok ps :=
          ih (hr.append (clz32 (prev ^^^ cur), ctz32 (prev ^^^ cur))) h4
        simp [hc, hc2, hhead, hread, hrest]

/-! ### The round trips (R210, R225) -/

/-- The frame of both decoders gives a column back when its record loop does (R208, R223). -/
theorem floatDec_reads {out : List Byte} {ps : List Word32} {recordBits : Word32 → List Word32 → List Bool}
    {records : Nat → Word32 → Source → Except Failure (List Word32)} (hlen : (bytesOf32 ps).length < 2 ^ 32)
    (hlay : LaysOut out (floatBits recordBits ps))
    (hrecords : ∀ p0 qs rest r, Ahead out (recordBits p0 qs ++ rest) r → records qs.length p0 r = .ok qs) :
    floatDec out records = .ok (bytesOf32 ps) := by
  obtain ⟨pad, hahead⟩ := hlay.ahead
  cases ps with
  | nil =>
    obtain ⟨r, hn, -⟩ := Ahead.readField (v := 0) (n := 32) hahead (by decide)
    simp [floatDec, hn, bytesOf32]
  | cons p0 qs =>
    rw [bytesOf32_length, List.length_cons] at hlen
    rw [floatBits, List.append_assoc, List.append_assoc] at hahead
    obtain ⟨n, r1, hn, hnval, h1⟩ := hahead.readCount (by omega) (by decide)
    obtain ⟨r2, hp, h2⟩ := h1.readField (by rw [BitVec.toNat_setWidth_of_le (by decide)]; exact p0.isLt)
    have hne : ¬ n = 0#64 := fun h0 => by simp [h0] at hnval
    have hpat : (p0.setWidth 64).setWidth 32 = p0 := by simp
    simp [floatDec, hn, hne, hp, hnval, hpat, hrecords p0 qs pad r2 h2]

theorem xorf_roundTrip {b out : List Byte} (hb : b.length < 2 ^ 32) (h : xorfEnc b = .ok out) :
    xorfDec out = .ok b := by
  obtain ⟨hcol, -⟩ := withColumn32_ok h
  obtain ⟨out', hout', hlay⟩ := xorfEnc_laysOut (column32 b)
  rw [← hcol] at hout'
  cases hout'.symm.trans h
  rw [xorfDec, hcol]
  exact floatDec_reads (hcol ▸ hb) hlay fun _ qs _ _ hr => xorfDecLoop_reads (win := none) qs hr

theorem chimp_roundTrip {b out : List Byte} (hb : b.length < 2 ^ 32) (h : chimpEnc b = .ok out) :
    chimpDec out = .ok b := by
  obtain ⟨hcol, -⟩ := withColumn32_ok h
  obtain ⟨out', hout', hlay⟩ := chimpEnc_laysOut (column32 b)
  rw [← hcol] at hout'
  cases hout'.symm.trans h
  rw [chimpDec, hcol]
  exact floatDec_reads (hcol ▸ hb) hlay fun _ qs _ _ hr => chimpDecLoop_reads qs freshHistory_holdsRing hr

end Sys2Proof.Machine
end
section
/-! SUPPORT. HUFF: the table of an input (R241), the tree of a table (R245), the stream (R249), and the round trip
(R258). -/

namespace Sys2Proof.Machine

/-! ### The table (R241, R242) -/

theorem toNat_ofNat8 {b : Nat} (h : b ∈ List.range 256) : (BitVec.ofNat 8 b).toNat = b := by
  rw [BitVec.toNat_ofNat]
  exact Nat.mod_eq_of_lt (List.mem_range.mp h)

/-- The entries of the table are the bytes that occur, each with its count (R241). -/
theorem mem_freqTable {inp : List Byte} {e : Byte × Nat} :
    e ∈ freqTable inp ↔ e.2 = inp.count e.1 ∧ 0 < e.2 := by
  simp only [freqTable, List.mem_filter, List.mem_map, decide_eq_true_eq]
  constructor
  · rintro ⟨⟨b, -, rfl⟩, hpos⟩
    exact ⟨rfl, hpos⟩
  · rintro ⟨hcount, hpos⟩
    have hb : BitVec.ofNat 8 e.1.toNat = e.1 := by simp
    refine ⟨⟨e.1.toNat, List.mem_range.mpr e.1.isLt, ?_⟩, hpos⟩
    rw [hb, ← hcount]

theorem freqTable_ascending (inp : List Byte) : AscendingTable (freqTable inp) := by
  refine ⟨?_, fun e he => (mem_freqTable.mp he).2⟩
  apply List.Pairwise.filter
  rw [List.pairwise_map]
  refine List.Pairwise.imp_of_mem (fun ha hb hlt => ?_) List.pairwise_lt_range
  rwa [toNat_ofNat8 ha, toNat_ofNat8 hb]

theorem freqTable_length_le (inp : List Byte) : (freqTable inp).length ≤ 256 := by
  have := List.length_filter_le (fun e : Byte × Nat => decide (0 < e.2))
    ((List.range 256).map fun b => (BitVec.ofNat 8 b, inp.count (BitVec.ofNat 8 b)))
  rwa [List.length_map, List.length_range] at this

theorem mem_freqTable_fst {inp : List Byte} {b : Byte} : b ∈ (freqTable inp).map Prod.fst ↔ b ∈ inp := by
  rw [← List.count_pos_iff (l := inp), List.mem_map]
  constructor
  · rintro ⟨e, he, rfl⟩
    obtain ⟨hcount, hpos⟩ := mem_freqTable.mp he
    rwa [← hcount]
  · exact fun h => ⟨(b, inp.count b), mem_freqTable.mpr ⟨rfl, h⟩, rfl⟩

theorem AscendingTable.nodup {t : List (Byte × Nat)} (h : AscendingTable t) : (t.map Prod.fst).Nodup := by
  rw [List.Nodup, List.pairwise_map]
  exact h.1.imp fun hlt heq => by rw [heq] at hlt; exact Nat.lt_irrefl _ hlt

/-- The counts add up to the number of bytes (R254). -/
theorem tableTotal_freqTable (inp : List Byte) : tableTotal (freqTable inp) = inp.length := by
  have hcounts : (freqTable inp).map Prod.snd = ((freqTable inp).map Prod.fst).map fun b => inp.count b := by
    rw [List.map_map]
    exact List.map_congr_left fun e he => (mem_freqTable.mp he).1
  have hperm : ((freqTable inp).map Prod.fst).Perm inp.dedup := by
    rw [List.perm_ext_iff_of_nodup (freqTable_ascending inp).nodup inp.nodup_dedup]
    intro b
    rw [mem_freqTable_fst, List.mem_dedup]
  rw [tableTotal, hcounts, (hperm.map _).sum_eq, List.sum_map_count_dedup_eq_length]

theorem freqTable_count_le {inp : List Byte} {e : Byte × Nat} (he : e ∈ freqTable inp) : e.2 ≤ inp.length := by
  rw [(mem_freqTable.mp he).1]
  exact List.count_le_length

/-! ### The tree (R244, R245) -/

/-- The bytes at the leaves, left to right (R248). -/
def treeSymbols (t : HuffTree) : List Byte := (treePaths t).map Prod.fst

@[simp] theorem treeSymbols_leaf (f q : Nat) (b : Byte) : treeSymbols (.leaf f q b) = [b] := rfl

@[simp] theorem treeSymbols_node (f q : Nat) (l r : HuffTree) :
    treeSymbols (.node f q l r) = treeSymbols l ++ treeSymbols r := by
  simp [treeSymbols, treePaths, Function.comp_def]

theorem codeTable_fst (t : HuffTree) : (codeTable t).map Prod.fst = treeSymbols t := by
  cases t <;> rfl

theorem popMin_eq_none {q : List HuffTree} (h : popMin q = none) : q = [] := by
  cases q with
  | nil => rfl
  | cons t ts =>
    simp only [popMin] at h
    split at h
    · cases h
    · split at h <;> cases h

/-- Popping takes one node out of the set (R243). -/
theorem popMin_perm {q rest : List HuffTree} {a : HuffTree} (h : popMin q = some (a, rest)) : (a :: rest).Perm q := by
  induction q generalizing a rest with
  | nil => cases h
  | cons t ts ih =>
    simp only [popMin] at h
    split at h
    next hnone =>
      cases h
      rw [popMin_eq_none hnone]
    next m others hm =>
      split at h <;> cases h
      · exact .refl _
      · exact (List.Perm.swap t a others).trans ((ih hm).cons t)

/-- The merging makes one tree of all the leaves (R245). -/
theorem mergeAll_symbols (fuel : Nat) {m : Nat} {q : List HuffTree} (hq : q ≠ []) (hlen : q.length ≤ fuel) :
    ∃ root, mergeAll fuel m q = some root ∧ (treeSymbols root).Perm (q.flatMap treeSymbols) := by
  induction fuel generalizing m q with
  | zero => exact absurd (List.length_eq_zero_iff.mp (Nat.le_zero.mp hlen)) hq
  | succ fuel ih =>
    rw [mergeAll]
    cases hpop : popMin q with
    | none => exact absurd (popMin_eq_none hpop) hq
    | some ar =>
      obtain ⟨a, q1⟩ := ar
      have hperm := popMin_perm hpop
      simp only
      cases hpop1 : popMin q1 with
      | none =>
        rw [popMin_eq_none hpop1] at hperm
        exact ⟨a, rfl, by simpa using hperm.flatMap_right treeSymbols⟩
      | some br =>
        obtain ⟨b, q2⟩ := br
        have hperm1 : (a :: b :: q2).Perm q := ((popMin_perm hpop1).cons a).trans hperm
        have hlen1 := hperm1.length_eq
        simp only [List.length_cons] at hlen1
        obtain ⟨root, hroot, hsymbols⟩ :=
          ih (m := m + 1) (q := .node (treeFreq a + treeFreq b) m a b :: q2) (List.cons_ne_nil _ _)
            (by simp only [List.length_cons]; omega)
        refine ⟨root, hroot, hsymbols.trans ?_⟩
        simpa using hperm1.flatMap_right treeSymbols

theorem leavesFrom_length (r : Nat) (t : List (Byte × Nat)) : (leavesFrom r t).length = t.length := by
  induction t generalizing r with
  | nil => rfl
  | cons e t ih => rw [leavesFrom, List.length_cons, ih, List.length_cons]

theorem leavesFrom_symbols (r : Nat) (t : List (Byte × Nat)) :
    (leavesFrom r t).flatMap treeSymbols = t.map Prod.fst := by
  induction t generalizing r with
  | nil => rfl
  | cons e t ih => rw [leavesFrom, List.flatMap_cons, ih, treeSymbols_leaf]; rfl

/-- The tree of a table has exactly the table's bytes as leaves (R244, R245). -/
theorem buildTree_symbols {t : List (Byte × Nat)} (ht : t ≠ []) :
    ∃ root, buildTree t = some root ∧ ((codeTable root).map Prod.fst).Perm (t.map Prod.fst) := by
  obtain ⟨root, hroot, hperm⟩ := mergeAll_symbols t.length (m := t.length) (q := leavesFrom 0 t)
    (fun h => ht (List.length_eq_zero_iff.mp (by rw [← leavesFrom_length 0 t, h]; rfl)))
    (leavesFrom_length 0 t).le
  exact ⟨root, hroot, by rw [codeTable_fst, ← leavesFrom_symbols 0 t]; exact hperm⟩

/-- The code of a byte that has one stands in the code table (R42). -/
theorem codeOf_mem {codes : List (Byte × List Bool)} {b : Byte} (h : b ∈ codes.map Prod.fst) :
    (b, codeOf codes b) ∈ codes := by
  cases hlook : codes.lookup b with
  | none =>
    obtain ⟨e, he, rfl⟩ := List.mem_map.mp h
    simpa using List.lookup_eq_none_iff.mp hlook e he
  | some code =>
    obtain ⟨l1, l2, rfl, -⟩ := List.lookup_eq_some_iff.mp hlook
    simp [codeOf, hlook]

/-! ### The stream (R117, R249) -/

/-- The bits of a table entry: byte, then 32-bit count (R117). -/
def entryBits (e : Byte × Nat) : List Bool := fieldBits (e.1.setWidth 64) 8 ++ fieldBits (BitVec.ofNat 64 e.2) 32

/-- The equation of `writeTable` for an entry. It is proved by `delta`: the unfolding tactics would run the 40 bit
writes of the entry. -/
theorem writeTable_cons (k : Sink) (e : Byte × Nat) (t : List (Byte × Nat)) :
    writeTable k (e :: t) = writeTable ((k.writeBits (e.1.setWidth 64) 8).writeBits (BitVec.ofNat 64 e.2) 32) t := by
  delta writeTable
  rfl

theorem writeTable_holds (t : List (Byte × Nat)) {k : Sink} {bits : List Bool} (h : Holds k bits) :
    Holds (writeTable k t) (bits ++ t.flatMap entryBits) := by
  induction t generalizing k bits with
  | nil => rwa [List.flatMap_nil, List.append_nil]
  | cons e t ih =>
    have hentry := (h.writeBits (e.1.setWidth 64) 8).writeBits (BitVec.ofNat 64 e.2) 32
    rw [List.append_assoc] at hentry
    rw [writeTable_cons, List.flatMap_cons, ← List.append_assoc]
    exact ih hentry

theorem writeCodes_holds (codes : List (Byte × List Bool)) (inp : List Byte) {k : Sink} {bits : List Bool}
    (h : Holds k bits) : Holds (writeCodes codes k inp) (bits ++ inp.flatMap (codeOf codes)) := by
  induction inp generalizing k bits with
  | nil => simpa [writeCodes] using h
  | cons b inp ih => simpa [writeCodes] using ih (h.writeAll (codeOf codes b))

/-- `HUFF.ENC` lays out the bits of its stream (R249). -/
theorem huffEnc_laysOut (inp : List Byte) :
    ∃ out, huffEnc inp = .ok out ∧ LaysOut out (huffBits (freqTable inp) (huffCode (freqTable inp)) inp) := by
  have hheader := (writeTable_holds (freqTable inp)
    (Holds.empty.writeBits (BitVec.ofNat 64 (freqTable inp).length) 16)).writeBits (BitVec.ofNat 64 inp.length) 32
  rw [List.nil_append] at hheader
  cases htree : buildTree (freqTable inp) with
  | none =>
    have hcode : inp.flatMap (huffCode (freqTable inp)) = [] := by simp [huffCode, htree]
    rw [huffBits, hcode, List.append_nil]
    exact ⟨_, by rw [huffEnc, htree], hheader.laysOut⟩
  | some root =>
    have hcode : huffCode (freqTable inp) = codeOf (codeTable root) := by
      funext b; simp [huffCode, htree]
    rw [huffBits, hcode]
    exact ⟨_, by rw [huffEnc, htree], (writeCodes_holds (codeTable root) inp hheader).laysOut⟩

/-! ### Reading the stream back (R254) -/

section
variable {bs : List Byte} {rest : List Bool} {r : Source}

theorem readTable_reads (t : List (Byte × Nat)) {last : Option Nat} (h : Ahead bs (t.flatMap entryBits ++ rest) r)
    (ht : AscendingTable t) (hlast : ∀ e ∈ t, notAbove e.1.toNat last = false) (hcount : ∀ e ∈ t, e.2 < 2 ^ 32) :
    ∃ r', readTable (dataOf bs) t.length last r = .ok (t, r') ∧ Ahead bs rest r' := by
  induction t generalizing last r with
  | nil => exact ⟨r, rfl, h⟩
  | cons e t ih =>
    obtain ⟨hpair, hpos⟩ := ht
    obtain ⟨hfirst, hpair⟩ := List.pairwise_cons.mp hpair
    rw [List.flatMap_cons, entryBits, List.append_assoc, List.append_assoc] at h
    have hbyte : (e.1.setWidth 64 : Word64).toNat = e.1.toNat := BitVec.toNat_setWidth_of_le (by decide)
    have hback : (e.1.setWidth 64 : Word64).setWidth 8 = e.1 := by simp
    obtain ⟨r1, hb, h1⟩ := h.readField (by rw [hbyte]; exact e.1.isLt)
    obtain ⟨f, r2, hf, hfval, h2⟩ := h1.readCount (hcount e List.mem_cons_self) (by decide)
    obtain ⟨r3, hmore, h3⟩ := ih h2 (last := some e.1.toNat) ⟨hpair, fun x hx => hpos x (List.mem_cons_of_mem _ hx)⟩
      (fun x hx => by simpa [notAbove] using hfirst x hx) (fun x hx => hcount x (List.mem_cons_of_mem _ hx))
    have hlegal : ¬(notAbove e.1.toNat last = true ∨ f = 0) := by
      rintro (hbad | rfl)
      · simp [hlast e List.mem_cons_self] at hbad
      · have := hpos e List.mem_cons_self
        simp at hfval
        omega
    refine ⟨r3, ?_, h3⟩
    rw [List.length_cons, readTable, hb, except_ok_bind]
    simp only [hf, except_ok_bind, hbyte]
    rw [if_neg hlegal, hmore, except_ok_bind, hback, hfval]

/-- The path of a leaf leads the walk to it (R248, R254). -/
theorem walkTree_path {t : HuffTree} {e : Byte × List Bool} (he : e ∈ treePaths t) (h : Ahead bs (e.2 ++ rest) r) :
    ∃ r', walkTree (dataOf bs) t r = .ok (e.1, r') ∧ Ahead bs rest r' := by
  induction t generalizing e r with
  | leaf f q b =>
    cases List.mem_singleton.mp he
    exact ⟨r, rfl, h⟩
  | node f q left right ihl ihr =>
    simp only [treePaths, List.mem_append, List.mem_map] at he
    obtain ⟨p, hp, rfl⟩ | ⟨p, hp, rfl⟩ := he
    · obtain ⟨r1, hbit, h1⟩ := Ahead.readBit h
      obtain ⟨r2, hwalk, h2⟩ := ihl hp h1
      exact ⟨r2, by simp [walkTree, hbit, hwalk], h2⟩
    · obtain ⟨r1, hbit, h1⟩ := Ahead.readBit h
      obtain ⟨r2, hwalk, h2⟩ := ihr hp h1
      exact ⟨r2, by simp [walkTree, hbit, hwalk], h2⟩

/-- A code of the table reads back as its byte (R254, R256). -/
theorem readSymbol_code {root : HuffTree} {e : Byte × List Bool} (he : e ∈ codeTable root)
    (h : Ahead bs (e.2 ++ rest) r) : ∃ r', readSymbol (dataOf bs) root r = .ok (e.1, r') ∧ Ahead bs rest r' := by
  cases root with
  | leaf f q b =>
    cases List.mem_singleton.mp he
    obtain ⟨r1, hbit, h1⟩ := Ahead.readBit h
    exact ⟨r1, by simp [readSymbol, hbit], h1⟩
  | node f q left right => exact walkTree_path he h

theorem readSymbols_reads {root : HuffTree} (out : List Byte) (hout : ∀ b ∈ out, b ∈ (codeTable root).map Prod.fst)
    (h : Ahead bs (out.flatMap (codeOf (codeTable root)) ++ rest) r) :
    readSymbols (dataOf bs) root out.length r = .ok out := by
  induction out generalizing r with
  | nil => rfl
  | cons b out ih =>
    rw [List.flatMap_cons, List.append_assoc] at h
    obtain ⟨r1, hb, h1⟩ := readSymbol_code (codeOf_mem (hout b List.mem_cons_self)) h
    have hrest := ih (fun x hx => hout x (List.mem_cons_of_mem _ hx)) h1
    simp [readSymbols, hb, hrest]

end

theorem huff_roundTrip {b out : List Byte} (hb : b.length < 2 ^ 32) (h : huffEnc b = .ok out) :
    huffDec out = .ok b := by
  obtain ⟨out', hout', hlay⟩ := huffEnc_laysOut b
  cases hout'.symm.trans h
  obtain ⟨pad, hahead⟩ := hlay.ahead
  rw [huffBits, List.append_assoc, List.append_assoc, List.append_assoc] at hahead
  have hlen := freqTable_length_le b
  obtain ⟨k, r1, hk, hkval, h1⟩ := hahead.readCount (by omega) (by decide)
  obtain ⟨r2, htable, h2⟩ := readTable_reads (freqTable b) (last := none) h1 (freqTable_ascending b) (fun _ _ => rfl)
    fun e he => (freqTable_count_le he).trans_lt hb
  obtain ⟨n, r3, hn, hnval, h3⟩ := h2.readCount hb (by decide)
  rw [huffDec, hk, except_ok_bind]
  simp only [hkval]
  rw [if_neg (by omega), htable, except_ok_bind]
  simp only [hn, except_ok_bind, hnval]
  rw [if_neg (not_not.mpr (tableTotal_freqTable b))]
  by_cases hempty : freqTable b = []
  · have hnil : b = [] := by
      rw [← List.length_eq_zero_iff, ← tableTotal_freqTable b, hempty]
      rfl
    subst hnil
    rfl
  · obtain ⟨root, hroot, hperm⟩ := buildTree_symbols hempty
    have hcode : huffCode (freqTable b) = codeOf (codeTable root) := by
      funext x; simp [huffCode, hroot]
    rw [hcode] at h3
    rw [hroot]
    exact readSymbols_reads b (fun x hx => hperm.mem_iff.mpr (mem_freqTable_fst.mpr hx)) h3

end Sys2Proof.Machine
end
section
/-! SUPPORT. The pipelines (O36): each unit decodes what it encoded, so the chain of the decoders in reverse order
undoes the chain of the encoders (R335). -/

namespace Sys2Proof.Machine

/-- Every unit decodes what it encoded, of an input whose length fits `ILEN` (R8). -/
theorem unitDec_unitEnc (u : CodecUnit) {b out : List Byte} (hb : b.length < 2 ^ 32) (h : unitEnc u b = .ok out) :
    unitDec u out = .ok b := by
  cases u with
  | delta => exact delta_roundTrip h
  | dod => exact dod_roundTrip h
  | dodf => exact dodf_roundTrip h
  | xorf => exact xorf_roundTrip hb h
  | chimp => exact chimp_roundTrip hb h
  | huff => exact huff_roundTrip hb h
  | gr => exact gr_roundTrip hb h
  | bp => exact bp_roundTrip hb h
  | rle => exact rle_roundTrip h

/-- What a first stage that succeeded has done (R330). -/
theorem runStages_cons_eq_ok {cap : Nat} {f : CodecUnit → List Byte → Except Failure (List Byte)} {u : CodecUnit}
    {st : Nat} {rest : List (CodecUnit × Nat)} {b out : List Byte} (h : runStages cap f ((u, st) :: rest) b = .ok out) :
    ∃ r, f u b = .ok r ∧ r.length ≤ cap ∧ runStages cap f rest r = .ok out := by
  cases hu : f u b with
  | error e => rw [runStages_cons_error st rest hu] at h; cases h
  | ok r =>
    rcases Nat.lt_or_ge cap r.length with hlong | hfits
    · rw [runStages_cons_long st rest hu hlong] at h; cases h
    · rw [runStages_cons_ok st rest hu hfits] at h
      exact ⟨r, rfl, hfits, h⟩

/-- Stages that follow stages that succeeded run on their result (R330). -/
theorem runStages_append {cap : Nat} {f : CodecUnit → List Byte → Except Failure (List Byte)}
    {l : List (CodecUnit × Nat)} (l' : List (CodecUnit × Nat)) {b r : List Byte} (h : runStages cap f l b = .ok r) :
    runStages cap f (l ++ l') b = runStages cap f l' r := by
  induction l generalizing b with
  | nil => cases h; rfl
  | cons p l ih =>
    obtain ⟨u, st⟩ := p
    obtain ⟨r1, hu, hfits, hrest⟩ := runStages_cons_eq_ok h
    rw [List.cons_append, runStages_cons_ok st _ hu hfits, ih hrest]

/-- The decoders in reverse order undo the encoders (R331, R335). -/
theorem runStages_unitDec_reverse {cap : Nat} (hcap : cap < 2 ^ 32) {l : List (CodecUnit × Nat)} {b out : List Byte}
    (hb : b.length ≤ cap) (h : runStages cap unitEnc l b = .ok out) :
    runStages cap unitDec l.reverse out = .ok b := by
  induction l generalizing b with
  | nil => cases h; rfl
  | cons p l ih =>
    obtain ⟨u, st⟩ := p
    obtain ⟨r, hu, hfits, hrest⟩ := runStages_cons_eq_ok h
    have hdec := unitDec_unitEnc u (hb.trans_lt hcap) hu
    rw [List.reverse_cons, runStages_append _ (ih hfits hrest), runStages_cons_ok st [] hdec hb]
    rfl

/-- A pipeline that completed with `OK` had a legal descriptor and an input inside the capacity, and delivered the
result of its stages, which fits (R354, R355). -/
theorem pipeCommand_err_none {f : List CodecUnit → List Byte → Except (Failure × BitVec 2) (List Byte)} {s : State}
    (hc : s.cfg.ok = true) (h : (pipeCommand f s).err = none) :
    ∃ us out, s.ilen.toNat ≤ s.cfg.bufCap ∧ pipeStages s.pipe = some us ∧ f us (inputBytes s) = .ok out ∧
      out.length ≤ s.cfg.bufCap ∧ Delivered out s (pipeCommand f s) := by
  rcases Nat.lt_or_ge s.cfg.bufCap s.ilen.toNat with hlong | hfits
  · rw [pipeCommand_tooLong f hlong] at h; cases h
  · cases hp : pipeStages s.pipe with
    | none => rw [pipeCommand_illegal f hp] at h; cases h
    | some us =>
      rw [pipeCommand_of_fits f hfits hp] at h ⊢
      obtain ⟨herror, hlong, hok⟩ := finishClass1_cases (f us (inputBytes s)) s hc
      cases hres : f us (inputBytes s) with
      | error e => have := (herror e.1 e.2 hres).flags.err; rw [h] at this; cases this
      | ok out =>
        rcases Nat.lt_or_ge s.cfg.bufCap out.length with hout | hout
        · have := (hlong out hres hout).flags.err; rw [h] at this; cases this
        · exact ⟨us, out, hfits, rfl, hres, hout, hres ▸ hok out hres hout⟩

/-- A pipeline whose stages give a result that fits delivers it (R355). -/
theorem pipeCommand_delivers {f : List CodecUnit → List Byte → Except (Failure × BitVec 2) (List Byte)} {s : State}
    {us : List CodecUnit} {out : List Byte} (hc : s.cfg.ok = true) (hi : s.ilen.toNat ≤ s.cfg.bufCap)
    (hp : pipeStages s.pipe = some us) (hres : f us (inputBytes s) = .ok out) (hout : out.length ≤ s.cfg.bufCap) :
    Delivered out s (pipeCommand f s) := by
  rw [pipeCommand_of_fits f hi hp]
  exact (finishClass1_cases _ s hc).2.2 out hres hout

@[simp] theorem inputBytes_length (s : State) : (inputBytes s).length = s.ilen.toNat :=
  Memory.length_readBytes _ _ _

/-- Settles O36: the delivered output is what the encoders' chain gave, and the reverse chain of decoders undoes it. -/
theorem pipelineRoundTrip : Obligations.PipelineRoundTrip := by
  intro s t s' hc ht herr hcfg hpipe hinp
  cases ht
  obtain ⟨us, out, hi, hus, henc, hout, hdel⟩ := pipeCommand_err_none hc herr
  have hb : (inputBytes s).length ≤ s.cfg.bufCap := by rwa [inputBytes_length]
  have hinp' : inputBytes s' = out := hinp.trans hdel.output
  refine ⟨_, rfl, pipeCommand_delivers (us := us) (by rwa [hcfg]) ?_ (by rwa [hpipe]) ?_ (by rwa [hcfg])⟩
  · rwa [← inputBytes_length, hinp', hcfg]
  · rw [hinp', pipeDecode, hcfg]
    exact runStages_unitDec_reverse (length_lt_of_cap hc (Nat.le_refl _)) hb henc

end Sys2Proof.Machine
end

section
/-! SUPPORT. What every command does whatever its result (O16, O17, O31): it completes and leaves the host's side alone,
said once for all commands; and what the steps of the engine do to `SERR`. -/

namespace Sys2Proof.Machine

/-! ### Completion with the host's side kept (R354) -/

/-- The effect common to all commands: the flags of a completion with some code and stage, the host's side kept. -/
def Completes (s t : State) : Prop := KeepsHostSide s t ∧ ∃ c st, CompletedWith c st s t

theorem Completes.of_complete (c : Option Failure) (st : BitVec 2) {s u : State} (hhost : KeepsHostSide s u)
    (hserr : u.serr = s.serr) : Completes s (complete c st u) :=
  ⟨{ hhost with }, c, st, CompletedWith.of_complete c st hserr⟩

theorem FailedPlain.completes {f : Failure} {s t : State} (h : FailedPlain f s t) : Completes s t :=
  ⟨h.host, _, _, h.flags⟩

theorem SucceededPlain.completes {k : Option Sink} {r : Option Source} {v : Word64} {s t : State}
    (h : SucceededPlain k r v s t) : Completes s t := ⟨h.host, _, _, h.flags⟩

theorem illegalCommand_completes (s : State) : Completes s (illegalCommand s) :=
  (illegalCommand_failedPlain s).completes

/-- A command that failed records it (R24). -/
theorem Completes.serr_of_err {s t : State} (h : Completes s t) (herr : t.err ≠ none) : t.serr = true := by
  obtain ⟨-, c, st, hflags⟩ := h
  have hc : c.isSome = true := Option.isSome_iff_ne_none.mpr (hflags.err ▸ herr)
  rw [hflags.serr, hc, Bool.or_true]

/-- No command clears the record of a failure (R24). -/
theorem Completes.keeps_serr {s t : State} (h : Completes s t) (hs : s.serr = true) : t.serr = true := by
  obtain ⟨-, c, st, hflags⟩ := h
  rw [hflags.serr, hs, Bool.true_or]

/-! ### The bit-stream commands complete -/

theorem sinkCommand_completes (n : Nat) (put : Sink → Sink) (s : State) : Completes s (sinkCommand n put s) := by
  obtain ⟨hnone, hsome⟩ := sinkCommand_cases n put s
  cases hk : s.sink with
  | none => rw [hnone hk]; exact illegalCommand_completes s
  | some k =>
    obtain ⟨hfull, hroom⟩ := hsome k hk
    rcases Nat.lt_or_ge (8 * s.cfg.bufCap) (k.bitCount + n) with hn | hn
    · rw [hfull hn]; exact (failPlain_failedPlain _ s).completes
    · rw [hroom hn]; exact (setSink_succeeded _ s).completes

theorem sourceCommand_completes (n : Nat) (s : State) : Completes s (sourceCommand n s) := by
  obtain ⟨hnone, hsome⟩ := sourceCommand_cases n s
  cases hr : s.source with
  | none => rw [hnone hr]; exact illegalCommand_completes s
  | some r =>
    obtain ⟨hshort, hroom⟩ := hsome r hr
    rcases Nat.lt_or_ge (8 * r.len) (r.pos + n) with hn | hn
    · rw [hshort hn]; exact (failPlain_failedPlain _ s).completes
    · rw [hroom hn]; exact (setRdata_succeeded _ _ s).completes

theorem execBsWbits_completes (n : BitVec 8) (s : State) : ∃ t, execBsWbits n s = .next t ∧ Completes s t := by
  unfold execBsWbits
  split
  · exact ⟨_, rfl, illegalCommand_completes s⟩
  · exact ⟨_, rfl, sinkCommand_completes _ _ s⟩

theorem execBsRbits_completes (n : BitVec 8) (s : State) : ∃ t, execBsRbits n s = .next t ∧ Completes s t := by
  unfold execBsRbits
  split
  · exact ⟨_, rfl, illegalCommand_completes s⟩
  · exact ⟨_, rfl, sourceCommand_completes _ s⟩

theorem execBsFinish_completes (s : State) : ∃ t, execBsFinish s = .next t ∧ Completes s t := by
  unfold execBsFinish
  split
  · exact ⟨_, rfl, illegalCommand_completes s⟩
  · exact ⟨_, rfl, .of_complete _ _ { KeepsHostSide.refl s with } rfl⟩

theorem execBsRopen_completes (s : State) : ∃ t, execBsRopen s = .next t ∧ Completes s t := by
  unfold execBsRopen
  split
  · exact ⟨_, rfl, illegalCommand_completes s⟩
  · exact ⟨_, rfl, (setSource_succeeded _ s).completes⟩

theorem execBsRbit_completes (s : State) : ∃ t, execBsRbit s = .next t ∧ Completes s t := by
  unfold execBsRbit
  split
  · exact ⟨_, rfl, illegalCommand_completes s⟩
  · split
    · exact ⟨_, rfl, (failPlain_failedPlain _ s).completes⟩
    · exact ⟨_, rfl, (setRdata_succeeded _ _ s).completes⟩

theorem execBsAtend_completes (s : State) : ∃ t, execBsAtend s = .next t ∧ Completes s t := by
  unfold execBsAtend
  split
  · exact ⟨_, rfl, illegalCommand_completes s⟩
  · exact ⟨_, rfl, (setRdata_succeeded _ s.source s).completes⟩

/-! ### The class 1 commands complete (R354 to R356) -/

theorem finishClass1_completes (r : Except (Failure × BitVec 2) (List Byte)) (s : State) :
    Completes s (finishClass1 r (destroySessions (accepted s))) := by
  have hfail (f : Failure) (st : BitVec 2) : Completes s (failClass1 f st (destroySessions (accepted s))) :=
    ⟨(failClass1_failed f st s).host, _, _, (failClass1_failed f st s).flags⟩
  rcases r with ⟨f, st⟩ | out
  · exact hfail f st
  · simp only [finishClass1]
    split
    · exact hfail _ _
    · exact .of_complete _ _ { KeepsHostSide.refl s with } rfl

theorem codecCommand_completes (f : List Byte → Except Failure (List Byte)) (s : State) :
    Completes s (codecCommand f s) := by
  rcases Nat.lt_or_ge s.cfg.bufCap s.ilen.toNat with hlong | hfits
  · rw [codecCommand_tooLong f hlong]; exact illegalCommand_completes s
  · rw [codecCommand_of_fits f hfits]; exact finishClass1_completes _ s

theorem pipeCommand_completes (f : List CodecUnit → List Byte → Except (Failure × BitVec 2) (List Byte)) (s : State) :
    Completes s (pipeCommand f s) := by
  rcases Nat.lt_or_ge s.cfg.bufCap s.ilen.toNat with hlong | hfits
  · rw [pipeCommand_tooLong f hlong]; exact illegalCommand_completes s
  · cases hp : pipeStages s.pipe with
    | none => rw [pipeCommand_illegal f hp]; exact illegalCommand_completes s
    | some us => rw [pipeCommand_of_fits f hfits hp]; exact finishClass1_completes _ s

/-! ### Every command completes -/

/-- A class 1 command is the wrapper of the codec commands or that of the pipelines (R93, R354). -/
theorem exec_class1 {i : Instr} (h : isClass1 i = true) (s : State) :
    (∃ f, exec i s = .next (codecCommand f s)) ∨ ∃ f, exec i s = .next (pipeCommand f s) := by
  obtain ⟨f, hf⟩ | rfl | rfl := class1_cases h
  · exact .inl ⟨f, exec_codecFunction s hf⟩
  · exact .inr ⟨_, rfl⟩
  · exact .inr ⟨_, rfl⟩

theorem exec_completes (i : Instr) (s : State) : ∃ t, exec i s = .next t ∧ Completes s t := by
  cases hc : isClass1 i with
  | true =>
    obtain ⟨f, hf⟩ | ⟨f, hf⟩ := exec_class1 hc s
    · exact ⟨_, hf, codecCommand_completes f s⟩
    · exact ⟨_, hf, pipeCommand_completes f s⟩
  | false =>
    cases i with
    | bsWopen => exact ⟨_, rfl, (setSink_succeeded _ s).completes⟩
    | bsWbit => exact ⟨_, rfl, sinkCommand_completes _ _ s⟩
    | bsWbits n => exact execBsWbits_completes n s
    | bsFinish => exact execBsFinish_completes s
    | bsRopen => exact execBsRopen_completes s
    | bsRbit => exact execBsRbit_completes s
    | bsRbits n => exact execBsRbits_completes n s
    | bsAtend => exact execBsAtend_completes s
    | _ => cases hc

theorem completes_of_exec {i : Instr} {s t : State} (h : exec i s = .next t) : Completes s t := by
  obtain ⟨u, hu, hcompletes⟩ := exec_completes i s
  rw [h] at hu
  cases hu
  exact hcompletes

theorem completes_of_runWord {w : Word32} {s t : State} (h : runWord w s = .next t) : Completes s t := by
  cases hd : decode w with
  | error e => rw [runWord_error s hd] at h; cases h; exact illegalCommand_completes s
  | ok i => rw [runWord_ok s hd] at h; exact completes_of_exec h

/-- Settles O16. -/
theorem noCommandWritesTheHostSide : Obligations.NoCommandWritesTheHostSide :=
  fun _ _ _ h => (completes_of_exec h).1

/-- Settles O31: both wrappers of class 1 turn an overlong input away before anything else. -/
theorem overlongInputIsIllegal : Obligations.OverlongInputIsIllegal := by
  intro i s hclass hlong
  refine ⟨illegalCommand s, ?_, illegalCommand_failedPlain s⟩
  obtain ⟨f, hf⟩ | ⟨f, hf⟩ := exec_class1 hclass s
  · rw [hf, codecCommand_tooLong f hlong]
  · rw [hf, pipeCommand_tooLong f hlong]

/-! ### `SERR` under the host's accesses (R24, R365) -/

/-- What the host sees of an accepted command: its flags cleared, the sessions kept or gone (R35, R354). -/
theorem inFlight_cases (w : Word32) (k : Nat) (s : State) :
    inFlight w k s = { accepted s with busyFor := some k } ∨
      inFlight w k s = { destroySessions (accepted s) with busyFor := some k } := by
  cases h : startDestroys w (accepted s) with
  | false => exact .inl (by simp [inFlight, h])
  | true => exact .inr (by simp [inFlight, h])

@[simp] theorem inFlight_serr (w : Word32) (k : Nat) (s : State) : (inFlight w k s).serr = s.serr := by
  obtain h | h := inFlight_cases w k s <;> rw [h] <;> rfl

theorem writeCmd_keeps_serr {w : Word32} {k : Nat} {s t : State} (h : writeCmd w k s = .next t)
    (hs : s.serr = true) : t.serr = true := by
  unfold writeCmd at h
  split at h
  · cases h; exact hs
  · cases k with
    | zero => exact (completes_of_runWord h).keeps_serr hs
    | succ k => cases h; rw [inFlight_serr]; exact hs

@[simp] theorem writeCtrl_serr (v : Word64) (s : State) : (writeCtrl v s).serr = s.serr := by
  unfold writeCtrl
  split <;> rfl

@[simp] theorem writeRegister_serr (num : Nat) (v : Word64) (s : State) : (writeRegister num v s).serr = s.serr := by
  unfold writeRegister
  split
  iterate 3 split <;> rfl
  · exact writeCtrl_serr v s
  · rfl

@[simp] theorem readRegister_serr (num : Nat) (s : State) : (readRegister num s).serr = s.serr := by
  unfold readRegister
  split <;> rfl

@[simp] theorem readByte_serr (m : Memory) (idx : Nat) (s : State) : (readByte m idx s).serr = s.serr := by
  unfold readByte
  split <;> rfl

theorem writeIbuf_serr {idx : Nat} {b : Byte} {s t : State} (h : writeIbuf idx b s = .next t) : t.serr = s.serr := by
  unfold writeIbuf at h
  split at h
  · cases h
  · split at h <;> cases h <;> rfl

/-- Of the host's accesses only the reset clears `SERR`. -/
theorem hostEvent_keeps_serr {e : HostEvent} {s t : State} (h : hostEvent e s = .next t) (he : e ≠ .reset)
    (hs : s.serr = true) : t.serr = true := by
  cases e with
  | writeCmd w k => exact writeCmd_keeps_serr h hs
  | writeReg num v =>
    simp only [hostEvent] at h
    split at h
    · exact writeCmd_keeps_serr h hs
    · cases h; rwa [writeRegister_serr]
  | readReg num => cases h; rwa [readRegister_serr]
  | writeIbuf idx b => rwa [writeIbuf_serr h]
  | readIbuf idx =>
    simp only [hostEvent] at h
    split at h <;> cases h
    rwa [readByte_serr]
  | readObuf idx =>
    simp only [hostEvent] at h
    split at h <;> cases h
    rwa [readByte_serr]
  | reset => exact absurd rfl he

/-- Settles O17: a completion records its failure, and neither a completion nor an access but reset clears `SERR`. -/
theorem stickyErrorOnlyResetClears : Obligations.StickyErrorOnlyResetClears := by
  refine ⟨fun i s t h => (completes_of_exec h).serr_of_err, fun s t ht hs hreset => ?_⟩
  obtain ⟨rest, e, hin, -, hstep⟩ | ⟨-, -, hstep⟩ | ⟨-, hstep⟩ := step_cases s <;> rw [hstep] at ht
  · exact hostEvent_keeps_serr ht (fun he => hreset rest (he ▸ hin)) hs
  · cases ht; exact hs
  · exact (completes_of_runWord ht).keeps_serr hs

end Sys2Proof.Machine
end

section
/-! SUPPORT. The words that are no command and what a write of `CMD` to an idle engine does (O3, O5). -/

namespace Sys2Proof.Machine

/-! ### The fields of a word as numbers (R90) -/

theorem wordReserved_eq_zero_iff (w : Word32) : wordReserved w = 0 ↔ w.toNat < 65536 := by
  have hlt := w.isLt
  rw [← BitVec.toNat_inj]
  simp only [wordReserved, BitVec.extractLsb'_toNat, Nat.shiftRight_eq_div_pow, BitVec.toNat_zero, BitVec.ofNat_eq_ofNat]
  omega

@[simp] theorem wordOpc_toNat (w : Word32) : (wordOpc w).toNat = w.toNat % 256 := by
  simp [wordOpc, BitVec.extractLsb'_toNat]

@[simp] theorem wordCount_toNat (w : Word32) : (wordCount w).toNat = w.toNat / 256 % 256 := by
  simp [wordCount, BitVec.extractLsb'_toNat, Nat.shiftRight_eq_div_pow]

/-! ### The operation codes (R95, R104) -/

/-- The operation codes the table leaves free, range by range (R104). -/
def freeOpcode (c : Nat) : Prop :=
  c = 0x00 ∨ (0x09 ≤ c ∧ c ≤ 0x0F) ∨ (0x19 ≤ c ∧ c ≤ 0x1E) ∨ (0x99 ≤ c ∧ c ≤ 0x9E) ∨ (0x20 ≤ c ∧ c ≤ 0x8F) ∨ 0xA0 ≤ c

/-- A code names a command exactly when it is not free, and the codes `0x03` and `0x07` alone take a count. -/
theorem instrOfOpcode_spec (opc n : BitVec 8) :
    (freeOpcode opc.toNat → instrOfOpcode opc n = none) ∧
    (¬ freeOpcode opc.toNat →
      ∃ i, instrOfOpcode opc n = some i ∧ (takesCount i = true ↔ opc.toNat = 0x03 ∨ opc.toNat = 0x07)) := by
  unfold instrOfOpcode freeOpcode
  split
  -- the last arm of the map: no row of the table has the code
  case h_29 =>
    refine ⟨fun _ => rfl, fun hused => ?_⟩
    exfalso
    simp only [imp_false, ← BitVec.toNat_inj, BitVec.reduceToNat] at *
    have hlt := opc.isLt
    omega
  all_goals exact ⟨fun h => absurd h (by decide), fun _ => ⟨_, rfl, by simp [takesCount]⟩⟩

/-! ### The illegal words (R91, R104) -/

/-- Check 3 of R91 fails: the count exceeds 64 where the command of the code `c` takes one, and is not 0 elsewhere. -/
def badCountFor (c n : Nat) : Prop := if c = 0x03 ∨ c = 0x07 then 64 < n else n ≠ 0

/-- The ranges of R104 are the words that fail one of the three checks of R91. -/
theorem illegalWord_iff (w : Word32) :
    illegalWord w ↔
      65536 ≤ w.toNat ∨ freeOpcode (w.toNat % 256) ∨ badCountFor (w.toNat % 256) (w.toNat / 256 % 256) := by
  unfold illegalWord freeOpcode badCountFor
  split <;> omega

/-- A word without reserved bits and with the code of a command is decoded by its count alone (R91). -/
theorem decode_of_opcode {w : Word32} {i : Instr} (hres : w.toNat < 65536)
    (hi : instrOfOpcode (wordOpc w) (wordCount w) = some i)
    (hcount : takesCount i = true ↔ w.toNat % 256 = 0x03 ∨ w.toNat % 256 = 0x07) :
    (badCountFor (w.toNat % 256) (w.toNat / 256 % 256) → decode w = .error (.badCount (wordCount w))) ∧
    (¬ badCountFor (w.toNat % 256) (w.toNat / 256 % 256) → decode w = .ok i) := by
  have hbad : (if takesCount i then 64 < (wordCount w).toNat else wordCount w ≠ 0) ↔
      badCountFor (w.toNat % 256) (w.toNat / 256 % 256) := by
    simp only [badCountFor, hcount, ne_eq, ← BitVec.toNat_inj, wordCount_toNat,
      BitVec.ofNat_eq_ofNat, BitVec.toNat_zero]
  have hzero := (wordReserved_eq_zero_iff w).mpr hres
  refine ⟨fun h => ?_, fun h => ?_⟩
  · rw [decode, if_neg (not_not.mpr hzero), hi]
    exact if_pos (hbad.mpr h)
  · rw [decode, if_neg (not_not.mpr hzero), hi]
    exact if_neg (mt hbad.mp h)

/-- Every illegal word is refused, every other word is a command (R104). -/
theorem decode_cases (w : Word32) :
    (illegalWord w → ∃ e, decode w = .error e) ∧ (¬ illegalWord w → ∃ i, decode w = .ok i) := by
  rw [illegalWord_iff]
  rcases Nat.lt_or_ge w.toNat 65536 with hres | hres
  · obtain ⟨hfree, hused⟩ := instrOfOpcode_spec (wordOpc w) (wordCount w)
    rw [wordOpc_toNat] at hfree hused
    by_cases hf : freeOpcode (w.toNat % 256)
    · refine ⟨fun _ => ⟨.unknownOpcode (wordOpc w), ?_⟩, fun h => absurd (.inr (.inl hf)) h⟩
      rw [decode, if_neg (not_not.mpr ((wordReserved_eq_zero_iff w).mpr hres)), hfree hf]
    · obtain ⟨i, hi, hcount⟩ := hused hf
      obtain ⟨hbad, hok⟩ := decode_of_opcode hres hi hcount
      refine ⟨fun h => ⟨_, hbad ?_⟩, fun h => ⟨i, hok fun hb => h (.inr (.inr hb))⟩⟩
      exact (h.resolve_left (Nat.not_le.mpr hres)).resolve_left hf
  · refine ⟨fun _ => ⟨.reservedBits, ?_⟩, fun h => absurd (.inl hres) h⟩
    exact if_pos (mt (wordReserved_eq_zero_iff w).mp (Nat.not_lt.mpr hres))

theorem decode_error_of_illegalWord {w : Word32} (h : illegalWord w) : ∃ e, decode w = .error e := (decode_cases w).1 h

theorem decode_ok_iff (w : Word32) : (∃ i, decode w = .ok i) ↔ ¬ illegalWord w := by
  refine ⟨fun ⟨i, hi⟩ hill => ?_, (decode_cases w).2⟩
  obtain ⟨e, he⟩ := decode_error_of_illegalWord hill
  rw [hi] at he
  cases he

/-! ### A write of `CMD` to an idle engine (R22, R23) -/

theorem writeCmd_zero_of_idle {s : State} (w : Word32) (hidle : s.busyFor = none) :
    writeCmd w 0 s = runWord w (latchCommand w s) := by
  simp [writeCmd, busy, hidle]

/-- Both accesses that write `CMD` latch the word and run it in the same step (R22, R395). -/
theorem step_cmdWrite {s : State} {w : Word32} {v : Word64} {rest : List HostEvent} (hidle : s.busyFor = none)
    (hin : s.inputs = .writeCmd w 0 :: rest ∨ (s.inputs = .writeReg 0 v :: rest ∧ v.setWidth 32 = w)) :
    step s = runWord w { s with inputs := rest, cmd := w } := by
  obtain hin | ⟨hin, rfl⟩ := hin <;> rw [step_idle_cons hidle hin] <;> exact writeCmd_zero_of_idle _ hidle

/-- Settles O5. -/
theorem stepRunsTheDecodedCommand : Obligations.StepRunsTheDecodedCommand := by
  intro s w v rest i hidle hin hdecode
  rw [step_cmdWrite hidle hin, runWord_ok _ hdecode]

/-- Settles O3: the decoder refuses exactly the listed words, and a refused word completes with `IllegalCommand`. -/
theorem illegalWordsChangeOnlyCmdAndStatus : Obligations.IllegalWordsChangeOnlyCmdAndStatus := by
  refine ⟨decode_ok_iff, fun s w v rest hill hidle hin => ?_⟩
  obtain ⟨e, he⟩ := decode_error_of_illegalWord hill
  exact ⟨_, (step_cmdWrite hidle hin).trans (runWord_error _ he), rfl, rfl, illegalCommand_failedPlain _⟩

end Sys2Proof.Machine
end

section
/-! SUPPORT. The host's side of the engine: the words made of flags, register and buffer accesses, `CTRL`, the interrupt
line and reset (O8 to O13). -/

namespace Sys2Proof.Machine

/-! ### The `STATUS` and `CTRL` words (R24, R29, R350) -/

/-- The number of two fields side by side. -/
theorem toNat_append_eq_add {m n : Nat} (x : BitVec m) (y : BitVec n) :
    (x ++ y).toNat = x.toNat * 2 ^ n + y.toNat := by
  rw [BitVec.toNat_append, ← Nat.shiftLeft_add_eq_or_of_lt y.isLt, Nat.shiftLeft_eq]

theorem statusWord_toNat (s : State) :
    (statusWord s).toNat = (busy s).toNat + 2 * s.done.toNat + 16 * (errCode s.err).toNat + 256 * s.stage.toNat
      + 1024 * s.sink.isSome.toNat + 2048 * s.source.isSome.toNat + 4096 * s.serr.toNat := by
  simp only [statusWord, wopen, ropen, toNat_append_eq_add, BitVec.toNat_ofBool, BitVec.toNat_zero]
  omega

theorem ctrlWord_toNat (s : State) : (ctrlWord s).toNat = s.ie.toNat := by
  rw [ctrlWord, toNat_append_eq_add, BitVec.toNat_ofBool, BitVec.toNat_zero, Nat.zero_mul, Nat.zero_add]

@[simp] theorem statusWord_applyReset (s : State) : statusWord (applyReset s) = 0 := by
  rw [← BitVec.toNat_inj, statusWord_toNat]
  rfl

@[simp] theorem ctrlWord_applyReset (s : State) : ctrlWord (applyReset s) = 0 := by
  rw [← BitVec.toNat_inj, ctrlWord_toNat]
  rfl

/-- Settles O11. -/
theorem statusWordFields : Obligations.StatusWordFields :=
  ⟨statusWord_toNat, rfl, rfl, rfl, rfl, rfl, rfl, rfl⟩

/-! ### Accesses that reach the engine

A completion that is due comes before the host's access (log entry 3); in every other state the access comes at once. -/

theorem step_access {s : State} {e : HostEvent} {rest : List HostEvent} (hdue : s.busyFor ≠ some 0)
    (hin : s.inputs = e :: rest) :
    step s = hostEvent e { s with inputs := rest, busyFor := s.busyFor.map (· - 1) } := by
  obtain ⟨rest', e', hin', -, hstep⟩ | ⟨hnil, -⟩ | ⟨hdue', -⟩ := step_cases s
  · rw [hin] at hin'
    cases hin'
    exact hstep
  · rw [hin] at hnil; cases hnil
  · exact absurd hdue' hdue

theorem hostEvent_writeReg {num : Nat} (v : Word64) (s : State) (h : num ≠ 0) :
    hostEvent (.writeReg num v) s = .next (writeRegister num v s) := if_neg h

theorem writeCtrl_eq (v : Word64) (s : State) :
    writeCtrl v s = { s with ie := v.getLsbD 0, done := s.done && !v.getLsbD 1 } := by
  unfold writeCtrl
  split
  next hack => rw [hack, Bool.not_true, Bool.and_false]; rfl
  next hack => rw [Bool.eq_false_of_not_eq_true hack, Bool.not_false, Bool.and_true]

theorem step_ctrlWrite {s : State} {v : Word64} {rest : List HostEvent} (hdue : s.busyFor ≠ some 0)
    (hin : s.inputs = .writeReg 7 v :: rest) :
    step s = .next { s with inputs := rest, busyFor := s.busyFor.map (· - 1), ie := v.getLsbD 0,
                            done := s.done && !v.getLsbD 1 } := by
  rw [step_access hdue hin, hostEvent_writeReg _ _ (by decide)]
  exact congrArg _ (writeCtrl_eq v _)

theorem step_reset {s : State} {rest : List HostEvent} (hdue : s.busyFor ≠ some 0) (hin : s.inputs = .reset :: rest) :
    step s = .next (applyReset { s with inputs := rest, busyFor := s.busyFor.map (· - 1) }) := step_access hdue hin

/-- Settles O9. -/
theorem ctrlWriteSetsEnableAndAcknowledges : Obligations.CtrlWriteSetsEnableAndAcknowledges := by
  intro s rest v hin hdue
  refine ⟨_, step_ctrlWrite hdue hin, rfl, ?_⟩
  rw [ctrlWord_toNat]
  cases v.getLsbD 0 <;> rfl

/-- Settles O12: a reset state has the values of R48 whatever was there before. -/
theorem resetClearsRegistersAndSessions : Obligations.ResetClearsRegistersAndSessions := by
  refine ⟨?_, fun s rest hdue hin => ⟨_, step_reset hdue hin, ?_⟩⟩
  · rintro s rfl
    exact ⟨rfl, rfl, rfl, rfl, rfl, rfl, rfl, rfl, rfl, rfl, rfl, rfl⟩
  · exact ⟨rfl, statusWord_applyReset _, rfl, rfl, rfl, rfl, rfl, ctrlWord_applyReset _,
      rfl, rfl, rfl, rfl, rfl, rfl, rfl, rfl⟩

/-! ### The interrupt line (R30, R362) -/

theorem Completes.irq_eq {s t : State} (h : Completes s t) : irq t = s.ie := by
  obtain ⟨hhost, c, st, hflags⟩ := h
  rw [irq, hflags.done, hhost.ie, Bool.true_and]

theorem irq_of_not_done {s : State} (h : s.done = false) : irq s = false := by rw [irq, h, Bool.false_and]

/-- An accepted command shows `BUSY`, and `DONE` is clear (R24, R354). -/
theorem inFlight_flags (w : Word32) (k : Nat) (s : State) :
    busy (inFlight w k s) = true ∧ (inFlight w k s).done = false := by
  obtain h | h := inFlight_cases w k s <;> rw [h] <;> exact ⟨rfl, rfl⟩

theorem step_cmdAccepted {s : State} {w : Word32} {k : Nat} {rest : List HostEvent} (hidle : s.busyFor = none)
    (hin : s.inputs = .writeCmd w (k + 1) :: rest) :
    step s = .next (inFlight w k (latchCommand w { s with inputs := rest })) := by
  rw [step_idle_cons hidle hin]
  simp [hostEvent, writeCmd, busy, hidle]

theorem ne_due_of_idle {s : State} (hidle : s.busyFor = none) : s.busyFor ≠ some 0 := by simp [hidle]

/-- Settles O10: a completion sets `DONE`; an acknowledge, an acceptance and a reset clear it. -/
theorem interruptLineFollowsDoneAndEnable : Obligations.InterruptLineFollowsDoneAndEnable := by
  refine ⟨fun i s t h => (completes_of_exec h).irq_eq, ?_, ?_, ?_⟩
  · intro s rest v hidle hin hack
    exact ⟨_, step_ctrlWrite (ne_due_of_idle hidle) hin, irq_of_not_done (by simp [hack])⟩
  · intro s rest w k hidle hin
    obtain ⟨hbusy, hdone⟩ := inFlight_flags w k (latchCommand w { s with inputs := rest })
    exact ⟨_, step_cmdAccepted hidle hin, hbusy, irq_of_not_done hdone⟩
  · intro s rest hidle hin
    exact ⟨_, step_reset (ne_due_of_idle hidle) hin, irq_of_not_done rfl⟩

/-! ### Registers by number (R22) -/

/-- The writable registers of an idle engine take the value, the other numbers ignore it. -/
theorem writeRegister_idle {num : Nat} (v : Word64) {s : State} (hidle : s.busyFor = none) :
    (num = 2 → writeRegister num v s = { s with ilen := v.setWidth 32 }) ∧
    (num = 4 → writeRegister num v s = { s with wdata := v }) ∧
    (num = 6 → writeRegister num v s = { s with pipe := v.setWidth 32 }) ∧
    (num = 1 ∨ num = 3 ∨ num = 5 ∨ 8 ≤ num → writeRegister num v s = s) := by
  refine ⟨?_, ?_, ?_, fun h => ?_⟩
  iterate 3
    rintro rfl
    simp [writeRegister, busy, hidle]
  · obtain rfl | rfl | rfl | h := h
    iterate 3 rfl
    obtain ⟨k, rfl⟩ := Nat.exists_eq_add_of_le' h
    rfl

/-- The 32-bit registers read zero-extended. -/
theorem toNat_setWidth64 (x : Word32) : (x.setWidth 64 : Word64).toNat = x.toNat :=
  BitVec.toNat_setWidth_of_le (by decide)

theorem registerValue_nonexistent {num : Nat} (h : 8 ≤ num) (s : State) : registerValue num s = 0 := by
  obtain ⟨k, rfl⟩ := Nat.exists_eq_add_of_le' h
  rfl

theorem readRegister_idle (num : Nat) {s : State} (hidle : s.busyFor = none) :
    readRegister num s = { s with hostRead := registerValue num s } := by
  simp [readRegister, busy, hidle, hostReads]

/-- Settles O8. -/
theorem registerAccessesByNumber : Obligations.RegisterAccessesByNumber := by
  intro s rest num v hidle
  refine ⟨fun hin => ?_, fun hin => ?_⟩
  · have hstep (h : num ≠ 0) := (step_idle_cons hidle hin).trans (hostEvent_writeReg v _ h)
    obtain ⟨hilen, hwdata, hpipe, hignored⟩ :=
      writeRegister_idle (num := num) v (s := { s with inputs := rest }) hidle
    exact ⟨fun h => by rw [hstep (by omega), hilen h], fun h => by rw [hstep (by omega), hwdata h],
      fun h => by rw [hstep (by omega), hpipe h], fun h => by rw [hstep (by omega), hignored h]⟩
  · refine ⟨registerValue num { s with inputs := rest }, ?_, ?_⟩
    · rw [step_idle_cons hidle hin]
      exact congrArg Host.Outcome.next (readRegister_idle (s := { s with inputs := rest }) num hidle)
    · refine ⟨?_, ?_, ?_, ?_, ?_, ?_, ?_, ?_, fun h => registerValue_nonexistent h _⟩ <;> rintro rfl
      · exact toNat_setWidth64 _
      · exact toNat_setWidth64 _
      · exact toNat_setWidth64 _
      · exact toNat_setWidth64 _
      · rfl
      · rfl
      · exact toNat_setWidth64 _
      · exact (toNat_setWidth64 _).trans (ctrlWord_toNat _)

/-! ### Buffer bytes by index (R31) -/

theorem writeIbuf_idle {s : State} {idx : Nat} (b : Byte) (hidle : s.busyFor = none) (hidx : idx < s.cfg.bufCap) :
    writeIbuf idx b s = .next { s with ibuf := s.ibuf.write idx b } := by
  simp [writeIbuf, busy, hidle, Nat.not_le.mpr hidx]

theorem readByte_idle {s : State} (m : Memory) (idx : Nat) (hidle : s.busyFor = none) :
    readByte m idx s = { s with hostRead := (m.read idx).setWidth 64 } := by
  simp [readByte, busy, hidle, hostReads]

theorem hostEvent_readIbuf_idle {s : State} {idx : Nat} (hidle : s.busyFor = none) (hidx : idx < s.cfg.bufCap) :
    hostEvent (.readIbuf idx) s = .next { s with hostRead := (s.ibuf.read idx).setWidth 64 } := by
  rw [hostEvent, if_neg (Nat.not_le.mpr hidx), readByte_idle _ _ hidle]

theorem hostEvent_readObuf_idle {s : State} {idx : Nat} (hidle : s.busyFor = none) (hidx : idx < s.cfg.bufCap) :
    hostEvent (.readObuf idx) s = .next { s with hostRead := (s.obuf.read idx).setWidth 64 } := by
  rw [hostEvent, if_neg (Nat.not_le.mpr hidx), readByte_idle _ _ hidle]

/-- Settles O13. -/
theorem bufferAccessesByIndex : Obligations.BufferAccessesByIndex := by
  intro s rest idx b hidle
  refine ⟨fun hin hidx => ?_, fun hin hidx => ?_, fun hin hidx => ?_, fun hidx => ?_⟩
  · rw [step_idle_cons hidle hin]
    exact ⟨_, writeIbuf_idle b hidle hidx, rfl, Memory.read_write_same _ _ _, fun a => Memory.read_write_other _ b⟩
  · rw [step_idle_cons hidle hin]
    exact hostEvent_readIbuf_idle hidle hidx
  · rw [step_idle_cons hidle hin]
    exact hostEvent_readObuf_idle hidle hidx
  · refine ⟨fun hin => ?_, fun hin => ?_, fun hin => ?_⟩ <;> rw [step_idle_cons hidle hin] <;> exact if_pos hidx

end Sys2Proof.Machine
end

section
/-! SUPPORT. Columns whose length is wrong (O32) and the stream of `DELTA.ENC` (O41). -/

namespace Sys2Proof.Machine

/-! ### A length that is no multiple of the element width (R68) -/

/-- A codec command whose function fails leaves no output (R356). -/
theorem codec_fails {i : Instr} {f : List Byte → Except Failure (List Byte)} {s : State} {e : Failure}
    (hf : codecFunction i = some f) (hi : s.ilen.toNat ≤ s.cfg.bufCap) (herr : f (inputBytes s) = .error e) :
    ∃ t, exec i s = .next t ∧ FailedClass1 e 0 s t := by
  refine ⟨_, exec_codecFunction s hf, ?_⟩
  rw [codecCommand_of_fits f hi, herr]
  exact failClass1_failed e 0 s

theorem withColumn64_of_badLength {inp : List Byte} (f : List Word64 → Except Failure (List Byte))
    (h : inp.length % 8 ≠ 0) : withColumn64 inp f = .error .malformedInput := if_pos h

theorem withColumn32_of_badLength {inp : List Byte} (f : List Word32 → Except Failure (List Byte))
    (h : inp.length % 4 ≠ 0) : withColumn32 inp f = .error .malformedInput := if_pos h

/-- The commands over columns of 8-byte elements check the length before they look at the bytes. -/
theorem codecFunction_column64 {i : Instr}
    (h : i = .deltaEnc ∨ i = .dodEnc ∨ i = .dodfEnc ∨ i = .grEnc ∨ i = .bpEnc ∨ i = .dodfDec) :
    ∃ f, codecFunction i = some f ∧ ∀ inp, ∃ body, f inp = withColumn64 inp body := by
  rcases h with rfl | rfl | rfl | rfl | rfl | rfl <;> exact ⟨_, rfl, fun _ => ⟨_, rfl⟩⟩

/-- The commands over columns of 4-byte elements check the length before they look at the bytes. -/
theorem codecFunction_column32 {i : Instr} (h : i = .xorfEnc ∨ i = .chimpEnc) :
    ∃ f, codecFunction i = some f ∧ ∀ inp, ∃ body, f inp = withColumn32 inp body := by
  rcases h with rfl | rfl <;> exact ⟨_, rfl, fun _ => ⟨_, rfl⟩⟩

/-- Settles O32: each of these functions is the length check around its body, and the input is `ILEN` bytes long. -/
theorem wrongColumnLengthIsMalformed : Obligations.WrongColumnLengthIsMalformed := by
  intro i s hi
  refine ⟨fun hcolumn hlen => ?_, fun hcolumn hlen => ?_⟩
  · obtain ⟨f, hf, hcheck⟩ := codecFunction_column64 hcolumn
    obtain ⟨body, hbody⟩ := hcheck (inputBytes s)
    exact codec_fails hf hi (hbody.trans (withColumn64_of_badLength body (by rwa [inputBytes_length])))
  · obtain ⟨f, hf, hcheck⟩ := codecFunction_column32 hcolumn
    obtain ⟨body, hbody⟩ := hcheck (inputBytes s)
    exact codec_fails hf hi (hbody.trans (withColumn32_of_badLength body (by rwa [inputBytes_length])))

/-! ### Columns of 8-byte elements as bits (R66) -/

theorem bitsOf_bytesBe64 (v : Word64) : bitsOf (bytesBe64 v) = fieldBits v 64 := by
  simp [bytesBe64, bitsOf, byteBits, fieldBits]

theorem bitsOf_bytesOf64 (vs : List Word64) : bitsOf (bytesOf64 vs) = vs.flatMap fun v => fieldBits v 64 := by
  induction vs with
  | nil => rfl
  | cons v vs ih => rw [bytesOf64, bitsOf_append, bitsOf_bytesBe64, ih, List.flatMap_cons]

/-! ### The stream of DELTA (R112, R166) -/

theorem varintsOf_eq_flatten (xs : List Word64) : varintsOf xs = (xs.map varintEnc).flatten := by
  induction xs with
  | nil => rfl
  | cons x xs ih => rw [varintsOf, ih, List.map_cons, List.flatten_cons]

theorem deltaStream_cons (v0 : Word64) (vs : List Word64) :
    deltaStream (v0 :: vs) = bytesBe64 v0 ++ varintsOf (differences (v0 :: vs)) := by
  rw [deltaStream, varintsOf_eq_flatten, differences, List.map_zipWith, List.tail_cons]

theorem deltaEnc_bytesOf64 (vs : List Word64) : deltaEnc (bytesOf64 vs) = .ok (deltaStream vs) := by
  cases vs with
  | nil => rfl
  | cons v0 vs => rw [deltaEnc_cons, deltaStream_cons]

/-- Settles O41: on the bytes of a column the function of `DELTA.ENC` is `deltaStream`. -/
theorem deltaEncWritesTheStream : Obligations.DeltaEncWritesTheStream :=
  ⟨bitsOf_bytesOf64, fun _ vs hc hi hinp hfit => codec_delivers rfl hc hi (hinp ▸ deltaEnc_bytesOf64 vs) hfit⟩

end Sys2Proof.Machine
end

section
/-! SUPPORT. The command word (O1, O2, O4): encoding and decoding are inverse (30_encoding.md R90, R91, R95). -/

namespace Sys2Proof.Machine

/-! ### The operation code map both ways (R95) -/

theorem instrOfOpcode_opcodeOf (i : Instr) : instrOfOpcode (opcodeOf i) (countOf i) = some i := by
  cases i <;> rfl

/-- The row a code names has that code, and its operand, if it has one, is the field `N`. -/
theorem opcodeOf_countOf_of_instrOfOpcode {opc n : BitVec 8} {i : Instr} (h : instrOfOpcode opc n = some i) :
    opcodeOf i = opc ∧ countOf i = if takesCount i then n else 0 := by
  unfold instrOfOpcode at h
  split at h <;> cases h <;> exact ⟨rfl, rfl⟩

/-! ### Check 3 (R91) -/

/-- Check 3 refuses the field `n` beside the code of the command (R91). -/
def CountRefused (i : Instr) (n : BitVec 8) : Prop := if takesCount i then 64 < n.toNat else n ≠ 0

/-- The field `N` of a command's own word passes check 3 exactly when the command is well-formed. -/
theorem not_countRefused_iff (i : Instr) : ¬ CountRefused i (countOf i) ↔ i.wellFormed = true := by
  cases i <;> simp [CountRefused, takesCount, countOf, Instr.wellFormed]

/-! ### The word and its fields (R90) -/

theorem wordReserved_toNat (w : Word32) : (wordReserved w).toNat = w.toNat / 65536 := by
  have := w.isLt
  simp only [wordReserved, BitVec.extractLsb'_toNat, Nat.shiftRight_eq_div_pow]
  omega

theorem append_fields (w : Word32) : wordReserved w ++ wordCount w ++ wordOpc w = w := by
  rw [← BitVec.toNat_inj, toNat_append_eq_add, toNat_append_eq_add, wordReserved_toNat, wordCount_toNat, wordOpc_toNat]
  omega

/-- What the decoder accepts: no reserved bit, a code of the table, a legal count (R91). -/
theorem decode_eq_ok_iff (w : Word32) (i : Instr) :
    decode w = .ok i ↔ wordReserved w = 0 ∧ instrOfOpcode (wordOpc w) (wordCount w) = some i ∧
      ¬ CountRefused i (wordCount w) := by
  unfold decode
  by_cases hres : wordReserved w = 0
  · rw [if_neg (not_not.mpr hres)]
    cases hopc : instrOfOpcode (wordOpc w) (wordCount w) with
    | none => simp
    | some j =>
      by_cases hbad : CountRefused j (wordCount w)
      · simp only [if_pos (show if takesCount j then _ else _ from hbad), hres, true_and, Option.some.injEq,
          reduceCtorEq, false_iff]
        rintro ⟨rfl, hok⟩
        exact hok hbad
      · simp only [if_neg (show ¬ if takesCount j then _ else _ from hbad), hres, true_and, Option.some.injEq,
          Except.ok.injEq]
        exact ⟨fun h => ⟨h, h ▸ hbad⟩, And.left⟩
  · rw [if_pos hres]
    exact ⟨fun h => (nomatch h), fun ⟨h, _⟩ => absurd h hres⟩

/-- Settles O1: the three fields of an encoded word are 0, the operand and the code, and the code names the command. -/
theorem decodeInvertsEncode : Obligations.DecodeInvertsEncode := by
  intro i hwf
  obtain ⟨hres, hopc, hcount⟩ := Laws.fields_of_append (countOf i) (opcodeOf i)
  rw [decode_eq_ok_iff, encode, hres, hopc, hcount]
  exact ⟨rfl, instrOfOpcode_opcodeOf i, (not_countRefused_iff i).mpr hwf⟩

/-- Settles O2: the checks leave nothing of a word open but the fields the encoder writes. -/
theorem encodeInvertsDecode : Obligations.EncodeInvertsDecode := by
  intro w i h
  obtain ⟨hres, hrow, hlegal⟩ := (decode_eq_ok_iff w i).mp h
  obtain ⟨hopc, hcount⟩ := opcodeOf_countOf_of_instrOfOpcode hrow
  have hn : countOf i = wordCount w := by
    cases htakes : takesCount i with
    | true => rw [hcount, htakes, if_pos rfl]
    | false =>
      rw [CountRefused, htakes] at hlegal
      rw [hcount, htakes]
      exact (not_not.mp hlegal).symm
  refine ⟨(not_countRefused_iff i).mp (by rwa [hn]), ?_⟩
  have hword := append_fields w
  rw [hres] at hword
  rw [encode, hopc, hn]
  exact hword

/-- Settles O4. -/
theorem writtenOutWordsDecode : Obligations.WrittenOutWordsDecode :=
  ⟨rfl, rfl, rfl, rfl, rfl, rfl, rfl, rfl⟩

end Sys2Proof.Machine
end

section
/-! SUPPORT. Varint streams that no encoder need have written (O42, O44): what the decoder of DELTA and DOD answers on
every input (R163, R168, R174), and the stream of `DOD.ENC` (O43, R171, R172). -/

namespace Sys2Proof.Machine

/-! ### The bytes of a varint (R111, R163) -/

theorem marked_iff : ∀ b : Byte, b &&& 0x80#8 ≠ 0 ↔ 128 ≤ b.toNat := by decide

theorem tenthByte_legal_iff : ∀ b : Byte, b &&& 0xFE#8 = 0 ↔ b.toNat ≤ 1 := by decide

theorem group_setWidth (b : Byte) : ((b &&& 0x7F#8).setWidth 64 : Word64) = BitVec.ofNat 64 (b.toNat % 128) := by
  have hmask : (b &&& 0x7F#8).toNat = b.toNat % 128 := by
    rw [BitVec.toNat_and]
    exact Nat.and_two_pow_sub_one_eq_mod b.toNat 7
  rw [← hmask]
  apply BitVec.eq_of_toNat_eq
  rw [BitVec.toNat_setWidth, BitVec.toNat_ofNat]

theorem groupsValue_concat (pre : List Byte) (b : Byte) :
    groupsValue (pre ++ [b]) = b.toNat % 128 * 2 ^ (7 * pre.length) + groupsValue pre := by
  induction pre with
  | nil => simp [groupsValue]
  | cons x pre ih =>
    simp only [List.cons_append, groupsValue, ih, List.length_cons, Nat.mul_succ, Nat.pow_add]
    ring

theorem groupsValue_lt (pre : List Byte) : groupsValue pre < 2 ^ (7 * pre.length) := by
  induction pre with
  | nil => simp [groupsValue]
  | cons x pre ih =>
    simp only [groupsValue, List.length_cons, Nat.mul_succ, Nat.pow_add]
    omega

theorem ofNat_shiftLeft (a k : Nat) : BitVec.ofNat 64 a <<< k = BitVec.ofNat 64 (a <<< k) := by
  apply BitVec.eq_of_toNat_eq
  rw [BitVec.toNat_shiftLeft, BitVec.toNat_ofNat, BitVec.toNat_ofNat, Nat.shiftLeft_eq, Nat.shiftLeft_eq,
    Nat.mod_mul_mod]

/-- Taking one more group into the value read so far (R163). -/
theorem groupsValue_or (pre : List Byte) (b : Byte) :
    BitVec.ofNat 64 (groupsValue pre) ||| ((b &&& 0x7F#8).setWidth 64 <<< (7 * pre.length))
      = BitVec.ofNat 64 (groupsValue (pre ++ [b])) := by
  rw [groupsValue_concat, ← Nat.shiftLeft_eq, Nat.shiftLeft_add_eq_or_of_lt (groupsValue_lt pre), BitVec.ofNat_or,
    ← ofNat_shiftLeft, group_setWidth, BitVec.or_comm]

/-! ### One varint (R163) -/

/-- After marked bytes, at most 9 of them, the decoder holds their groups. -/
theorem varintDecFrom_marked {pre : List Byte} (rest : List Byte) (hmarked : ∀ x ∈ pre, 128 ≤ x.toNat)
    (hlen : pre.length ≤ 9) :
    varintDecFrom 10 0 (pre ++ rest) 0
      = varintDecFrom (10 - pre.length) pre.length rest (BitVec.ofNat 64 (groupsValue pre)) := by
  induction pre using List.reverseRecOn generalizing rest with
  | nil => rfl
  | append_singleton pre x ih =>
    rw [List.length_append, List.length_singleton] at hlen
    have hx : x &&& 0x80#8 ≠ 0 := (marked_iff x).mpr (hmarked x (by simp))
    rw [List.append_assoc, ih _ (fun y hy => hmarked y (by simp [hy])) (by omega),
      show 10 - pre.length = 9 - pre.length + 1 by omega, List.singleton_append, varintDecFrom,
      if_neg (by omega), groupsValue_or, if_neg hx, List.length_append, List.length_singleton,
      show 10 - (pre.length + 1) = 9 - pre.length by omega]

/-- A varint decodes to its value and its length, whatever follows (R163). -/
theorem varintDec_isVarint {w : List Byte} (hw : IsVarint w) (rest : List Byte) :
    varintDec (w ++ rest) 0 = .ok (varintWord w, w.length) := by
  obtain ⟨pre, b, rfl, hmarked, hb, hlen, hten⟩ := hw
  have hunmarked : b &&& 0x80#8 = 0 := not_not.mp (mt (marked_iff b).mp (by omega))
  rw [varintDec, List.drop_zero, List.append_assoc, varintDecFrom_marked _ hmarked hlen,
    show 10 - pre.length = 9 - pre.length + 1 by omega, List.singleton_append, varintDecFrom,
    if_neg fun h => h.2 ((tenthByte_legal_iff b).mpr (hten h.1)), groupsValue_or, if_pos hunmarked, varintWord,
    List.length_append, List.length_singleton]

/-- At most 9 marked bytes and nothing after them: a cut varint (R163). -/
theorem varintDec_cut {tail : List Byte} (hmarked : ∀ x ∈ tail, 128 ≤ x.toNat) (hlen : tail.length ≤ 9) :
    varintDec tail 0 = .error .truncatedStream := by
  have h := varintDecFrom_marked [] hmarked hlen
  rw [List.append_nil, show 10 - tail.length = 9 - tail.length + 1 by omega] at h
  exact h

/-- A tenth byte that is neither 0 nor 1 (R163). -/
theorem varintDec_overlong {pre : List Byte} {b : Byte} (rest : List Byte) (hmarked : ∀ x ∈ pre, 128 ≤ x.toNat)
    (hlen : pre.length = 9) (hb : 2 ≤ b.toNat) : varintDec (pre ++ b :: rest) 0 = .error .malformedInput := by
  have htenth : b &&& 0xFE#8 ≠ 0 := mt (tenthByte_legal_iff b).mp (by omega)
  rw [varintDec, List.drop_zero, varintDecFrom_marked _ hmarked hlen.le, hlen]
  exact if_pos ⟨rfl, htenth⟩

/-! ### The varints of a stream (R168, R174) -/

theorem IsVarint.ne_nil {w : List Byte} (hw : IsVarint w) : w ≠ [] := by
  obtain ⟨pre, b, rfl, -⟩ := hw
  simp

theorem varintsFrom_ne_nil {bytes : List Byte} (fuel : Nat) (h : bytes ≠ []) :
    varintsFrom (fuel + 1) bytes = (do
      let (d, c) ← varintDec bytes 0
      let ds ← varintsFrom fuel (bytes.drop c)
      .ok (d :: ds)) := by
  cases bytes with
  | nil => exact absurd rfl h
  | cons b rest => rfl

/-- Whole varints are taken one after the other; what follows them decides how the loop ends. -/
theorem varintsFrom_flatten {ws : List (List Byte)} (hws : ∀ w ∈ ws, IsVarint w) (tail : List Byte) {fuel : Nat}
    (hfuel : (ws.flatten ++ tail).length ≤ fuel) :
    ∃ fuel', tail.length ≤ fuel' ∧
      varintsFrom fuel (ws.flatten ++ tail) = (do
        let ds ← varintsFrom fuel' tail
        .ok (ws.map varintWord ++ ds)) := by
  induction ws generalizing fuel with
  | nil =>
    refine ⟨fuel, hfuel, ?_⟩
    rw [List.flatten_nil, List.nil_append]
    cases varintsFrom fuel tail <;> rfl
  | cons w ws ih =>
    have hw := hws w List.mem_cons_self
    have hpos := List.length_pos_iff.mpr hw.ne_nil
    rw [List.flatten_cons, List.append_assoc, List.length_append] at hfuel
    obtain ⟨n, rfl⟩ : ∃ n, fuel = n + 1 := ⟨fuel - 1, by omega⟩
    obtain ⟨fuel', hfuel', hrest⟩ := ih (fun x hx => hws x (List.mem_cons_of_mem _ hx)) (fuel := n) (by omega)
    refine ⟨fuel', hfuel', ?_⟩
    rw [List.flatten_cons, List.append_assoc, varintsFrom_ne_nil _ (by simp [hw.ne_nil]), varintDec_isVarint hw,
      except_ok_bind]
    simp only [List.drop_left, hrest]
    cases varintsFrom fuel' tail <;> rfl

theorem varintValues_flatten {ws : List (List Byte)} (hws : ∀ w ∈ ws, IsVarint w) :
    varintValues ws.flatten = .ok (ws.map varintWord) := by
  obtain ⟨fuel, -, h⟩ := varintsFrom_flatten hws [] (Nat.le_refl _)
  have hnil : varintsFrom fuel [] = .ok [] := by cases fuel <;> rfl
  rwa [hnil, except_ok_bind, List.append_nil, List.append_nil] at h

/-- An item after whole varints that is no varint decides (R163). -/
theorem varintValues_error {ws : List (List Byte)} (hws : ∀ w ∈ ws, IsVarint w) {tail : List Byte} {e : Failure}
    (hne : tail ≠ []) (htail : varintDec tail 0 = .error e) : varintValues (ws.flatten ++ tail) = .error e := by
  obtain ⟨fuel, hfuel, h⟩ := varintsFrom_flatten hws tail (Nat.le_refl _)
  obtain ⟨n, rfl⟩ : ∃ n, fuel = n + 1 := ⟨fuel - 1, by have := List.length_pos_iff.mpr hne; omega⟩
  rw [varintValues, h, varintsFrom_ne_nil _ hne, htail]
  rfl

/-! ### A raw first value and varints (R168, R174) -/

/-- A class 1 command whose result does not fit the capacity (R353). -/
theorem codec_exhausts {i : Instr} {f : List Byte → Except Failure (List Byte)} {s : State} {out : List Byte}
    (hf : codecFunction i = some f) (hc : s.cfg.ok = true) (hi : s.ilen.toNat ≤ s.cfg.bufCap)
    (hout : f (inputBytes s) = .ok out) (hlen : s.cfg.bufCap < out.length) :
    ∃ t, exec i s = .next t ∧ FailedClass1 .resourceExhausted 0 s t := by
  refine ⟨_, exec_codecFunction s hf, ?_⟩
  rw [codecCommand_of_fits f hi, hout]
  exact (finishClass1_cases _ s hc).2.1 out rfl hlen

theorem column64_of_length_lt {bytes : List Byte} (h : bytes.length < 8) : column64 bytes = [] := by
  unfold column64
  split
  · simp only [List.length_cons] at h; omega
  · rfl

theorem rawThenVarints_cut {inp : List Byte} (f : Word64 → List Word64 → List Word64) (h0 : 0 < inp.length)
    (h8 : inp.length < 8) : rawThenVarints inp f = .error .truncatedStream := by
  rw [rawThenVarints, if_neg (by omega), List.take_of_length_le (by omega), column64_of_length_lt h8]

theorem rawThenVarints_append (v0 : Word64) (bytes : List Byte) (f : Word64 → List Word64 → List Word64) :
    rawThenVarints (bytesBe64 v0 ++ bytes) f = (do
      let ds ← varintValues bytes
      .ok (bytesOf64 (v0 :: f v0 ds))) := by
  have hfirst : column64 (bytesBe64 v0) = [v0] := column64_bytesOf64 [v0]
  rw [rawThenVarints, if_neg (by simp), List.take_left' (bytesBe64_length v0),
    List.drop_left' (bytesBe64_length v0), hfirst]
  rfl

/-- The decoder of a raw first value and varints, for the column `column` makes of the varints' values. -/
theorem varintStreamAnswers_of_rawThenVarints {i : Instr} {f column : Word64 → List Word64 → List Word64}
    (hi : codecFunction i = some fun inp => rawThenVarints inp f) (hcolumn : ∀ v0 ds, v0 :: f v0 ds = column v0 ds)
    (hlength : ∀ v0 ds, (column v0 ds).length = ds.length + 1) : VarintStreamAnswers i column := by
  intro s hc hfits
  refine ⟨fun h0 h8 => codec_fails hi hfits (rawThenVarints_cut f (by simpa) (by simpa)),
    fun v0 ws tail hws hinp => ?_⟩
  have hrun : rawThenVarints (inputBytes s) f = (do
      let ds ← varintValues (ws.flatten ++ tail)
      .ok (bytesOf64 (column v0 ds))) := by
    rw [hinp, List.append_assoc, rawThenVarints_append]
    simp only [hcolumn]
  have hwhole (h : tail = []) :
      rawThenVarints (inputBytes s) f = .ok (bytesOf64 (column v0 (ws.map varintWord))) := by
    rw [hrun, h, List.append_nil, varintValues_flatten hws, except_ok_bind]
  have herror {e : Failure} (hne : tail ≠ []) (h : varintDec tail 0 = .error e) :
      rawThenVarints (inputBytes s) f = .error e := by
    rw [hrun, varintValues_error hws hne h]
    rfl
  have hlen : (bytesOf64 (column v0 (ws.map varintWord))).length = 8 * (ws.length + 1) := by
    rw [bytesOf64_length, hlength, List.length_map]
  refine ⟨fun h hcap => codec_delivers hi hc hfits (hwhole h) (hlen ▸ hcap),
    fun h hcap => codec_exhausts hi hc hfits (hwhole h) (hlen ▸ hcap),
    fun hne hmarked hshort => codec_fails hi hfits (herror hne (varintDec_cut hmarked hshort)), ?_⟩
  rintro pre b rest rfl hmarked hnine hb
  exact codec_fails hi hfits (herror (by simp) (varintDec_overlong rest hmarked hnine hb))

/-! ### DELTA (R168) -/

theorem cons_sumDeltas (v0 : Word64) (ds : List Word64) : v0 :: sumDeltas v0 ds = List.scanl (· + ·) v0 ds := by
  induction ds generalizing v0 with
  | nil => rfl
  | cons d ds ih => rw [sumDeltas, ih, List.scanl_cons]

/-- Settles O42: the running sums, and the round trip of the encoder's function. -/
theorem deltaDecInvertsDeltaEnc : Obligations.DeltaDecInvertsDeltaEnc :=
  ⟨varintStreamAnswers_of_rawThenVarints rfl cons_sumDeltas fun _ _ => List.length_scanl,
    fun _ vs hc hi hinp hfit => codec_delivers rfl hc hi (hinp ▸ delta_roundTrip (deltaEnc_bytesOf64 vs)) hfit⟩

/-! ### DOD (R171, R172, R174) -/

theorem cons_rebuild (v0 delta : Word64) (xs : List Word64) :
    v0 :: rebuild v0 delta xs = List.scanl (· + ·) v0 (List.scanl (· + ·) delta xs).tail := by
  induction xs generalizing v0 delta with
  | nil => rfl
  | cons x xs ih =>
    rw [rebuild, ih, List.scanl_cons, List.tail_cons]
    cases xs <;> simp

theorem secondDiffs_eq_differences (prev delta : Word64) (vs : List Word64) :
    secondDiffs prev delta vs = differences (delta :: differences (prev :: vs)) := by
  induction vs generalizing prev delta with
  | nil => rfl
  | cons cur vs ih => rw [secondDiffs, ih]; rfl

@[simp] theorem differences_length (vs : List Word64) : (differences vs).length = vs.length - 1 := by
  rw [differences, List.length_zipWith, List.length_tail]
  omega

theorem differences_getElem (vs : List Word64) (i : Nat) (h : i < (differences vs).length) :
    (differences vs)[i] = vs[i + 1]'(by simp at h; omega) - vs[i]'(by simp at h; omega) := by
  simp [differences]

/-- The terms after the first, by their index (R171). -/
theorem map_termAt (v0 : Word64) (vs : List Word64) :
    (List.range' 1 vs.length).map (termAt (v0 :: vs)) = secondDiffs v0 0 vs := by
  rw [secondDiffs_eq_differences]
  refine List.ext_getElem (by simp) fun i hi _ => ?_
  rw [List.length_map, List.length_range'] at hi
  rw [List.getElem_map, List.getElem_range', differences_getElem _ _ (by simp; omega)]
  rcases i with _ | i
  · rw [List.getElem_cons_zero, List.getElem_cons_succ, differences_getElem _ _ (by simp; omega)]
    simp [termAt, List.getD_eq_getElem?_getD, hi]
  · rw [List.getElem_cons_succ, List.getElem_cons_succ, differences_getElem _ _ (by simp; omega),
      differences_getElem _ _ (by simp; omega)]
    have hcol : i < (v0 :: vs).length := by rw [List.length_cons]; omega
    simp [termAt, List.getD_eq_getElem?_getD, Nat.add_comm 1, hi, Nat.lt_of_succ_lt hi, List.getElem?_eq_getElem hcol]

theorem dodStream_cons (v0 : Word64) (vs : List Word64) :
    dodStream (v0 :: vs) = bytesBe64 v0 ++ varintsOf (secondDiffs v0 0 vs) := by
  have hterms : (List.range' 1 vs.length).map (fun i => varintEnc (termAt (v0 :: vs) i))
      = (secondDiffs v0 0 vs).map varintEnc := by
    rw [← map_termAt, List.map_map]
    rfl
  rw [dodStream, List.length_cons, Nat.add_sub_cancel, hterms, varintsOf_eq_flatten]
  simp

theorem dodEnc_bytesOf64 (vs : List Word64) : dodEnc (bytesOf64 vs) = .ok (dodStream vs) := by
  cases vs with
  | nil => rfl
  | cons v0 vs => rw [dodEnc_cons, dodStream_cons]

/-- Settles O43: on the bytes of a column the function of `DOD.ENC` is `dodStream`. -/
theorem dodEncWritesTheStream : Obligations.DodEncWritesTheStream :=
  fun _ vs hc hi hinp hfit => codec_delivers rfl hc hi (hinp ▸ dodEnc_bytesOf64 vs) hfit

/-- Settles O44: the running sums of the running sums, and the round trip of the encoder's function. -/
theorem dodDecInvertsDodEnc : Obligations.DodDecInvertsDodEnc :=
  ⟨varintStreamAnswers_of_rawThenVarints rfl (fun v0 xs => cons_rebuild v0 0 xs) (by simp),
    fun _ vs hc hi hinp hfit => codec_delivers rfl hc hi (hinp ▸ dod_roundTrip (dodEnc_bytesOf64 vs)) hfit⟩

end Sys2Proof.Machine
end

section
/-! SUPPORT. Streams that no encoder need have written, bit by bit: reading any bits and reading past the end (R137 to
R140), and what `GR.DEC` answers on every input (O55, R285). -/

namespace Sys2Proof.Machine

/-! ### Reading any bits (R138, R140) -/

section
variable {bs : List Byte} {rest : List Bool} {r : Source}

/-- Reading a field gives the number its bits spell (R138). -/
theorem Ahead.readValue {xs : List Bool} {n : Nat} (h : Ahead bs (xs ++ rest) r) (hlen : xs.length = n) (hn : n ≤ 64) :
    ∃ v r', Machine.readField (dataOf bs) n r = .ok (v, r') ∧ v.toNat = bitsValue xs ∧ Ahead bs rest r' := by
  obtain ⟨done, hbits, rfl⟩ := h
  subst hlen
  refine ⟨_, _, readField_of_bits bs done xs rest (by rw [hbits, List.append_assoc]), ?_, done ++ xs,
    by rw [hbits, List.append_assoc], by rw [List.length_append]⟩
  rw [BitVec.toNat_ofNat]
  exact Nat.mod_eq_of_lt ((bitsValue_lt xs).trans_le (Nat.pow_le_pow_right (by decide) hn))

/-- Reading more bits than are left (R140). -/
theorem Ahead.readField_cut {n : Nat} (h : Ahead bs rest r) (hlen : rest.length < n) :
    Machine.readField (dataOf bs) n r = .error .truncatedStream := by
  obtain ⟨done, hbits, rfl⟩ := h
  apply readField_short
  have := congrArg List.length hbits
  rw [bitsOf_length, List.length_append] at this
  simp only
  omega

/-- Reading a 32-bit field laid out as bytes (R66). -/
theorem Ahead.readWord32 {w : Word32} (h : Ahead bs (bitsOf (bytesBe32 w) ++ rest) r) :
    ∃ r', Machine.readField (dataOf bs) 32 r = .ok (w.setWidth 64, r') ∧ Ahead bs rest r' := by
  rw [bitsOf_bytesBe32] at h
  exact h.readField (by rw [toNat_setWidth64]; exact w.isLt)

end

@[simp] theorem except_error_bind {ε α β : Type} (e : ε) (f : α → Except ε β) : (Except.error e >>= f) = .error e := rfl

/-! ### The codes of GR (R285) -/

section
variable {bs : List Byte} {rest : List Bool} {r : Source}

/-- Ones are counted, up to 255 of them. -/
theorem readUnary_counts (m : Nat) {fuel q : Nat} (h : Ahead bs (List.replicate m true ++ rest) r) (hq : q + m ≤ 255) :
    ∃ r', readUnary (dataOf bs) (fuel + m) q r = readUnary (dataOf bs) fuel (q + m) r' ∧ Ahead bs rest r' := by
  induction m generalizing q r with
  | zero => exact ⟨r, rfl, h⟩
  | succ m ih =>
    obtain ⟨r1, hread, hr1⟩ := Ahead.readBit h
    obtain ⟨r', hmore, hr'⟩ := ih hr1 (q := q + 1) (by omega)
    refine ⟨r', ?_, hr'⟩
    rw [← Nat.add_assoc, readUnary, hread, except_ok_bind]
    simp only [if_true]
    rw [if_neg (by decide), if_neg (by omega), hmore, Nat.add_right_comm, Nat.add_assoc]

/-- A 256th one is refused (R285). -/
theorem readUnary_overlong (h : Ahead bs (List.replicate 256 true ++ rest) r) :
    readUnary (dataOf bs) 256 0 r = .error .malformedInput := by
  rw [List.replicate_succ', List.append_assoc] at h
  obtain ⟨r1, hcount, h1⟩ := readUnary_counts 255 (fuel := 1) (q := 0) h (by decide)
  obtain ⟨r2, hread, -⟩ := Ahead.readBit h1
  rw [hcount, readUnary, hread]
  rfl

/-- Ones and no 0 after them: a cut quotient (R285). -/
theorem readUnary_cut {q : Nat} (h : Ahead bs (List.replicate q true) r) (hq : q ≤ 255) :
    readUnary (dataOf bs) 256 0 r = .error .truncatedStream := by
  rw [← List.append_nil (List.replicate q true)] at h
  obtain ⟨r1, hcount, h1⟩ := readUnary_counts q (fuel := 256 - q) (q := 0) h (by omega)
  rw [Nat.sub_add_cancel (by omega)] at hcount
  rw [hcount, show 256 - q = 255 - q + 1 by omega, readUnary, h1.readField_cut (by simp)]
  rfl

/-- One whole code is read as its value (R285). -/
theorem grDecLoop_code {v : Word64} (h : Ahead bs (grBits v ++ rest) r) (hv : v.toNat ≤ grMax) :
    ∃ r', (∀ n, grDecLoop (dataOf bs) (n + 1) r = (do
      let vs ← grDecLoop (dataOf bs) n r'
      .ok (v :: vs))) ∧ Ahead bs rest r' := by
  have hq255 : v.toNat / 8 ≤ 255 := by simp only [grMax] at hv; omega
  rw [grBits, List.append_assoc, List.cons_append] at h
  obtain ⟨r1, hq, h1⟩ := readUnary_ones (v.toNat / 8) h (fuel := 256) (q := 0) (by omega) (by omega)
  obtain ⟨m, r2, hm, hmval, h2⟩ := h1.readCount (Nat.mod_lt _ (by decide)) (by decide)
  have hval : BitVec.ofNat 64 ((0 + v.toNat / 8) * 8 + m.toNat) = v := by
    rw [hmval, Nat.zero_add, Nat.div_add_mod', BitVec.ofNat_toNat, BitVec.setWidth_eq]
  refine ⟨r2, fun n => ?_, h2⟩
  simp only [grDecLoop, hq, hm, hval, except_ok_bind]

/-- Where whole codes are fewer than the count, the next item decides (R285). -/
theorem grDecLoop_stops {vs : List Word64} {n : Nat} {e : Failure} (h : Ahead bs (vs.flatMap grBits ++ rest) r)
    (hdom : ∀ v ∈ vs, v.toNat ≤ grMax) (hn : vs.length < n)
    (hstop : ∀ r' m, Ahead bs rest r' → grDecLoop (dataOf bs) (m + 1) r' = .error e) :
    grDecLoop (dataOf bs) n r = .error e := by
  obtain ⟨n, rfl⟩ : ∃ k, n = k + 1 := ⟨n - 1, by omega⟩
  induction vs generalizing n r with
  | nil => exact hstop r n h
  | cons v vs ih =>
    rw [List.flatMap_cons, List.append_assoc] at h
    rw [List.length_cons] at hn
    obtain ⟨r', hloop, h'⟩ := grDecLoop_code h (hdom v List.mem_cons_self)
    obtain ⟨n, rfl⟩ : ∃ k, n = k + 1 := ⟨n - 1, by omega⟩
    rw [hloop, ih h' (fun x hx => hdom x (List.mem_cons_of_mem _ hx)) n (by omega), except_error_bind]

theorem grDecLoop_overlong (n : Nat) (h : Ahead bs (List.replicate 256 true ++ rest) r) :
    grDecLoop (dataOf bs) (n + 1) r = .error .malformedInput := by
  rw [grDecLoop, readUnary_overlong h, except_error_bind]

theorem grDecLoop_cut {q : Nat} (n : Nat) (h : Ahead bs rest r) (hq : q ≤ 255)
    (hrest : rest = List.replicate q true ∨
      ∃ c : List Bool, c.length < 3 ∧ rest = List.replicate q true ++ false :: c) :
    grDecLoop (dataOf bs) (n + 1) r = .error .truncatedStream := by
  obtain rfl | ⟨c, hc, rfl⟩ := hrest
  · rw [grDecLoop, readUnary_cut h hq, except_error_bind]
  · obtain ⟨r1, hread, h1⟩ := readUnary_ones q h (fuel := 256) (q := 0) (by omega) (by omega)
    rw [grDecLoop, hread, except_ok_bind]
    simp only [h1.readField_cut hc, except_error_bind]

end

/-! ### The command (R285) -/

theorem grDec_cut {inp : List Byte} (h : inp.length < 4) : grDec inp = .error .truncatedStream := by
  rw [grDec, (ahead_open inp).readField_cut (by rw [bitsOf_length]; omega), except_error_bind]

/-- After a whole count the record loop decides. -/
theorem grDec_count (n : Word32) (body : List Byte) :
    ∃ r, grDec (bytesBe32 n ++ body) = (do
      let vs ← grDecLoop (dataOf (bytesBe32 n ++ body)) n.toNat r
      .ok (bytesOf64 vs)) ∧ Ahead (bytesBe32 n ++ body) (bitsOf body) r := by
  have h := ahead_open (bytesBe32 n ++ body)
  rw [bitsOf_append] at h
  obtain ⟨r, hread, hr⟩ := h.readWord32
  refine ⟨r, ?_, hr⟩
  rw [grDec, hread, except_ok_bind]
  simp only [toNat_setWidth64]

/-- Settles O55: whole codes are read one after the other, and the first item that is none decides. -/
theorem grRoundTrip : Obligations.GrRoundTrip := by
  refine ⟨fun s hc hi => ⟨fun h4 => codec_fails (i := .grDec) rfl hi (grDec_cut (by simpa)),
    fun n body vs post hinp hdom hbits => ?_⟩, fun s b out hc hi hb henc hinp => ?_⟩
  · obtain ⟨r, hrun, hr⟩ := grDec_count n body
    rw [← hinp] at hrun hr
    rw [hbits] at hr
    have hall (hlen : vs.length = n.toNat) : grDec (inputBytes s) = .ok (bytesOf64 vs) := by
      rw [hrun, ← hlen, grDecLoop_reads vs hr hdom, except_ok_bind]
    have hstops {e : Failure} (hlen : vs.length < n.toNat)
        (hstop : ∀ r' m, Ahead (inputBytes s) post r' → grDecLoop (dataOf (inputBytes s)) (m + 1) r' = .error e) :
        grDec (inputBytes s) = .error e := by
      rw [hrun, grDecLoop_stops hr hdom hlen hstop, except_error_bind]
    refine ⟨fun hlen hcap => codec_delivers rfl hc hi (hall hlen) (by rw [bytesOf64_length, hlen]; exact hcap),
      fun hlen hcap => codec_exhausts rfl hc hi (hall hlen) (by rw [bytesOf64_length, hlen]; exact hcap),
      fun hlen hones => ?_, fun q hq hlen hpost => ?_⟩
    · obtain ⟨rest, rfl⟩ := hones
      exact codec_fails rfl hi (hstops hlen fun r' m h => grDecLoop_overlong m h)
    · exact codec_fails rfl hi (hstops hlen fun r' m h => grDecLoop_cut m h hq hpost)
  · exact codec_delivers rfl hc hi (hinp ▸ gr_roundTrip (length_lt_of_cap hc hb) henc) hb

end Sys2Proof.Machine
end

section
/-! SUPPORT. What the decoders of the XOR float streams answer on every input (O48, O50): one record loop for both, the
memory of windows being the last new one (XORF, R208) or the history (CHIMP, R223). -/

namespace Sys2Proof.Machine

/-! ### One record loop for both decoders (R208, R223) -/

/-- The record loop over a memory of windows: `ref` reads what a reference is after its control bits, `push` stores a
new window. -/
def floatLoop {σ : Type} (d : Nat → Byte) (ref : σ → Source → Except Failure (Window × Source))
    (push : Window → σ → σ) : Nat → Word32 → σ → Source → Except Failure (List Word32)
  | 0, _, _, _ => .ok []
  | n + 1, prev, m, r => do
    let (c, r) ← readField d 1 r
    if c = 0 then
      let ps ← floatLoop d ref push n prev m r
      .ok (prev :: ps)
    else
      let (c2, r) ← readField d 1 r
      if c2 = 0 then
        let (w, r) ← ref m r
        let (x, r) ← readWindow d w r
        let ps ← floatLoop d ref push n (prev ^^^ x) m r
        .ok ((prev ^^^ x) :: ps)
      else
        let (w, r) ← readHeader d r
        let (x, r) ← readWindow d w r
        let ps ← floatLoop d ref push n (prev ^^^ x) (push w m) r
        .ok ((prev ^^^ x) :: ps)

/-- A reference of XORF is the remembered window, no bits of its own (R208). -/
def xorfRef : Option Window → Source → Except Failure (Window × Source)
  | none, _ => .error .malformedInput
  | some w, r => .ok (w, r)

/-- A reference of CHIMP is the 7-bit number of a valid slot (R223). -/
def chimpRef (d : Nat → Byte) (h : History) (r : Source) : Except Failure (Window × Source) := do
  let (j, r) ← readField d 7 r
  if h.count ≤ j.toNat then .error .malformedInput else .ok (slotWindow h j.toNat, r)

theorem ite_error_bind {ε α β : Type} (p : Prop) [Decidable p] (e : ε) (a : α) (f : α → Except ε β) :
    ((if p then .error e else .ok a) >>= f) = if p then .error e else f a := by
  split <;> rfl

theorem xorfDecLoop_eq_floatLoop (d : Nat → Byte) (n : Nat) (prev : Word32) (win : Option Window) (r : Source) :
    xorfDecLoop d n prev win r = floatLoop d xorfRef (fun w _ => some w) n prev win r := by
  induction n generalizing prev win r with
  | zero => rfl
  | succ n ih =>
    simp only [xorfDecLoop, floatLoop, ih]
    cases win <;> rfl

theorem chimpDecLoop_eq_floatLoop (d : Nat → Byte) (n : Nat) (prev : Word32) (h : History) (r : Source) :
    chimpDecLoop d n prev h r = floatLoop d (chimpRef d) appendWindow n prev h r := by
  induction n generalizing prev h r with
  | zero => rfl
  | succ n ih =>
    simp only [chimpDecLoop, floatLoop, ih, chimpRef, bind_assoc, ite_error_bind]

/-- The memory `m` stands for the new windows so far as `slot` numbers them: how references and new windows act on it,
read from the bytes `B`. -/
structure Remembers {σ : Type} (k : Nat) (slot : List (Nat × Nat) → Nat → Option (Nat × Nat)) (B : List Byte)
    (ref : σ → Source → Except Failure (Window × Source)) (push : Window → σ → σ)
    (StandsFor : σ → List (Nat × Nat) → Prop) : Prop where
  push : ∀ {m st} (w : Nat × Nat), StandsFor m st → StandsFor (push (pairWindow w) m) (st ++ [w])
  hit : ∀ {m st j w rest r}, StandsFor m st → j < 2 ^ k → slot st j = some w →
    Ahead B (fieldBits (BitVec.ofNat 64 j) k ++ rest) r → ∃ r', ref m r = .ok (pairWindow w, r') ∧ Ahead B rest r'
  miss : ∀ {m st j rest r}, StandsFor m st → j < 2 ^ k → slot st j = none →
    Ahead B (fieldBits (BitVec.ofNat 64 j) k ++ rest) r → ref m r = .error .malformedInput
  cut : ∀ {m st rest r}, StandsFor m st → rest.length < k → Ahead B rest r → ref m r = .error .truncatedStream

theorem xorf_remembers (B : List Byte) :
    Remembers 0 (fun st _ => st.getLast?) B xorfRef (fun w _ => some w)
      (fun m st => m = st.getLast?.map pairWindow) where
  push := fun w _ => by simp
  hit := by
    rintro m st j w rest r rfl - hslot hr
    exact ⟨r, by rw [hslot]; rfl, hr⟩
  miss := by
    rintro m st j rest r rfl - hslot -
    rw [hslot]
    rfl
  cut := fun _ hlen _ => absurd hlen (Nat.not_lt_zero _)

theorem chimp_remembers (B : List Byte) : Remembers 7 ringSlot B (chimpRef (dataOf B)) appendWindow HoldsRing where
  push := fun w hm => hm.append w
  hit := by
    intro m st j w rest r hm hj hslot hr
    obtain ⟨v, r', hread, hval, hr'⟩ := hr.readCount hj (by decide)
    obtain ⟨hlt, w', hw', hwin⟩ | ⟨-, hnone⟩ := hm.ringSlot_cases hj
    · cases hslot.symm.trans hw'
      refine ⟨r', ?_, hr'⟩
      rw [chimpRef, hread, except_ok_bind]
      simp only [hval, hwin, if_neg (Nat.not_le.mpr hlt)]
    · cases hslot.symm.trans hnone
  miss := by
    intro m st j rest r hm hj hslot hr
    obtain ⟨v, r', hread, hval, -⟩ := hr.readCount hj (by decide)
    obtain ⟨-, w', hw', -⟩ | ⟨hge, -⟩ := hm.ringSlot_cases hj
    · cases hslot.symm.trans hw'
    · rw [chimpRef, hread, except_ok_bind]
      simp only [hval, if_pos hge]
  cut := fun _ hlen hr => by rw [chimpRef, hr.readField_cut hlen, except_error_bind]

/-! ### Windows and headers, any bits in them (R201, R208) -/

section
variable {B : List Byte} {rest : List Bool} {r : Source}

/-- The bits in a window give the next pattern (R201). -/
theorem Ahead.readPlaced {c : List Bool} {w : Window} (h : Ahead B (c ++ rest) r) (hc : c.length = windowWidth w) :
    ∃ x r', Machine.readWindow (dataOf B) w r = .ok (x, r') ∧ (∀ p, p ^^^ x = xorPlaced p c w.trail) ∧
      Ahead B rest r' := by
  obtain ⟨v, r', hread, hval, hr'⟩ := h.readValue hc (by rw [windowWidth]; omega)
  refine ⟨_, r', by rw [Machine.readWindow, hread, except_ok_bind], fun p => ?_, hr'⟩
  rw [xorPlaced]
  congr 1
  apply BitVec.eq_of_toNat_eq
  rw [BitVec.toNat_shiftLeft, BitVec.toNat_setWidth, BitVec.toNat_ofNat, hval, Nat.shiftLeft_eq, Nat.mod_mul_mod]

theorem readWindow_cut {w : Window} (h : Ahead B rest r) (hlen : rest.length < windowWidth w) :
    readWindow (dataOf B) w r = .error .truncatedStream := by
  rw [readWindow, h.readField_cut hlen, except_error_bind]

/-- A whole header, honest or not (R208). -/
theorem Ahead.readHeader_fields {lz sig : Nat} (h : Ahead B (fieldBits (BitVec.ofNat 64 lz) 5
      ++ (fieldBits (BitVec.ofNat 64 sig) 6 ++ rest)) r) (hlz : lz < 32) (hsig : sig < 64) :
    (sig = 0 ∨ 32 < lz + sig → Machine.readHeader (dataOf B) r = .error .malformedInput) ∧
    (1 ≤ sig → lz + sig ≤ 32 →
      ∃ r', Machine.readHeader (dataOf B) r = .ok (pairWindow (lz, 32 - lz - sig), r') ∧ Ahead B rest r') := by
  obtain ⟨v, r1, hv, hvval, h1⟩ := h.readCount hlz (by decide)
  obtain ⟨u, r2, hu, huval, h2⟩ := h1.readCount hsig (by decide)
  have hrun : Machine.readHeader (dataOf B) r = if sig = 0 ∨ 32 < lz + sig then .error .malformedInput
      else .ok (pairWindow (lz, 32 - lz - sig), r2) := by
    rw [Machine.readHeader, hv, except_ok_bind]
    simp only [hu, except_ok_bind, hvval, huval]
    rfl
  exact ⟨fun hbad => by rw [hrun, if_pos hbad], fun h1 h32 => ⟨r2, by rw [hrun, if_neg (by omega)], h2⟩⟩

theorem readHeader_cut (h : Ahead B rest r) (hlen : rest.length < 11) :
    readHeader (dataOf B) r = .error .truncatedStream := by
  rcases Nat.lt_or_ge rest.length 5 with h5 | h5
  · rw [readHeader, h.readField_cut h5, except_error_bind]
  · rw [← List.take_append_drop 5 rest] at h
    obtain ⟨v, r1, hv, -, h1⟩ := h.readValue (n := 5) (by simpa using h5) (by decide)
    rw [readHeader, hv, except_ok_bind]
    simp only [h1.readField_cut (n := 6) (by rw [List.length_drop]; omega), except_error_bind]

end

/-! ### One record (R208, R223) -/

section
variable {σ : Type} {k : Nat} {slot : List (Nat × Nat) → Nat → Option (Nat × Nat)} {B : List Byte}
  {ref : σ → Source → Except Failure (Window × Source)} {push : Window → σ → σ}
  {StandsFor : σ → List (Nat × Nat) → Prop} {m : σ} {st : List (Nat × Nat)} {rest : List Bool} {r : Source}

/-- The loop takes one record: from the pattern `p` and the memory `m` to the pattern `p'` and the memory `m'`. -/
def TakesRecord (B : List Byte) (ref : σ → Source → Except Failure (Window × Source)) (push : Window → σ → σ)
    (p : Word32) (m : σ) (r : Source) (p' : Word32) (m' : σ) (r' : Source) : Prop :=
  ∀ n, floatLoop (dataOf B) ref push (n + 1) p m r = (do
    let ps ← floatLoop (dataOf B) ref push n p' m' r'
    .ok (p' :: ps))

theorem takesRecord_same (p : Word32) (m : σ) (h : Ahead B (false :: rest) r) :
    ∃ r', TakesRecord B ref push p m r p m r' ∧ Ahead B rest r' := by
  obtain ⟨r1, hread, h1⟩ := h.readBit
  refine ⟨r1, fun n => ?_, h1⟩
  rw [floatLoop, hread]
  rfl

/-- After the control bits `10` the loop reads a reference and the bits of its window. -/
theorem floatLoop_reference (p : Word32) (m : σ) (h : Ahead B (true :: false :: rest) r) :
    ∃ r', Ahead B rest r' ∧ ∀ n, floatLoop (dataOf B) ref push (n + 1) p m r = (do
      let (w, r) ← ref m r'
      let (x, r) ← readWindow (dataOf B) w r
      let ps ← floatLoop (dataOf B) ref push n (p ^^^ x) m r
      .ok ((p ^^^ x) :: ps)) := by
  obtain ⟨r1, hread, h1⟩ := h.readBit
  obtain ⟨r2, hread2, h2⟩ := h1.readBit
  refine ⟨r2, h2, fun n => ?_⟩
  rw [floatLoop, hread, except_ok_bind]
  simp only [hread2, except_ok_bind]
  rfl

/-- After the control bits `11` the loop reads a header and the bits of its window. -/
theorem floatLoop_newWindow (p : Word32) (m : σ) (h : Ahead B (true :: true :: rest) r) :
    ∃ r', Ahead B rest r' ∧ ∀ n, floatLoop (dataOf B) ref push (n + 1) p m r = (do
      let (w, r) ← readHeader (dataOf B) r'
      let (x, r) ← readWindow (dataOf B) w r
      let ps ← floatLoop (dataOf B) ref push n (p ^^^ x) (push w m) r
      .ok ((p ^^^ x) :: ps)) := by
  obtain ⟨r1, hread, h1⟩ := h.readBit
  obtain ⟨r2, hread2, h2⟩ := h1.readBit
  refine ⟨r2, h2, fun n => ?_⟩
  rw [floatLoop, hread, except_ok_bind]
  simp only [hread2, except_ok_bind]
  rfl

theorem takesRecord_reuse (p : Word32) {j l t : Nat} {c : List Bool} (hrem : Remembers k slot B ref push StandsFor)
    (hm : StandsFor m st) (hj : j < 2 ^ k) (hslot : slot st j = some (l, t)) (hc : c.length = 32 - l - t)
    (h : Ahead B (true :: false :: (fieldBits (BitVec.ofNat 64 j) k ++ (c ++ rest))) r) :
    ∃ r', TakesRecord B ref push p m r (xorPlaced p c t) m r' ∧ Ahead B rest r' := by
  obtain ⟨r1, h1, hloop⟩ := floatLoop_reference (ref := ref) (push := push) p m h
  obtain ⟨r2, href, h2⟩ := hrem.hit hm hj hslot h1
  obtain ⟨x, r3, hread, hx, h3⟩ := h2.readPlaced (w := pairWindow (l, t)) hc
  refine ⟨r3, fun n => ?_, h3⟩
  rw [hloop, href, except_ok_bind]
  simp only [hread, except_ok_bind, hx]
  rfl

theorem takesRecord_fresh (p : Word32) {lz : Nat} {c : List Bool} (m : σ) (hlz : lz < 32) (hc : c ≠ [])
    (hfit : lz + c.length ≤ 32)
    (h : Ahead B (true :: true :: (fieldBits (BitVec.ofNat 64 lz) 5 ++ (fieldBits (BitVec.ofNat 64 c.length) 6
      ++ (c ++ rest)))) r) :
    ∃ r', TakesRecord B ref push p m r (xorPlaced p c (32 - lz - c.length))
      (push (pairWindow (lz, 32 - lz - c.length)) m) r' ∧ Ahead B rest r' := by
  obtain ⟨r1, h1, hloop⟩ := floatLoop_newWindow (ref := ref) (push := push) p m h
  obtain ⟨r2, hhead, h2⟩ := (h1.readHeader_fields hlz (by omega)).2 (List.length_pos_iff.mpr hc) hfit
  obtain ⟨x, r3, hread, hx, h3⟩ := h2.readPlaced (w := pairWindow (lz, 32 - lz - c.length))
    (by simp only [windowWidth, pairWindow]; omega)
  refine ⟨r3, fun n => ?_, h3⟩
  rw [hloop, hhead, except_ok_bind]
  simp only [hread, except_ok_bind, hx]
  rfl

/-- A record that no encoder writes is refused (R208, R223). -/
theorem floatLoop_bad {post : List Bool} (n : Nat) (p : Word32) (hrem : Remembers k slot B ref push StandsFor)
    (hm : StandsFor m st) (hbad : BadRecord k slot st post) (h : Ahead B post r) :
    floatLoop (dataOf B) ref push (n + 1) p m r = .error .malformedInput := by
  obtain ⟨j, rest, hj, hslot, rfl⟩ | ⟨lz, sig, rest, hlz, hsig, hill, rfl⟩ := hbad
  · obtain ⟨r1, h1, hloop⟩ := floatLoop_reference (rest := fieldBits (BitVec.ofNat 64 j) k ++ rest)
      (ref := ref) (push := push) p m (by simpa using h)
    rw [hloop, hrem.miss hm hj hslot h1, except_error_bind]
  · obtain ⟨r1, h1, hloop⟩ := floatLoop_newWindow
      (rest := fieldBits (BitVec.ofNat 64 lz) 5 ++ (fieldBits (BitVec.ofNat 64 sig) 6 ++ rest))
      (ref := ref) (push := push) p m (by simpa using h)
    rw [hloop, (h1.readHeader_fields hlz hsig).1 hill, except_error_bind]

/-- A record cut short, wherever the bits end (R208, R223). -/
theorem floatLoop_cut {post : List Bool} (n : Nat) (p : Word32) (hrem : Remembers k slot B ref push StandsFor)
    (hm : StandsFor m st) (hcut : CutRecord k slot st post) (h : Ahead B post r) :
    floatLoop (dataOf B) ref push (n + 1) p m r = .error .truncatedStream := by
  obtain rfl | rfl | ⟨c, hc, rfl⟩ | ⟨j, l, t, c, hj, hslot, hc, rfl⟩ | ⟨c, hc, rfl⟩ |
    ⟨lz, sig, c, hlz, hfit, hc, rfl⟩ := hcut
  · rw [floatLoop, h.readField_cut (by decide), except_error_bind]
  · obtain ⟨r1, hread, h1⟩ := h.readBit
    rw [floatLoop, hread, except_ok_bind]
    simp only [h1.readField_cut (n := 1) (by decide), except_error_bind]
    rfl
  · obtain ⟨r1, h1, hloop⟩ := floatLoop_reference (ref := ref) (push := push) p m h
    rw [hloop, hrem.cut hm hc h1, except_error_bind]
  · obtain ⟨r1, h1, hloop⟩ := floatLoop_reference (rest := fieldBits (BitVec.ofNat 64 j) k ++ c)
      (ref := ref) (push := push) p m (by simpa using h)
    obtain ⟨r2, href, h2⟩ := hrem.hit hm hj hslot h1
    rw [hloop, href, except_ok_bind]
    simp only [readWindow_cut (w := pairWindow (l, t)) h2 hc, except_error_bind]
  · obtain ⟨r1, h1, hloop⟩ := floatLoop_newWindow (ref := ref) (push := push) p m h
    rw [hloop, readHeader_cut h1 hc, except_error_bind]
  · obtain ⟨r1, h1, hloop⟩ := floatLoop_newWindow
      (rest := fieldBits (BitVec.ofNat 64 lz) 5 ++ (fieldBits (BitVec.ofNat 64 sig) 6 ++ c))
      (ref := ref) (push := push) p m (by simpa using h)
    obtain ⟨r2, hhead, h2⟩ := (h1.readHeader_fields hlz (by omega)).2 (by omega) hfit
    have hwidth : c.length < windowWidth (pairWindow (lz, 32 - lz - sig)) := by
      simp only [windowWidth, pairWindow]; omega
    rw [hloop, hhead, except_ok_bind]
    simp only [readWindow_cut h2 hwidth, except_error_bind]

/-! ### Whole records -/

/-- A record before records. -/
theorem TakesRecord.append {p p1 p' : Word32} {m1 m' : σ} {r1 r' : Source} {ps : List Word32}
    (htake : TakesRecord B ref push p m r p1 m1 r1)
    (hloop : ∀ n, floatLoop (dataOf B) ref push (ps.length + n) p1 m1 r1 = (do
      let qs ← floatLoop (dataOf B) ref push n p' m' r'
      .ok (ps ++ qs))) (n : Nat) :
    floatLoop (dataOf B) ref push ((p1 :: ps).length + n) p m r = (do
      let qs ← floatLoop (dataOf B) ref push n p' m' r'
      .ok (p1 :: ps ++ qs)) := by
  rw [List.length_cons, Nat.add_right_comm, htake, hloop]
  cases floatLoop (dataOf B) ref push n p' m' r' <;> rfl

/-- Whole records are taken one after the other; what follows them decides how the loop ends. -/
theorem floatLoop_records {p : Word32} {bs : List Bool} {ps : List Word32} {st' : List (Nat × Nat)}
    (hrem : Remembers k slot B ref push StandsFor) (hrecords : FloatRecords k slot p st bs ps st')
    (hm : StandsFor m st) (h : Ahead B (bs ++ rest) r) :
    ∃ p' m' r', StandsFor m' st' ∧ Ahead B rest r' ∧
      ∀ n, floatLoop (dataOf B) ref push (ps.length + n) p m r = (do
        let qs ← floatLoop (dataOf B) ref push n p' m' r'
        .ok (ps ++ qs)) := by
  induction hrecords generalizing m r with
  | done p st =>
    refine ⟨p, m, r, hm, h, fun n => ?_⟩
    rw [List.length_nil, Nat.zero_add]
    cases floatLoop (dataOf B) ref push n p m r <;> rfl
  | same p st st' bs ps _ ih =>
    obtain ⟨r1, htake, h1⟩ := takesRecord_same (ref := ref) (push := push) p m h
    obtain ⟨p', m', r', hm', hr', hloop⟩ := ih hm h1
    exact ⟨p', m', r', hm', hr', htake.append hloop⟩
  | reuse p st st' bs ps j l t c hj hslot hc _ ih =>
    obtain ⟨r1, htake, h1⟩ := takesRecord_reuse p hrem hm hj hslot hc (rest := bs ++ rest) (by simpa using h)
    obtain ⟨p', m', r', hm', hr', hloop⟩ := ih hm h1
    exact ⟨p', m', r', hm', hr', htake.append hloop⟩
  | fresh p st st' bs ps lz c hlz hc hfit _ ih =>
    obtain ⟨r1, htake, h1⟩ := takesRecord_fresh (ref := ref) (push := push) p m hlz hc hfit (rest := bs ++ rest)
      (by simpa using h)
    obtain ⟨p', m', r', hm', hr', hloop⟩ := ih (hrem.push _ hm) h1
    exact ⟨p', m', r', hm', hr', htake.append hloop⟩

end

/-! ### The frame of both decoders (R208, R223) -/

section
variable (records : Nat → Word32 → Source → Except Failure (List Word32))

theorem floatDec_cut {inp : List Byte} (h : inp.length < 4) : floatDec inp records = .error .truncatedStream := by
  rw [floatDec, (ahead_open inp).readField_cut (by rw [bitsOf_length]; omega), except_error_bind]

/-- The count of 0 ends the stream; after another the first pattern follows. -/
theorem floatDec_count (n : Word32) (body : List Byte) :
    ∃ r, Ahead (bytesBe32 n ++ body) (bitsOf body) r ∧
      (n = 0 → floatDec (bytesBe32 n ++ body) records = .ok []) ∧
      (n ≠ 0 → floatDec (bytesBe32 n ++ body) records = (do
        let (p, r) ← readField (dataOf (bytesBe32 n ++ body)) 32 r
        let ps ← records (n.toNat - 1) (p.setWidth 32) r
        .ok (bytesOf32 (p.setWidth 32 :: ps)))) := by
  have h := ahead_open (bytesBe32 n ++ body)
  rw [bitsOf_append] at h
  obtain ⟨r, hread, hr⟩ := h.readWord32
  have hzero : (n.setWidth 64 : Word64) = 0 ↔ n = 0 := by
    rw [← BitVec.toNat_inj, toNat_setWidth64, ← BitVec.toNat_inj]
    rfl
  refine ⟨r, hr, fun h0 => ?_, fun h0 => ?_⟩
  · rw [floatDec, hread, except_ok_bind]
    exact if_pos (hzero.mpr h0)
  · rw [floatDec, hread, except_ok_bind]
    simp only [if_neg (mt hzero.mp h0), toNat_setWidth64]

theorem floatDec_shortFirst {n : Word32} {body : List Byte} (h0 : n ≠ 0) (hlen : body.length < 4) :
    floatDec (bytesBe32 n ++ body) records = .error .truncatedStream := by
  obtain ⟨r, hr, -, hrun⟩ := floatDec_count records n body
  rw [hrun h0, hr.readField_cut (by rw [bitsOf_length]; omega), except_error_bind]

/-- After the count and the first pattern the records decide. -/
theorem floatDec_first {n : Word32} (p : Word32) (bytes : List Byte) (h0 : n ≠ 0) :
    ∃ r, Ahead (bytesBe32 n ++ (bytesBe32 p ++ bytes)) (bitsOf bytes) r ∧
      floatDec (bytesBe32 n ++ (bytesBe32 p ++ bytes)) records = (do
        let ps ← records (n.toNat - 1) p r
        .ok (bytesOf32 (p :: ps))) := by
  obtain ⟨r, hr, -, hrun⟩ := floatDec_count records n (bytesBe32 p ++ bytes)
  rw [bitsOf_append] at hr
  obtain ⟨r', hread, hr'⟩ := hr.readWord32
  have hpattern : (p.setWidth 64 : Word64).setWidth 32 = p := by simp
  refine ⟨r', hr', ?_⟩
  rw [hrun h0, hread, except_ok_bind]
  simp only [hpattern]

end

/-- A float decoder made of the record loop answers every stream as the records say (R208, R223). -/
theorem floatStreamAnswers_of_remembers {i : Instr} {k : Nat} {slot : List (Nat × Nat) → Nat → Option (Nat × Nat)}
    {σ : Type} {ref : (Nat → Byte) → σ → Source → Except Failure (Window × Source)} {push : Window → σ → σ}
    {StandsFor : σ → List (Nat × Nat) → Prop} {m : σ} {f : List Byte → Except Failure (List Byte)}
    (hi : codecFunction i = some f)
    (hf : ∀ inp, f inp = floatDec inp fun n p r => floatLoop (dataOf inp) (ref (dataOf inp)) push n p m r)
    (hrem : ∀ B, Remembers k slot B (ref (dataOf B)) push StandsFor) (hm : StandsFor m []) :
    FloatStreamAnswers i k slot := by
  intro s hc hfits
  refine ⟨fun h4 => codec_fails hi hfits ((hf _).trans (floatDec_cut _ (by simpa))), fun n body hinp => ?_⟩
  refine ⟨fun h0 => ?_, fun h0 hlen => ?_, ?_⟩
  · obtain ⟨-, -, hrun, -⟩ := floatDec_count
      (fun n p r => floatLoop (dataOf (inputBytes s)) (ref (dataOf (inputBytes s))) push n p m r) n body
    exact codec_delivers hi hc hfits ((hf _).trans (hinp ▸ hrun h0)) (Nat.zero_le _)
  · exact codec_fails hi hfits ((hf _).trans (by rw [hinp]; exact floatDec_shortFirst _ h0 hlen))
  · rintro p bytes bs post ps st h0 rfl hbits hrecords
    obtain ⟨r, hr, hrun⟩ := floatDec_first
      (fun n p r => floatLoop (dataOf (inputBytes s)) (ref (dataOf (inputBytes s))) push n p m r) p bytes h0
    rw [← hinp] at hr hrun
    rw [hbits] at hr
    obtain ⟨p', m', r', hm', hr', hloop⟩ := floatLoop_records (hrem _) hrecords hm hr
    have hall (hlen : ps.length + 1 = n.toNat) : f (inputBytes s) = .ok (bytesOf32 (p :: ps)) := by
      have hrest := hloop 0
      rw [floatLoop, except_ok_bind, List.append_nil, Nat.add_zero] at hrest
      rw [hf, hrun, ← hlen, Nat.add_sub_cancel, hrest, except_ok_bind]
    have hstops {e : Failure} (hlen : ps.length + 1 < n.toNat)
        (hstop : ∀ n,
          floatLoop (dataOf (inputBytes s)) (ref (dataOf (inputBytes s))) push (n + 1) p' m' r' = .error e) :
        f (inputBytes s) = .error e := by
      obtain ⟨n', hn'⟩ : ∃ n', n.toNat - 1 = ps.length + (n' + 1) := ⟨n.toNat - 1 - ps.length - 1, by omega⟩
      rw [hf, hrun, hn', hloop, hstop, except_error_bind, except_error_bind]
    have hsize (hlen : ps.length + 1 = n.toNat) : (bytesOf32 (p :: ps)).length = 4 * n.toNat := by
      rw [bytesOf32_length, List.length_cons, hlen]
    exact ⟨fun hlen hcap => codec_delivers hi hc hfits (hall hlen) (hsize hlen ▸ hcap),
      fun hlen hcap => codec_exhausts hi hc hfits (hall hlen) (hsize hlen ▸ hcap),
      fun hlen hbad => codec_fails hi hfits (hstops hlen fun n => floatLoop_bad n p' (hrem _) hm' hbad hr'),
      fun hlen hcut => codec_fails hi hfits (hstops hlen fun n => floatLoop_cut n p' (hrem _) hm' hcut hr')⟩

/-- Settles O48: the memory of XORF is the last new window. -/
theorem xorfRoundTrip : Obligations.XorfRoundTrip := by
  refine ⟨floatStreamAnswers_of_remembers (ref := fun _ => xorfRef) (m := none) rfl (fun inp => ?_) xorf_remembers rfl,
    fun s b out hc hi hb henc hinp =>
      codec_delivers rfl hc hi (hinp ▸ xorf_roundTrip (length_lt_of_cap hc hb) henc) hb⟩
  simp only [xorfDec, xorfDecLoop_eq_floatLoop]

/-- Settles O50: the memory of CHIMP is the history, which is the ring of the new windows. -/
theorem chimpRoundTrip : Obligations.ChimpRoundTrip := by
  refine ⟨floatStreamAnswers_of_remembers (ref := chimpRef) (m := freshHistory) rfl (fun inp => ?_) chimp_remembers
      freshHistory_holdsRing,
    fun s b out hc hi hb henc hinp =>
      codec_delivers rfl hc hi (hinp ▸ chimp_roundTrip (length_lt_of_cap hc hb) henc) hb⟩
  simp only [chimpDec, chimpDecLoop_eq_floatLoop]

end Sys2Proof.Machine
end

section
/-! SUPPORT. HUFF: no code of a table begins another, so the stream of `HUFF.ENC` is determined (O51), and what
`HUFF.DEC` answers on every input (O53, R254). -/

namespace Sys2Proof.Machine

/-! ### The codes of a table (R247, R248) -/

/-- No path to a leaf goes through another leaf (R248). -/
theorem treePaths_prefixFree {t : HuffTree} {e e' : Byte × List Bool} (he : e ∈ treePaths t) (he' : e' ∈ treePaths t)
    (hpre : e.2 <+: e'.2) : e = e' := by
  induction t generalizing e e' with
  | leaf f q b => rw [List.mem_singleton.mp he, List.mem_singleton.mp he']
  | node f q left right ihl ihr =>
    simp only [treePaths, List.mem_append, List.mem_map] at he he'
    obtain ⟨p, hp, rfl⟩ | ⟨p, hp, rfl⟩ := he <;> obtain ⟨p', hp', rfl⟩ | ⟨p', hp', rfl⟩ := he' <;>
      simp only [List.cons_prefix_cons, true_and, Bool.false_eq_true, Bool.true_eq_false, false_and] at hpre
    · rw [ihl hp hp' hpre]
    · rw [ihr hp hp' hpre]

theorem codeTable_prefixFree {t : HuffTree} {e e' : Byte × List Bool} (he : e ∈ codeTable t) (he' : e' ∈ codeTable t)
    (hpre : e.2 <+: e'.2) : e = e' := by
  cases t with
  | leaf f q b => rw [List.mem_singleton.mp he, List.mem_singleton.mp he']
  | node f q left right => exact treePaths_prefixFree he he' hpre

theorem huffCode_eq {t : List (Byte × Nat)} {root : HuffTree} (h : buildTree t = some root) :
    huffCode t = codeOf (codeTable root) := by
  funext b
  rw [huffCode, h]

/-- A byte of the table has its code in the code table of the tree (R42). -/
theorem huffCode_mem {t : List (Byte × Nat)} {b : Byte} (hb : b ∈ t.map Prod.fst) :
    ∃ root, buildTree t = some root ∧ (b, huffCode t b) ∈ codeTable root := by
  have hne : t ≠ [] := by rintro rfl; cases hb
  obtain ⟨root, hroot, hperm⟩ := buildTree_symbols hne
  exact ⟨root, hroot, by rw [huffCode_eq hroot]; exact codeOf_mem (hperm.mem_iff.mpr hb)⟩

/-- The code of one byte of a table begins no other's (R248). -/
theorem huffCode_prefixFree {t : List (Byte × Nat)} {b b' : Byte} (hb : b ∈ t.map Prod.fst) (hb' : b' ∈ t.map Prod.fst)
    (hpre : huffCode t b <+: huffCode t b') : b = b' := by
  obtain ⟨root, hroot, hmem⟩ := huffCode_mem hb
  obtain ⟨root', hroot', hmem'⟩ := huffCode_mem hb'
  cases hroot.symm.trans hroot'
  exact congrArg Prod.fst (codeTable_prefixFree hmem hmem' hpre)

/-- A table of one byte has the tree that is one leaf (R247). -/
theorem buildTree_singleton (e : Byte × Nat) : buildTree [e] = some (.leaf e.2 0 e.1) := rfl

theorem huffCode_single {t : List (Byte × Nat)} (ht : t.length = 1) {e : Byte × Nat} (he : e ∈ t) :
    huffCode t e.1 = [false] := by
  obtain ⟨x, rfl⟩ := List.length_eq_one_iff.mp ht
  cases List.mem_singleton.mp he
  rw [huffCode_eq (buildTree_singleton e)]
  simp [codeOf, codeTable]

/-! ### `HUFF.ENC` (R249) -/

/-- Settles O51: the table of counts, its tree's codes, and the bits the sink of `HUFF.ENC` holds. -/
theorem huffEncWritesTheStream : Obligations.HuffEncWritesTheStream := by
  intro s hc hi
  obtain ⟨out, hout, hlay⟩ := huffEnc_laysOut (inputBytes s)
  refine ⟨freqTable (inputBytes s), freqTable_ascending _, fun b n => mem_freqTable, fun ht => ?_,
    fun ht e he => huffCode_single ht he,
    fun b hb b' hb' => huffCode_prefixFree (mem_freqTable_fst.mpr hb) (mem_freqTable_fst.mpr hb'),
    fun hfit => ?_, fun hlong => ?_⟩
  · obtain ⟨root, hroot, -⟩ := buildTree_symbols ht
    exact ⟨root, hroot, congrFun (huffCode_eq hroot)⟩
  · obtain ⟨u, hu, hdel⟩ := codec_delivers (i := .huffEnc) rfl hc hi hout (hlay.length_le hfit)
    exact ⟨u, out, hu, hdel, hlay⟩
  · exact codec_exhausts rfl hc hi hout (by rw [hlay.1]; omega)

/-! ### The entries of a table as bytes (R117) -/

theorem byteBits_eq_fieldBits (b : Byte) : byteBits b = fieldBits (b.setWidth 64) 8 := by
  simp [byteBits, fieldBits]

theorem bitsValue_byteBits (b : Byte) : bitsValue (byteBits b) = b.toNat := by
  rw [byteBits_eq_fieldBits, bitsValue_fieldBits, BitVec.toNat_setWidth_of_le (by decide)]
  exact Nat.mod_eq_of_lt b.isLt

theorem bitsOf_entryBytes {t : List (Byte × Nat)} (hcount : ∀ e ∈ t, e.2 < 2 ^ 32) :
    bitsOf (entryBytes t) = t.flatMap entryBits := by
  induction t with
  | nil => rfl
  | cons e t ih =>
    have hword : (BitVec.ofNat 32 e.2).setWidth 64 = BitVec.ofNat 64 e.2 := by
      apply BitVec.eq_of_toNat_eq
      have := hcount e List.mem_cons_self
      rw [toNat_setWidth64, BitVec.toNat_ofNat, BitVec.toNat_ofNat, Nat.mod_eq_of_lt this, Nat.mod_eq_of_lt (by omega)]
    have hrest := ih fun x hx => hcount x (List.mem_cons_of_mem _ hx)
    rw [entryBytes] at hrest ⊢
    rw [List.flatMap_cons, bitsOf_append, hrest, bitsOf, bitsOf_bytesBe32, hword, byteBits_eq_fieldBits,
      List.flatMap_cons, entryBits]

/-! ### Reading the table, honest or not (R254) -/

section
variable {bs : List Byte} {rest : List Bool} {r : Source}

/-- One entry with a byte above the last one and a positive count. -/
theorem readTable_entry {e : Byte × Nat} {last : Option Nat} (h : Ahead bs (entryBits e ++ rest) r)
    (hlast : notAbove e.1.toNat last = false) (hpos : 0 < e.2) (hcount : e.2 < 2 ^ 32) :
    ∃ r', (∀ n, readTable (dataOf bs) (n + 1) last r = (do
      let (t, r) ← readTable (dataOf bs) n (some e.1.toNat) r'
      .ok (e :: t, r))) ∧ Ahead bs rest r' := by
  have hbyte : (e.1.setWidth 64 : Word64).toNat = e.1.toNat := BitVec.toNat_setWidth_of_le (by decide)
  have hback : (e.1.setWidth 64 : Word64).setWidth 8 = e.1 := by simp
  rw [entryBits, List.append_assoc] at h
  obtain ⟨r1, hb, h1⟩ := h.readField (by rw [hbyte]; exact e.1.isLt)
  obtain ⟨f, r2, hf, hfval, h2⟩ := h1.readCount hcount (by decide)
  have hlegal : ¬(notAbove e.1.toNat last = true ∨ f = 0) := by
    rintro (hbad | rfl)
    · rw [hlast] at hbad; cases hbad
    · rw [← hfval] at hpos; exact absurd hpos (by decide)
  refine ⟨r2, fun n => ?_, h2⟩
  rw [readTable, hb, except_ok_bind]
  simp only [hf, except_ok_bind, hbyte, hback, hfval, if_neg hlegal]

/-- Entries that rise with positive counts are taken one after the other; a byte not above one of them is not above
the last one. -/
theorem readTable_entries {t : List (Byte × Nat)} {last : Option Nat} (h : Ahead bs (t.flatMap entryBits ++ rest) r)
    (ht : AscendingTable t) (hlast : ∀ e ∈ t, notAbove e.1.toNat last = false) (hcount : ∀ e ∈ t, e.2 < 2 ^ 32) :
    ∃ last' r', Ahead bs rest r' ∧ (∀ b, notAbove b last = true → notAbove b last' = true) ∧
      (∀ e ∈ t, ∀ b ≤ e.1.toNat, notAbove b last' = true) ∧
      ∀ n, readTable (dataOf bs) (t.length + n) last r = (do
        let (u, r) ← readTable (dataOf bs) n last' r'
        .ok (t ++ u, r)) := by
  induction t generalizing last r with
  | nil =>
    refine ⟨last, r, h, fun _ h => h, by simp, fun n => ?_⟩
    rw [List.length_nil, Nat.zero_add]
    cases readTable (dataOf bs) n last r <;> rfl
  | cons e t ih =>
    obtain ⟨hpair, hpos⟩ := ht
    obtain ⟨hfirst, hpair⟩ := List.pairwise_cons.mp hpair
    rw [List.flatMap_cons, List.append_assoc] at h
    obtain ⟨r1, hentry, h1⟩ :=
      readTable_entry h (hlast e List.mem_cons_self) (hpos e List.mem_cons_self) (hcount e List.mem_cons_self)
    obtain ⟨last', r', hr', hmono, hbelow, hmore⟩ := ih h1 (last := some e.1.toNat)
      ⟨hpair, fun x hx => hpos x (List.mem_cons_of_mem _ hx)⟩
      (fun x hx => by simpa [notAbove] using hfirst x hx) (fun x hx => hcount x (List.mem_cons_of_mem _ hx))
    have hself (b : Nat) (hb : b ≤ e.1.toNat) : notAbove b last' = true := hmono b (decide_eq_true hb)
    refine ⟨last', r', hr', fun b hb => hself b ?_, ?_, fun n => ?_⟩
    · have he := hlast e List.mem_cons_self
      cases last with
      | none => cases hb
      | some l => simp only [notAbove, decide_eq_true_eq, decide_eq_false_iff_not] at hb he; omega
    · rintro x (_ | ⟨_, hx⟩)
      · exact hself
      · exact hbelow x hx
    · rw [List.length_cons, Nat.add_right_comm, hentry, hmore]
      cases readTable (dataOf bs) n last' r' <;> rfl

/-- An entry cut short (R254). -/
theorem readTable_cut (n : Nat) (last : Option Nat) (h : Ahead bs rest r) (hlen : rest.length < 40) :
    readTable (dataOf bs) (n + 1) last r = .error .truncatedStream := by
  rcases Nat.lt_or_ge rest.length 8 with h8 | h8
  · rw [readTable, h.readField_cut h8, except_error_bind]
  · rw [← List.take_append_drop 8 rest] at h
    obtain ⟨v, r1, hv, -, h1⟩ := h.readValue (n := 8) (by simpa using h8) (by decide)
    rw [readTable, hv, except_ok_bind]
    simp only [h1.readField_cut (n := 32) (by rw [List.length_drop]; omega), except_error_bind]

/-- An entry with the count 0 or a byte that does not rise (R254). -/
theorem readTable_bad {b : Byte} {f : Word32} (n : Nat) {last : Option Nat}
    (h : Ahead bs (byteBits b ++ (bitsOf (bytesBe32 f) ++ rest)) r) (hbad : notAbove b.toNat last = true ∨ f = 0) :
    readTable (dataOf bs) (n + 1) last r = .error .malformedInput := by
  obtain ⟨v, r1, hv, hvval, h1⟩ := h.readValue (byteBits_length b) (by decide)
  obtain ⟨r2, hf, -⟩ := h1.readWord32
  rw [bitsValue_byteBits] at hvval
  have hill : notAbove v.toNat last = true ∨ (f.setWidth 64 : Word64) = 0 := by
    rw [hvval]
    exact hbad.imp_right fun h0 => by rw [h0]; rfl
  rw [readTable, hv, except_ok_bind]
  simp only [hf, except_ok_bind, if_pos hill]

end

/-! ### Reading the codes, honest or not (R254, R256) -/

section
variable {bs : List Byte} {rest : List Bool} {r : Source} {root : HuffTree}

/-- A path cut short (R254). -/
theorem walkTree_cut {t : HuffTree} {e : Byte × List Bool} (he : e ∈ treePaths t) (h : Ahead bs rest r)
    (hpre : rest <+: e.2) (hne : rest ≠ e.2) : walkTree (dataOf bs) t r = .error .truncatedStream := by
  induction t generalizing e rest r with
  | leaf f q b =>
    cases List.mem_singleton.mp he
    exact absurd (List.prefix_nil.mp hpre) hne
  | node f q left right ihl ihr =>
    cases rest with
    | nil => rw [walkTree, h.readField_cut (by decide), except_error_bind]
    | cons c rest =>
      obtain ⟨r1, hbit, h1⟩ := h.readBit
      simp only [treePaths, List.mem_append, List.mem_map] at he
      obtain ⟨p, hp, rfl⟩ | ⟨p, hp, rfl⟩ := he
      · obtain ⟨rfl, hrest⟩ := List.cons_prefix_cons.mp hpre
        have hwalk := ihl hp h1 hrest fun heq => hne (by rw [heq])
        simp [walkTree, hbit, hwalk]
      · obtain ⟨rfl, hrest⟩ := List.cons_prefix_cons.mp hpre
        have hwalk := ihr hp h1 hrest fun heq => hne (by rw [heq])
        simp [walkTree, hbit, hwalk]

/-- A code cut short (R254, R256). -/
theorem readSymbol_cut {e : Byte × List Bool} (he : e ∈ codeTable root) (h : Ahead bs rest r) (hpre : rest <+: e.2)
    (hne : rest ≠ e.2) : readSymbol (dataOf bs) root r = .error .truncatedStream := by
  cases root with
  | leaf f q b =>
    cases List.mem_singleton.mp he
    have hlen : rest.length < 1 := hpre.length_le.lt_of_ne fun heq => hne (hpre.eq_of_length heq)
    rw [readSymbol, h.readField_cut hlen, except_error_bind]
  | node f q left right => exact walkTree_cut he h hpre hne

/-- With one byte value the bit 1 is no code (R256). -/
theorem readSymbol_leaf_one (f q : Nat) (b : Byte) (h : Ahead bs (true :: rest) r) :
    readSymbol (dataOf bs) (.leaf f q b) r = .error .malformedInput := by
  obtain ⟨r1, hbit, -⟩ := h.readBit
  rw [readSymbol, hbit]
  rfl

/-- Where whole codes are fewer than the length, the next item decides (R254). -/
theorem readSymbols_stops {out : List Byte} {n : Nat} {e : Failure}
    (hout : ∀ b ∈ out, b ∈ (codeTable root).map Prod.fst)
    (h : Ahead bs (out.flatMap (codeOf (codeTable root)) ++ rest) r) (hn : out.length < n)
    (hstop : ∀ r', Ahead bs rest r' → readSymbol (dataOf bs) root r' = .error e) :
    readSymbols (dataOf bs) root n r = .error e := by
  obtain ⟨n, rfl⟩ : ∃ k, n = k + 1 := ⟨n - 1, by omega⟩
  induction out generalizing n r with
  | nil => rw [readSymbols, hstop r h, except_error_bind]
  | cons b out ih =>
    rw [List.flatMap_cons, List.append_assoc] at h
    rw [List.length_cons] at hn
    obtain ⟨r1, hb, h1⟩ := readSymbol_code (codeOf_mem (hout b List.mem_cons_self)) h
    obtain ⟨n, rfl⟩ : ∃ k, n = k + 1 := ⟨n - 1, by omega⟩
    have hrest := ih (fun x hx => hout x (List.mem_cons_of_mem _ hx)) h1 n (by omega)
    rw [readSymbols, hb, except_ok_bind]
    simp only [hrest, except_error_bind]

end

/-! ### `HUFF.DEC` (R254) -/

/-- What follows the table: the length, its check against the counts, the codes (R254). -/
def huffBody (d : Nat → Byte) (t : List (Byte × Nat)) (r : Source) : Except Failure (List Byte) := do
  let (len, r) ← readField d 32 r
  if tableTotal t ≠ len.toNat then .error .malformedInput
  else
    match buildTree t with
    | none => .ok []
    | some root => readSymbols d root len.toNat r

theorem huffDec_cut {inp : List Byte} (h : inp.length < 2) : huffDec inp = .error .truncatedStream := by
  rw [huffDec]
  simp only [(ahead_open inp).readField_cut (n := 16) (by rw [bitsOf_length]; omega), except_error_bind]

/-- After the table size the table is read, and then the body. -/
theorem huffDec_size {inp : List Byte} {hi lo : Byte} {after : List Byte} (hinp : inp = hi :: lo :: after) :
    (256 < 256 * hi.toNat + lo.toNat → huffDec inp = .error .malformedInput) ∧
    (256 * hi.toNat + lo.toNat ≤ 256 → ∃ r, Ahead inp (bitsOf after) r ∧ huffDec inp = (do
      let (t, r) ← readTable (dataOf inp) (256 * hi.toNat + lo.toNat) none r
      huffBody (dataOf inp) t r)) := by
  have h := ahead_open inp
  have hbits : bitsOf inp = (byteBits hi ++ byteBits lo) ++ bitsOf after := by
    rw [hinp, bitsOf, bitsOf, List.append_assoc]
  rw [hbits] at h
  obtain ⟨v, r, hread, hval, hr⟩ := h.readValue (n := 16) (by simp) (by decide)
  rw [bitsValue_append, bitsValue_byteBits, bitsValue_byteBits, byteBits_length, Nat.mul_comm] at hval
  have hrun : huffDec inp = if 256 < 256 * hi.toNat + lo.toNat then .error .malformedInput else (do
      let (t, r) ← readTable (dataOf inp) (256 * hi.toNat + lo.toNat) none r
      huffBody (dataOf inp) t r) := by
    rw [huffDec]
    simp only [hread, except_ok_bind, hval]
    rfl
  exact ⟨fun hlong => by rw [hrun, if_pos hlong], fun hle => ⟨r, hr, by rw [hrun, if_neg (Nat.not_lt.mpr hle)]⟩⟩

/-- A stream that names `k` entries and begins with the entries of `t`, which rise with positive counts. -/
structure StartsWithTable (inp : List Byte) (k : Nat) (t : List (Byte × Nat)) (rest : List Byte) : Prop where
  bytes : ∃ hi lo : Byte, inp = hi :: lo :: (entryBytes t ++ rest) ∧ k = 256 * hi.toNat + lo.toNat
  size : k ≤ 256
  ascending : AscendingTable t
  counts : ∀ e ∈ t, e.2 < 2 ^ 32

section
variable {inp rest : List Byte} {k : Nat} {t : List (Byte × Nat)}

/-- Once the entries of `t` are read, the entries still to come decide. -/
theorem StartsWithTable.huffDec_eq (h : StartsWithTable inp k t rest) :
    ∃ last r, Ahead inp (bitsOf rest) r ∧ (∀ e ∈ t, ∀ b ≤ e.1.toNat, notAbove b last = true) ∧
      ∀ n, k = t.length + n → huffDec inp = (do
        let (u, r) ← readTable (dataOf inp) n last r
        huffBody (dataOf inp) (t ++ u) r) := by
  obtain ⟨⟨hi, lo, hinp, rfl⟩, hsize, hasc, hcounts⟩ := h
  obtain ⟨r, hr, hrun⟩ := (huffDec_size hinp).2 hsize
  rw [bitsOf_append, bitsOf_entryBytes hcounts] at hr
  obtain ⟨last, r', hr', -, hbelow, htable⟩ := readTable_entries hr hasc (last := none) (fun _ _ => rfl) hcounts
  refine ⟨last, r', hr', hbelow, fun n hn => ?_⟩
  rw [hrun, hn, htable]
  cases readTable (dataOf inp) n last r' <;> rfl

theorem StartsWithTable.huffDec_entry_cut (h : StartsWithTable inp k t rest) (hk : t.length < k)
    (hlen : rest.length < 5) : huffDec inp = .error .truncatedStream := by
  obtain ⟨last, r, hr, -, hrun⟩ := h.huffDec_eq
  rw [hrun (k - t.length - 1 + 1) (by omega), readTable_cut _ last hr (by rw [bitsOf_length]; omega),
    except_error_bind]

theorem StartsWithTable.huffDec_entry_bad {b : Byte} {f : Word32} {more : List Byte}
    (h : StartsWithTable inp k t (b :: bytesBe32 f ++ more)) (hk : t.length < k)
    (hbad : f = 0 ∨ ∃ e ∈ t, b.toNat ≤ e.1.toNat) : huffDec inp = .error .malformedInput := by
  obtain ⟨last, r, hr, hbelow, hrun⟩ := h.huffDec_eq
  rw [List.cons_append, bitsOf, bitsOf_append] at hr
  have hill : notAbove b.toNat last = true ∨ f = 0 := by
    obtain h0 | ⟨e, he, hle⟩ := hbad
    · exact .inr h0
    · exact .inl (hbelow e he _ hle)
  rw [hrun (k - t.length - 1 + 1) (by omega), readTable_bad _ hr hill, except_error_bind]

/-- After the whole table the length and the codes decide. -/
theorem StartsWithTable.huffDec_body (h : StartsWithTable inp k t rest) (hk : t.length = k) :
    ∃ r, Ahead inp (bitsOf rest) r ∧ huffDec inp = huffBody (dataOf inp) t r := by
  obtain ⟨last, r, hr, -, hrun⟩ := h.huffDec_eq
  refine ⟨r, hr, ?_⟩
  rw [hrun 0 hk.symm, readTable, except_ok_bind]
  simp only [List.append_nil]

end

section
variable {bs : List Byte} {rest : List Bool} {r : Source} {t : List (Byte × Nat)} {len : Word32}

theorem huffBody_cut (t : List (Byte × Nat)) (h : Ahead bs rest r) (hlen : rest.length < 32) :
    huffBody (dataOf bs) t r = .error .truncatedStream := by
  rw [huffBody, h.readField_cut hlen, except_error_bind]

theorem huffBody_badTotal (h : Ahead bs (bitsOf (bytesBe32 len) ++ rest) r) (hsum : (t.map Prod.snd).sum ≠ len.toNat) :
    huffBody (dataOf bs) t r = .error .malformedInput := by
  obtain ⟨r', hread, -⟩ := h.readWord32
  rw [huffBody, hread, except_ok_bind]
  simp only [toNat_setWidth64]
  exact if_pos hsum

/-- After a length that is the sum of the counts the codes decide, by the tree of the table. -/
theorem huffBody_codes (h : Ahead bs (bitsOf (bytesBe32 len) ++ rest) r) (hsum : (t.map Prod.snd).sum = len.toNat) :
    ∃ r', Ahead bs rest r' ∧ (t = [] → huffBody (dataOf bs) t r = .ok []) ∧
      ∀ root, buildTree t = some root → huffBody (dataOf bs) t r = readSymbols (dataOf bs) root len.toNat r' := by
  obtain ⟨r', hread, hr'⟩ := h.readWord32
  have htotal : ¬ tableTotal t ≠ len.toNat := not_not.mpr hsum
  refine ⟨r', hr', fun ht => ?_, fun root hroot => ?_⟩
  · rw [huffBody, hread, except_ok_bind]
    simp only [toNat_setWidth64, if_neg htotal]
    rw [ht]
    rfl
  · rw [huffBody, hread, except_ok_bind]
    simp only [toNat_setWidth64, if_neg htotal, hroot]

/-- As many codes as the length: their bytes (R254). -/
theorem huffBody_ok {out : List Byte} (h : Ahead bs (bitsOf (bytesBe32 len) ++ (out.flatMap (huffCode t) ++ rest)) r)
    (hsum : (t.map Prod.snd).sum = len.toNat) (hout : ∀ b ∈ out, b ∈ t.map Prod.fst) (hlen : out.length = len.toNat) :
    huffBody (dataOf bs) t r = .ok out := by
  obtain ⟨r', hr', hempty, hcodes⟩ := huffBody_codes h hsum
  by_cases ht : t = []
  · subst ht
    obtain rfl : out = [] := List.eq_nil_iff_forall_not_mem.mpr fun b hb => List.not_mem_nil (hout b hb)
    exact hempty rfl
  · obtain ⟨root, hroot, hperm⟩ := buildTree_symbols ht
    rw [huffCode_eq hroot] at hr'
    rw [hcodes root hroot, ← hlen]
    exact readSymbols_reads out (fun b hb => hperm.mem_iff.mpr (hout b hb)) hr'

/-- Fewer codes than the length: the next item decides (R254). -/
theorem huffBody_stops {out : List Byte} {e : Failure}
    (h : Ahead bs (bitsOf (bytesBe32 len) ++ (out.flatMap (huffCode t) ++ rest)) r)
    (hsum : (t.map Prod.snd).sum = len.toNat) (hout : ∀ b ∈ out, b ∈ t.map Prod.fst) (hlen : out.length < len.toNat)
    (hstop : ∀ root r', buildTree t = some root → Ahead bs rest r' → readSymbol (dataOf bs) root r' = .error e) :
    huffBody (dataOf bs) t r = .error e := by
  obtain ⟨r', hr', -, hcodes⟩ := huffBody_codes h hsum
  have ht : t ≠ [] := by
    rintro rfl
    rw [← hsum] at hlen
    exact absurd hlen (Nat.not_lt_zero _)
  obtain ⟨root, hroot, hperm⟩ := buildTree_symbols ht
  rw [huffCode_eq hroot] at hr'
  rw [hcodes root hroot]
  exact readSymbols_stops (fun b hb => hperm.mem_iff.mpr (hout b hb)) hr' hlen fun r' => hstop root r' hroot

theorem readSymbol_huffCode_cut {root : HuffTree} {b : Byte} (hroot : buildTree t = some root)
    (hb : b ∈ t.map Prod.fst) (h : Ahead bs rest r) (hpre : rest <+: huffCode t b) (hne : rest ≠ huffCode t b) :
    readSymbol (dataOf bs) root r = .error .truncatedStream := by
  obtain ⟨root', hroot', hmem⟩ := huffCode_mem hb
  cases hroot.symm.trans hroot'
  exact readSymbol_cut hmem h hpre hne

theorem readSymbol_single_one {root : HuffTree} (hroot : buildTree t = some root) (ht : t.length = 1)
    (h : Ahead bs rest r) (hone : rest.head? = some true) :
    readSymbol (dataOf bs) root r = .error .malformedInput := by
  obtain ⟨e, rfl⟩ := List.length_eq_one_iff.mp ht
  cases (buildTree_singleton e).symm.trans hroot
  obtain ⟨tail, rfl⟩ := List.head?_eq_some_iff.mp hone
  exact readSymbol_leaf_one _ _ _ h

end

/-- Settles O53: table size, entries, length and codes are read one after the other, and the first item that is cut or
no legal one decides. -/
theorem huffRoundTrip : Obligations.HuffRoundTrip := by
  refine ⟨fun s hc hi => ⟨fun h2 => codec_fails (i := .huffDec) rfl hi (huffDec_cut (by rwa [inputBytes_length])),
    fun hb lb after hinp => ⟨fun hlong => codec_fails rfl hi ((huffDec_size hinp).1 hlong), ?_⟩⟩,
    fun s b out hc hi hb henc hinp => ?_⟩
  · rintro t rest hsize hasc hcounts rfl
    have htable (rest' : List Byte) (h : rest = rest') :
        StartsWithTable (inputBytes s) (256 * hb.toNat + lb.toNat) t rest' :=
      ⟨⟨hb, lb, h ▸ hinp, rfl⟩, hsize, hasc, hcounts⟩
    refine ⟨fun hk => ⟨fun h5 => codec_fails rfl hi ((htable _ rfl).huffDec_entry_cut hk h5),
      fun b f more hrest hbad => codec_fails rfl hi ((htable _ hrest).huffDec_entry_bad hk hbad)⟩, fun hk => ?_⟩
    obtain ⟨r, hr, hrun⟩ := (htable _ rfl).huffDec_body hk
    refine ⟨fun h4 => codec_fails rfl hi (hrun.trans (huffBody_cut t hr (by rw [bitsOf_length]; omega))), ?_⟩
    rintro len body rfl
    rw [bitsOf_append] at hr
    refine ⟨fun hsum => codec_fails rfl hi (hrun.trans (huffBody_badTotal hr hsum)),
      fun out post hsum hout hbits => ?_⟩
    rw [hbits] at hr
    have hall (hlen : out.length = len.toNat) : huffDec (inputBytes s) = .ok out :=
      hrun.trans (huffBody_ok hr hsum hout hlen)
    refine ⟨fun hlen hcap => codec_delivers rfl hc hi (hall hlen) hcap,
      fun hlen hcap => codec_exhausts rfl hc hi (hall hlen) hcap, fun hlen hcut => ?_, fun hlen ht hone => ?_⟩
    · obtain ⟨b, hb, hpre, hne⟩ := hcut
      exact codec_fails rfl hi (hrun.trans (huffBody_stops hr hsum hout hlen fun root r' hroot hr' =>
        readSymbol_huffCode_cut hroot hb hr' hpre hne))
    · exact codec_fails rfl hi (hrun.trans (huffBody_stops hr hsum hout hlen fun root r' hroot hr' =>
        readSymbol_single_one hroot ht hr' hone))
  · exact codec_delivers rfl hc hi (hinp ▸ huff_roundTrip (length_lt_of_cap hc hb) henc) hb

end Sys2Proof.Machine
end

section
/-! SUPPORT. The bit-stream commands (O20 to O27): what appending to the host's sink and reading from the host's source
do in every state; and fields written and read back (O28). -/

namespace Sys2Proof.Machine

/-! ### The words of the commands that take a count (R90, R95) -/

/-- The word written as a code and a count shifted above it is the word of the two fields. -/
theorem opcode_or_count (opc n : BitVec 8) : opc.setWidth 32 ||| n.setWidth 32 <<< 8 = 0#16 ++ n ++ opc := by
  apply BitVec.eq_of_getLsbD_eq
  intro i hi
  simp only [BitVec.getLsbD_or, BitVec.getLsbD_setWidth, BitVec.getLsbD_shiftLeft, BitVec.getLsbD_append]
  rcases Nat.lt_or_ge i 8 with hlow | hhigh
  · simp [hlow, hi]
  · simpa [hi, Nat.not_lt.mpr hhigh, BitVec.getLsbD_of_ge opc i hhigh, show i - 8 < 32 by omega] using
      BitVec.lt_of_getLsbD (x := n) (i := i - 8)

/-- The word so written for a well-formed command decodes to it. -/
theorem decode_opcode_or_count {i : Instr} (hwf : i.wellFormed = true) :
    decode ((opcodeOf i).setWidth 32 ||| (countOf i).setWidth 32 <<< 8) = .ok i := by
  rw [opcode_or_count]
  exact decodeInvertsEncode i hwf

/-! ### The sink (R131 to R135) -/

/-- Everything a command that appends `bits` to the host's sink does. -/
theorem sinkCommand_appends {n : Nat} {put : Sink → Sink} {bits : List Bool}
    (hput : ∀ k, sinkWf k = true → sinkWf (put k) = true ∧ sinkBits (put k) = sinkBits k ++ bits) (s : State) :
    (s.sink = none → FailedPlain .illegalCommand s (sinkCommand n put s)) ∧
    ∀ k, s.sink = some k → sinkWf k = true →
      (8 * s.cfg.bufCap < k.bitCount + n → FailedPlain .resourceExhausted s (sinkCommand n put s)) ∧
      (k.bitCount + n ≤ 8 * s.cfg.bufCap → ∃ k', SucceededPlain (some k') s.source s.rdata s (sinkCommand n put s)
        ∧ sinkWf k' = true ∧ sinkBits k' = sinkBits k ++ bits) := by
  obtain ⟨hnone, hsome⟩ := sinkCommand_cases n put s
  refine ⟨fun hk => hnone hk ▸ illegalCommand_failedPlain s, fun k hk hwf => ?_⟩
  obtain ⟨hfull, hroom⟩ := hsome k hk
  exact ⟨fun hn => hfull hn ▸ failPlain_failedPlain _ s,
    fun hn => ⟨put k, hroom hn ▸ setSink_succeeded _ s, hput k hwf⟩⟩

/-- A field listed from its most significant bit down (R133). -/
theorem fieldBits_eq_map (v : Word64) (n : Nat) :
    fieldBits v n = (List.range n).map fun j => v.getLsbD (n - 1 - j) := by
  induction n with
  | zero => rfl
  | succ n ih =>
    rw [fieldBits, ih, List.range_succ_eq_map, List.map_cons, List.map_map]
    simp only [Nat.add_sub_cancel, Nat.sub_zero, Function.comp_def, Nat.sub_sub, Nat.succ_eq_add_one, Nat.add_comm]

theorem execBsWbits_of_legal {n : BitVec 8} (hn : n.toNat ≤ 64) (s : State) :
    execBsWbits n s = .next (sinkCommand n.toNat (fun k => k.writeBits s.wdata n.toNat) s) :=
  if_neg (Nat.not_lt.mpr hn)

/-- Settles O20. -/
theorem wopenOpensAFreshSink : Obligations.WopenOpensAFreshSink :=
  ⟨rfl, fun s => ⟨_, rfl, setSink_succeeded (some Sink.empty) s⟩⟩

/-- Settles O21. -/
theorem wbitAppendsOneBit : Obligations.WbitAppendsOneBit := by
  refine ⟨rfl, fun s => ?_⟩
  obtain ⟨hnone, hsome⟩ := sinkCommand_appends (n := 1) (fun _ hk => sinkBits_writeBit (wdataBit s) hk) s
  refine ⟨fun hk => ⟨_, rfl, hnone hk⟩, fun k hk hwf => ?_⟩
  obtain ⟨hfull, hroom⟩ := hsome k hk hwf
  refine ⟨fun hn => ⟨_, rfl, hfull hn⟩, fun hn => ?_⟩
  obtain ⟨k', hk'⟩ := hroom hn
  exact ⟨_, k', rfl, hk'⟩

/-- Settles O22. -/
theorem wbitsAppendsTheLowBits : Obligations.WbitsAppendsTheLowBits := by
  intro s n hlegal
  have hexec : exec (.bsWbits n) s = _ := execBsWbits_of_legal hlegal s
  obtain ⟨hnone, hsome⟩ :=
    sinkCommand_appends (n := n.toNat) (fun _ hk => sinkBits_writeBits s.wdata n.toNat hk) s
  have hword := decode_opcode_or_count (i := .bsWbits n) (decide_eq_true hlegal)
  refine ⟨hword, fun hk => ⟨_, hexec, hnone hk⟩, fun k hk hwf => ?_⟩
  obtain ⟨hfull, hroom⟩ := hsome k hk hwf
  refine ⟨fun hn => ⟨_, hexec, hfull hn⟩, fun hn => ?_⟩
  obtain ⟨k', hk'⟩ := hroom hn
  rw [fieldBits_eq_map] at hk'
  exact ⟨_, k', hexec, hk'⟩

theorem execBsFinish_none {s : State} (h : s.sink = none) : execBsFinish s = .next (illegalCommand s) := by
  simp [execBsFinish, h]

theorem execBsFinish_some {s : State} {k : Sink} (h : s.sink = some k) :
    execBsFinish s = .next (succeed (setSink none (emitOutput k.finish (accepted s)))) := by
  simp [execBsFinish, h]

/-- Settles O23: the output is the finished sink, whose bytes lay out its bits and fit `OLEN`. -/
theorem finishDeliversThePaddedBits : Obligations.FinishDeliversThePaddedBits := by
  refine ⟨rfl, fun s => ⟨fun hk => ⟨_, execBsFinish_none hk, illegalCommand_failedPlain s⟩, ?_⟩⟩
  intro k hk hwf hcap hfits
  have hlen : k.finish.length < 2 ^ 32 := length_lt_of_cap hcap (SinkFits.finish_length_le ⟨hwf, hfits⟩)
  have hlay : LaysOut k.finish (sinkBits k) := Holds.laysOut ⟨hwf, rfl⟩
  refine ⟨_, execBsFinish_some hk, CompletedWith.of_complete _ _ rfl, { KeepsHostSide.refl s with }, rfl, rfl, rfl, ?_, ?_⟩
  · exact (olen_emitOutput k.finish (accepted s) hlen).trans (finish_length hwf)
  · exact (outputBytes_emitOutput k.finish (accepted s) hlen).symm ▸ hlay

/-! ### The source (R136 to R140) -/

/-- Everything a command that reads `n` bits of the host's source does. -/
theorem sourceCommand_reads (n : Nat) (s : State) :
    (s.source = none → FailedPlain .illegalCommand s (sourceCommand n s)) ∧
    ∀ r, s.source = some r →
      (8 * r.len < r.pos + n → FailedPlain .endOfStream s (sourceCommand n s)) ∧
      (r.pos + n ≤ 8 * r.len → SucceededPlain s.sink (some ⟨r.len, r.pos + n⟩) (gatherBits s.ibuf.read n r.pos 0) s
        (sourceCommand n s)) := by
  obtain ⟨hnone, hsome⟩ := sourceCommand_cases n s
  refine ⟨fun hr => hnone hr ▸ illegalCommand_failedPlain s, fun r hr => ?_⟩
  obtain ⟨hshort, hroom⟩ := hsome r hr
  exact ⟨fun hn => hshort hn ▸ failPlain_failedPlain _ s, fun hn => hroom hn ▸ setRdata_succeeded _ _ s⟩

/-- The bits of a gathered word: the bits read, the last one lowest, below what was there before (R138). -/
theorem getLsbD_gatherBits (d : Nat → Byte) (n p : Nat) (v : Word64) {j : Nat} (hj : j < 64) :
    (gatherBits d n p v).getLsbD j = if j < n then bitAt d (p + n - 1 - j) else v.getLsbD (j - n) := by
  induction n generalizing p v with
  | zero => rfl
  | succ n ih =>
    rw [gatherBits, ih]
    obtain hlt | rfl | hgt := Nat.lt_trichotomy j n
    · rw [if_pos hlt, if_pos (by omega), show p + 1 + n - 1 - j = p + (n + 1) - 1 - j by omega]
    · simp
    · have hpos : 0 < j - n := Nat.sub_pos_of_lt hgt
      rw [if_neg (by omega), if_neg (by omega), BitVec.getLsbD_or, BitVec.getLsbD_shiftLeft, BitVec.getLsbD_setWidth,
        BitVec.getLsbD_of_ge (BitVec.ofBool _) (j - n) hpos]
      simp [show j - n < 64 by omega, show j - n ≠ 0 by omega, Nat.sub_sub]

/-- One gathered bit is the bit at the position, as a number (R62, R137). -/
theorem gatherBits_one_toNat (d : Nat → Byte) (p : Nat) :
    (gatherBits d 1 p 0).toNat = (d (p / 8)).toNat / 2 ^ (7 - p % 8) % 2 := by
  rw [← Nat.toNat_testBit, gatherBits, gatherBits, toNat_shiftIn, bitAt, BitVec.getLsbD]
  cases (d (p / 8)).toNat.testBit (7 - p % 8) <;> rfl

/-- `BS.RBIT` is the read of one bit (R148). -/
theorem execBsRbit_eq (s : State) : execBsRbit s = .next (sourceCommand 1 s) := by
  unfold execBsRbit sourceCommand
  cases s.source with
  | none => rfl
  | some r =>
    by_cases hend : 8 * r.len ≤ r.pos
    · simp [Source.readBit, Source.readBits, hend, Nat.lt_succ_of_le hend]
    · simp [Source.readBit, Source.readBits, gatherBits, hend]

theorem execBsRbits_of_legal {n : BitVec 8} (hn : n.toNat ≤ 64) (s : State) :
    execBsRbits n s = .next (sourceCommand n.toNat s) :=
  if_neg (Nat.not_lt.mpr hn)

/-- Settles O24. -/
theorem ropenOpensAFreshSource : Obligations.RopenOpensAFreshSource := by
  refine ⟨rfl, fun s => ⟨fun hlong => ?_, fun hfits => ?_⟩⟩
  · exact ⟨_, if_pos (inputTooLong_eq_true hlong), illegalCommand_failedPlain s⟩
  · exact ⟨_, if_neg (by simp [inputTooLong_eq_false hfits]), setSource_succeeded _ s⟩

/-- Settles O25. -/
theorem rbitReadsTheNextBit : Obligations.RbitReadsTheNextBit := by
  refine ⟨rfl, fun s => ?_⟩
  have hexec : exec .bsRbit s = _ := execBsRbit_eq s
  obtain ⟨hnone, hsome⟩ := sourceCommand_reads 1 s
  refine ⟨fun hr => ⟨_, hexec, hnone hr⟩, fun r hr => ?_⟩
  obtain ⟨hshort, hroom⟩ := hsome r hr
  exact ⟨fun hn => ⟨_, hexec, hshort (Nat.lt_succ_of_le hn)⟩,
    fun hn => ⟨_, _, hexec, hroom hn, gatherBits_one_toNat s.ibuf.read r.pos⟩⟩

/-- Settles O26. -/
theorem rbitsReadsTheNextBits : Obligations.RbitsReadsTheNextBits := by
  intro s n hlegal
  have hexec : exec (.bsRbits n) s = _ := execBsRbits_of_legal hlegal s
  obtain ⟨hnone, hsome⟩ := sourceCommand_reads n.toNat s
  have hword := decode_opcode_or_count (i := .bsRbits n) (decide_eq_true hlegal)
  refine ⟨hword, fun hr => ⟨_, hexec, hnone hr⟩, fun r hr => ?_⟩
  obtain ⟨hshort, hroom⟩ := hsome r hr
  refine ⟨fun hn => ⟨_, hexec, hshort hn⟩, fun hn => ⟨_, _, hexec, hroom hn, fun j => ?_⟩⟩
  rcases Nat.lt_or_ge j 64 with hj | hj
  · rw [getLsbD_gatherBits _ _ _ _ hj, BitVec.ofNat_eq_ofNat, BitVec.getLsbD_zero]
    rfl
  · rw [BitVec.getLsbD_of_ge _ _ hj, if_neg (by omega)]

theorem execBsAtend_none {s : State} (h : s.source = none) : execBsAtend s = .next (illegalCommand s) := by
  simp [execBsAtend, h]

theorem execBsAtend_some {s : State} {r : Source} (h : s.source = some r) :
    execBsAtend s = .next (succeed (setRdata (if r.pos = 8 * r.len then 1 else 0) (accepted s))) := by
  have hbit : (BitVec.ofBool r.atEnd).setWidth 64 = if r.pos = 8 * r.len then 1 else 0 := by
    by_cases hend : r.pos = 8 * r.len <;> simp [Source.atEnd, beq_eq_decide, hend]
  simp only [execBsAtend, h, hbit]

/-- Settles O27. -/
theorem atendTellsWhetherABitRemains : Obligations.AtendTellsWhetherABitRemains :=
  ⟨rfl, fun s => ⟨fun hr => ⟨_, execBsAtend_none hr, illegalCommand_failedPlain s⟩,
    fun _ hr => ⟨_, execBsAtend_some hr, setRdata_succeeded _ s.source s⟩⟩⟩

/-! ### Fields written and read back (R142) -/

/-- The bits of fields written one after the other. -/
def fieldsBits (fields : List (Word64 × Nat)) : List Bool := fields.flatMap fun f => fieldBits f.1 f.2

theorem fieldsBits_length (fields : List (Word64 × Nat)) : (fieldsBits fields).length = (fields.map Prod.snd).sum := by
  simp [fieldsBits, List.length_flatMap]

theorem Holds.writeFields {k : Sink} {bits : List Bool} (fields : List (Word64 × Nat)) (h : Holds k bits) :
    Holds (writeFields k fields) (bits ++ fieldsBits fields) := by
  induction fields generalizing k bits with
  | nil => rw [fieldsBits, List.flatMap_nil, List.append_nil]; exact h
  | cons f fields ih =>
    rw [fieldsBits, List.flatMap_cons, ← List.append_assoc]
    exact ih (h.writeBits f.1 f.2)

/-- Reading a field that `writeBits` wrote gives the value's low bits, whether the value fits the field or not. -/
theorem Ahead.readBits {bs : List Byte} {rest : List Bool} {r : Source} {v : Word64} {n : Nat}
    (h : Ahead bs (fieldBits v n ++ rest) r) :
    ∃ r', r.readBits (dataOf bs) n = .ok (BitVec.ofNat 64 (v.toNat % 2 ^ n), r') ∧ Ahead bs rest r' := by
  obtain ⟨done, hbits, rfl⟩ := h
  rw [← List.append_assoc] at hbits
  have hread := readBits_of_bits bs done (fieldBits v n) rest hbits
  rw [fieldBits_length, bitsValue_fieldBits] at hread
  exact ⟨_, hread, done ++ fieldBits v n, hbits, by simp⟩

theorem Ahead.readFields {bs : List Byte} {rest : List Bool} {r : Source} (fields : List (Word64 × Nat))
    (h : Ahead bs (fieldsBits fields ++ rest) r) :
    ∃ r', readFields (dataOf bs) r (fields.map Prod.snd)
        = .ok (fields.map fun f => BitVec.ofNat 64 (f.1.toNat % 2 ^ f.2), r') ∧ Ahead bs rest r' := by
  induction fields generalizing r with
  | nil => exact ⟨r, rfl, h⟩
  | cons f fields ih =>
    rw [fieldsBits, List.flatMap_cons, List.append_assoc] at h
    obtain ⟨r1, hread, h1⟩ := h.readBits
    obtain ⟨r2, hfields, h2⟩ := ih h1
    exact ⟨r2, by simp only [List.map_cons, Machine.readFields, hread, hfields], h2⟩

/-- Settles O28: the finished sink lays out the fields' bits, the reads pass exactly those, and what is left is the
padding. -/
theorem writtenFieldsReadBack : Obligations.WrittenFieldsReadBack := by
  intro fields _
  have hlay : LaysOut (writeFields ⟨[], 0, 0⟩ fields).finish (fieldsBits fields) := (Holds.empty.writeFields fields).laysOut
  generalize (writeFields ⟨[], 0, 0⟩ fields).finish = out at hlay ⊢
  obtain ⟨hlen, hbits⟩ := hlay
  obtain ⟨r, hread, done, hdone, rfl⟩ := Ahead.readFields fields (hbits ▸ ahead_open out)
  rw [fieldsBits_length] at hlen hdone
  have htotal := congrArg List.length hdone
  rw [bitsOf_length, List.length_append, List.length_replicate] at htotal
  have hpos : done.length = (fields.map Prod.snd).sum := by omega
  refine ⟨_, hread, hpos, ?_, ?_⟩
  · simp only [hpos]
    omega
  · rw [hdone, List.drop_left, hpos]

end Sys2Proof.Machine
end

section
/-! SUPPORT. Zigzag and varint as number maps (O37 to O40), the bijection DODF (O45), and the streams of constant
columns (O46). -/

namespace Sys2Proof.Machine

/-! ### Zigzag (R160, R161) -/

/-- The sign mask of `zigzag` turns the doubled value into its complement when the value is negative (R160). -/
theorem zigzag_eq_ite (v : Word64) : zigzag v = if v.msb then ~~~(v <<< 1) else v <<< 1 := by
  apply BitVec.eq_of_getLsbD_eq
  intro i hi
  have hdouble : (v <<< 1).getLsbD i = (decide (0 < i) && v.getLsbD (i - 1)) := by
    rw [BitVec.getLsbD_shiftLeft]
    cases i <;> simp [hi]
  rw [getLsbD_zigzag v hi, ← BitVec.msb_eq_getLsbD_last v, ← hdouble]
  cases v.msb
  · exact Bool.xor_false _
  · rw [if_pos rfl, BitVec.getLsbD_not, decide_eq_true hi, Bool.true_and, Bool.xor_true]

theorem toNat_zigzag (v : Word64) :
    ((zigzag v).toNat : Int) = if 0 ≤ v.toInt then 2 * v.toInt else -2 * v.toInt - 1 := by
  have hlt := v.isLt
  have hdouble : (v <<< 1).toNat = 2 * v.toNat % 2 ^ 64 := by
    rw [BitVec.toNat_shiftLeft, Nat.shiftLeft_eq, Nat.pow_one, Nat.mul_comm]
  rw [zigzag_eq_ite, BitVec.toInt_eq_msb_cond]
  cases hsign : v.msb with
  | true =>
    have hge : 2 ^ 64 ≤ 2 * v.toNat := BitVec.msb_eq_true_iff_two_mul_ge.mp hsign
    rw [if_pos rfl, if_pos rfl, if_neg (by omega), BitVec.toNat_not, hdouble]
    omega
  | false =>
    have hhalf : 2 * v.toNat < 2 ^ 64 := BitVec.msb_eq_false_iff_two_mul_lt.mp hsign
    rw [if_neg Bool.false_ne_true, if_neg Bool.false_ne_true, if_pos (by omega), hdouble]
    omega

theorem zigzag_unzigzag (u : Word64) : zigzag (unzigzag u) = u := by
  apply BitVec.eq_of_getLsbD_eq
  intro i hi
  have htop : (unzigzag u).getLsbD 63 = u.getLsbD 0 := by
    rw [getLsbD_unzigzag u (by decide), BitVec.getLsbD_of_ge u 64 (Nat.le_refl _), Bool.false_xor]
  rw [getLsbD_zigzag _ hi, htop]
  cases i with
  | zero => simp
  | succ i => rw [Nat.add_sub_cancel, getLsbD_unzigzag u (by omega)]; simp

/-- Settles O37. -/
theorem zigzagIsABijection : Obligations.ZigzagIsABijection :=
  ⟨toNat_zigzag, unzigzag_zigzag, zigzag_unzigzag⟩

/-! ### The bytes of `varint_enc` (R111, R162) -/

theorem toNat_ushiftRight7 (z : Word64) : (z >>> 7).toNat = z.toNat / 128 := by
  rw [BitVec.toNat_ushiftRight, Nat.shiftRight_eq_div_pow]

theorem ushiftRight7_ne_zero {z : Word64} : z >>> 7 ≠ 0 ↔ 128 ≤ z.toNat := by
  rw [ne_eq, BitVec.toNat_eq, toNat_ushiftRight7]
  change ¬ z.toNat / 128 = 0 ↔ _
  omega

theorem varintGroup_toNat (z : Word64) : (varintGroup z).toNat = z.toNat % 128 := by
  have hlow : (z &&& 0x7F#64).toNat = z.toNat % 128 := by
    rw [BitVec.toNat_and]
    exact Nat.and_two_pow_sub_one_eq_mod z.toNat 7
  rw [varintGroup, BitVec.toNat_setWidth, hlow]
  omega

theorem mark_toNat : ∀ b : Byte, b.toNat < 128 → (b ||| 0x80#8).toNat = b.toNat + 128 := by decide

theorem varintGroup_marked_toNat (z : Word64) : (varintGroup z ||| 0x80#8).toNat = z.toNat % 128 + 128 := by
  rw [mark_toNat _ (by rw [varintGroup_toNat]; omega), varintGroup_toNat]

/-- The last group: nothing is left above it. -/
theorem varintGroups_last (fuel : Nat) {z : Word64} (h : z.toNat < 128) :
    varintGroups (fuel + 1) z = [varintGroup z] := by
  rw [varintGroups_succ, if_neg (mt ushiftRight7_ne_zero.mp (by omega))]

/-- A group with more to come is marked. -/
theorem varintGroups_more (fuel : Nat) {z : Word64} (h : 128 ≤ z.toNat) :
    varintGroups (fuel + 1) z = (varintGroup z ||| 0x80#8) :: varintGroups fuel (z >>> 7) := by
  rw [varintGroups_succ, if_pos (ushiftRight7_ne_zero.mpr h)]

/-- The rest after one group needs one group less. -/
theorem ushiftRight7_lt {z : Word64} {n : Nat} (h : z.toNat < 2 ^ (7 * (n + 1))) : (z >>> 7).toNat < 2 ^ (7 * n) := by
  rw [Nat.mul_succ, Nat.pow_add] at h
  rw [toNat_ushiftRight7]
  omega

/-- Enough groups spell the whole value. -/
theorem groupsValue_varintGroups (fuel : Nat) {z : Word64} (hz : z.toNat < 2 ^ (7 * fuel)) :
    groupsValue (varintGroups fuel z) = z.toNat := by
  induction fuel generalizing z with
  | zero => simp only [varintGroups, groupsValue]; omega
  | succ fuel ih =>
    rcases Nat.lt_or_ge z.toNat 128 with hlast | hmore
    · rw [varintGroups_last fuel hlast, groupsValue, groupsValue, varintGroup_toNat]
      omega
    · rw [varintGroups_more fuel hmore, groupsValue, ih (ushiftRight7_lt hz), varintGroup_marked_toNat,
        toNat_ushiftRight7]
      omega

/-- The groups are marked bytes and an unmarked one. -/
theorem varintGroups_eq_append (fuel : Nat) {z : Word64} (hz : z.toNat < 2 ^ (7 * (fuel + 1))) :
    ∃ pre b, varintGroups (fuel + 1) z = pre ++ [b] ∧ (∀ x ∈ pre, 128 ≤ x.toNat) ∧ b.toNat < 128 ∧
      pre.length ≤ fuel := by
  induction fuel generalizing z with
  | zero =>
    refine ⟨[], varintGroup z, varintGroups_last 0 hz, by simp, ?_, Nat.le_refl _⟩
    rw [varintGroup_toNat]
    omega
  | succ fuel ih =>
    rcases Nat.lt_or_ge z.toNat 128 with hlast | hmore
    · refine ⟨[], varintGroup z, varintGroups_last _ hlast, by simp, ?_, Nat.zero_le _⟩
      rw [varintGroup_toNat]
      omega
    · obtain ⟨pre, b, heq, hpre, hb, hlen⟩ := ih (ushiftRight7_lt hz)
      refine ⟨_ :: pre, b, by rw [varintGroups_more _ hmore, heq, List.cons_append], ?_, hb, Nat.succ_le_succ hlen⟩
      refine List.forall_mem_cons.mpr ⟨?_, hpre⟩
      rw [varintGroup_marked_toNat]
      omega

/-- No group is redundant: a value reaches into its last group, except for 0, which has one group all the same. -/
theorem varintGroups_minimal (fuel : Nat) {z : Word64} (hz : z.toNat ≠ 0) :
    2 ^ (7 * ((varintGroups fuel z).length - 1)) ≤ z.toNat := by
  induction fuel generalizing z with
  | zero => simpa [varintGroups] using Nat.one_le_iff_ne_zero.mpr hz
  | succ fuel ih =>
    rcases Nat.lt_or_ge z.toNat 128 with hlast | hmore
    · rw [varintGroups_last fuel hlast]
      exact Nat.one_le_iff_ne_zero.mpr hz
    · have hrest := ih (z := z >>> 7) (by rw [toNat_ushiftRight7]; omega)
      rw [varintGroups_more fuel hmore, List.length_cons, Nat.add_sub_cancel]
      rw [toNat_ushiftRight7] at hrest
      rcases hlen : (varintGroups fuel (z >>> 7)).length with _ | n
      · omega
      · rw [hlen, Nat.add_sub_cancel] at hrest
        rw [Nat.mul_succ, Nat.pow_add]
        omega

/-- Bytes that are marked but for the last one: bit 7 tells whether another byte follows (R162). -/
theorem marked_iff_not_last {pre : List Byte} {b : Byte} (hpre : ∀ x ∈ pre, 128 ≤ x.toNat) (hb : b.toNat < 128) {i : Nat}
    {x : Byte} (hx : (pre ++ [b])[i]? = some x) : 128 ≤ x.toNat ↔ i + 1 < (pre ++ [b]).length := by
  rw [List.length_append, List.length_singleton]
  rcases Nat.lt_or_ge i pre.length with hi | hi
  · rw [List.getElem?_append_left hi] at hx
    exact iff_of_true (hpre x (List.mem_of_getElem? hx)) (by omega)
  · rw [List.getElem?_append_right hi] at hx
    obtain rfl : x = b := List.mem_singleton.mp (List.mem_of_getElem? hx)
    exact iff_of_false (by omega) (by omega)

/-- Settles O38: ten groups hold 64 bits, so they are marked bytes and an unmarked one that spell the zigzag value. -/
theorem varintIsCanonical : Obligations.VarintIsCanonical := by
  intro v
  have hten : (zigzag v).toNat < 2 ^ (7 * 10) := (zigzag v).isLt.trans (by decide)
  obtain ⟨pre, b, heq, hpre, hb, hlen⟩ := varintGroups_eq_append 9 hten
  have henc : varintEnc v = pre ++ [b] := heq
  have hlength : (varintEnc v).length = pre.length + 1 := by rw [henc]; simp
  refine ⟨groupsValue_varintGroups 10 hten, by omega, by omega, fun i x hx => ?_, fun hmany => ?_⟩
  · rw [henc] at hx ⊢
    exact marked_iff_not_last hpre hb hx
  · refine varintGroups_minimal 10 fun hzero => ?_
    rw [varintEnc, varintGroups_last 9 (by omega), List.length_singleton] at hmany
    exact Nat.lt_irrefl 1 hmany

/-! ### `varint_dec` (R163, R164) -/

theorem varintDec_append (before bytes : List Byte) :
    varintDec (before ++ bytes) before.length = varintDec bytes 0 := by
  rw [varintDec, List.drop_left, varintDec, List.drop_zero]

theorem varintDec_past_end {bytes : List Byte} {off : Nat} (h : bytes.length ≤ off) :
    varintDec bytes off = .error .truncatedStream := by
  rw [varintDec, List.drop_of_length_le h]
  rfl

/-- Settles O39: from an offset inside the sequence on, the item is cut, over-long or a varint. -/
theorem varintDecoderAnswers : Obligations.VarintDecoderAnswers := by
  refine ⟨fun _ _ => varintDec_past_end, fun before pre hmarked => ⟨fun hlen => ?_, fun b rest => ⟨?_, ?_⟩⟩⟩
  · rw [varintDec_append, varintDec_cut hmarked hlen]
  · intro hnine hb
    rw [List.append_assoc, varintDec_append, varintDec_overlong rest hmarked hnine hb]
  · intro hlen hb hten
    have hdec := varintDec_isVarint ⟨pre, b, rfl, hmarked, hb, hlen, hten⟩ rest
    rw [List.append_assoc, List.singleton_append] at hdec
    rw [List.append_assoc, varintDec_append, hdec, varintWord, List.length_append, List.length_singleton]

/-- Settles O40. -/
theorem varintRoundTrip : Obligations.VarintRoundTrip := varintDec_varintEnc

/-! ### DODF (R171, R178 to R180) -/

theorem secondDiffs_rebuild (xs : List Word64) (prev delta : Word64) :
    secondDiffs prev delta (rebuild prev delta xs) = xs := by
  induction xs generalizing prev delta with
  | nil => rfl
  | cons x xs ih =>
    have hdelta : prev + (delta + x) - prev = delta + x := by rw [BitVec.add_comm, BitVec.add_sub_cancel]
    have hx : delta + x - delta = x := by rw [BitVec.add_comm, BitVec.add_sub_cancel]
    rw [rebuild, secondDiffs, hdelta, hx, ih]

theorem columnTerms_columnOfTerms (xs : List Word64) : columnTerms (columnOfTerms xs) = xs := by
  cases xs with
  | nil => rfl
  | cons x xs => rw [columnOfTerms, columnTerms, secondDiffs_rebuild]

/-- The terms of a column, by their index (R171). -/
theorem columnTerms_eq_map_termAt (vs : List Word64) : columnTerms vs = (List.range vs.length).map (termAt vs) := by
  cases vs with
  | nil => rfl
  | cons v0 vs =>
    rw [columnTerms, ← map_termAt, List.range_eq_range', List.length_cons, List.range'_succ, List.map_cons]
    rfl

theorem dodfStream_length (vs : List Word64) : (dodfStream vs).length = (bytesOf64 vs).length := by
  simp [dodfStream]

theorem dodfEnc_bytesOf64 (vs : List Word64) : dodfEnc (bytesOf64 vs) = .ok (dodfStream vs) := by
  rw [dodfEnc, withColumn64_bytesOf64, columnTerms_eq_map_termAt, List.map_map]
  rfl

theorem dodfDec_bytesOf64 (ys : List Word64) :
    dodfDec (bytesOf64 ys) = .ok (bytesOf64 (columnOfTerms (ys.map unzigzag))) := by
  rw [dodfDec, withColumn64_bytesOf64]

/-- What `DODF.DEC` makes of a column, `DODF.ENC` maps back (R180). -/
theorem dodfEnc_columnOfTerms (ys : List Word64) :
    dodfEnc (bytesOf64 (columnOfTerms (ys.map unzigzag))) = .ok (bytesOf64 ys) := by
  rw [dodfEnc, withColumn64_bytesOf64, columnTerms_columnOfTerms, List.map_map]
  simp only [Function.comp_def, zigzag_unzigzag, List.map_id']

theorem rebuild_length (cur delta : Word64) (xs : List Word64) : (rebuild cur delta xs).length = xs.length := by
  induction xs generalizing cur delta with
  | nil => rfl
  | cons x xs ih => rw [rebuild, List.length_cons, ih, List.length_cons]

theorem columnOfTerms_length (xs : List Word64) : (columnOfTerms xs).length = xs.length := by
  cases xs with
  | nil => rfl
  | cons x xs => rw [columnOfTerms, List.length_cons, rebuild_length, List.length_cons]

/-- Settles O45: both maps keep the length, so a result fits wherever the input did. -/
theorem dodfIsABijectionOnColumns : Obligations.DodfIsABijectionOnColumns := by
  intro s vs hc hi
  have hfits {bytes : List Byte} (h : inputBytes s = bytes) : bytes.length ≤ s.cfg.bufCap := by
    rw [← h, inputBytes_length]
    exact hi
  refine ⟨fun hinp => ?_, fun hinp => ?_, fun hinp => ?_⟩
  · exact codec_delivers rfl hc hi (hinp ▸ dodfEnc_bytesOf64 vs) (dodfStream_length vs ▸ hfits hinp)
  · exact codec_delivers rfl hc hi (hinp ▸ dodf_roundTrip (dodfEnc_bytesOf64 vs)) (dodfStream_length vs ▸ hfits hinp)
  · have hlen : (bytesOf64 (columnOfTerms (vs.map unzigzag))).length = (bytesOf64 vs).length := by
      simp [columnOfTerms_length]
    obtain ⟨t, ht, hdel⟩ :=
      codec_delivers (i := .dodfDec) rfl hc hi (hinp ▸ dodfDec_bytesOf64 vs) (hlen ▸ hfits hinp)
    exact ⟨t, _, ht, hdel, dodfEnc_columnOfTerms vs⟩

/-! ### Constant columns of integers (R169, R175) -/

theorem differences_replicate (v : Word64) (n : Nat) :
    differences (List.replicate (n + 1) v) = List.replicate n 0 := by
  rw [differences, List.tail_replicate, List.zipWith_replicate, BitVec.sub_self, Nat.add_sub_cancel,
    Nat.min_eq_right (Nat.le_succ n), BitVec.ofNat_eq_ofNat]

/-- The varint of 0 is one zero byte (R162). -/
theorem varintsOf_replicate_zero (n : Nat) : varintsOf (List.replicate n 0) = List.replicate n 0 := by
  induction n with
  | zero => rfl
  | succ n ih => rw [List.replicate_succ, varintsOf, ih]; rfl

theorem deltaEnc_replicate (v : Word64) (n : Nat) :
    deltaEnc (bytesOf64 (List.replicate (n + 1) v)) = .ok (bytesBe64 v ++ List.replicate n 0) := by
  rw [List.replicate_succ, deltaEnc_cons, ← List.replicate_succ, differences_replicate, varintsOf_replicate_zero]

theorem dodEnc_replicate (v : Word64) (n : Nat) :
    dodEnc (bytesOf64 (List.replicate (n + 1) v)) = .ok (bytesBe64 v ++ List.replicate n 0) := by
  rw [List.replicate_succ, dodEnc_cons, secondDiffs_eq_differences, ← List.replicate_succ, differences_replicate,
    ← List.replicate_succ, differences_replicate, varintsOf_replicate_zero]

/-! ### Constant columns of patterns (R206, R225) -/

theorem byteBits_injective {a b : Byte} (h : byteBits a = byteBits b) : a = b := by
  apply BitVec.eq_of_toNat_eq
  rw [← bitsValue_byteBits a, h, bitsValue_byteBits]

theorem bitsOf_injective {xs ys : List Byte} (h : bitsOf xs = bitsOf ys) : xs = ys := by
  induction xs generalizing ys with
  | nil => cases ys with
    | nil => rfl
    | cons y ys => simpa using congrArg List.length h
  | cons x xs ih => cases ys with
    | nil => simpa using congrArg List.length h
    | cons y ys =>
      obtain ⟨hhead, htail⟩ := List.append_inj h rfl
      rw [byteBits_injective hhead, ih htail]

/-- A bit string has one layout (R64). -/
theorem LaysOut.unique {xs ys : List Byte} {bits : List Bool} (hx : LaysOut xs bits) (hy : LaysOut ys bits) :
    xs = ys := by
  obtain ⟨hxlen, hxbits⟩ := hx
  obtain ⟨hylen, hybits⟩ := hy
  exact bitsOf_injective (by rw [hxbits, hybits, hxlen, hylen])

theorem bitsOf_replicate_zero (n : Nat) : bitsOf (List.replicate n 0) = List.replicate (8 * n) false := by
  induction n with
  | zero => rfl
  | succ n ih => rw [List.replicate_succ, bitsOf, ih, Nat.mul_succ, Nat.add_comm, List.replicate_add]; rfl

/-- The count field of a float stream is the count as a 32-bit word (R66, R115). -/
theorem fieldBits_count (m : Nat) : fieldBits (BitVec.ofNat 64 m) 32 = bitsOf (bytesBe32 (BitVec.ofNat 32 m)) := by
  rw [bitsOf_bytesBe32, fieldBits_eq_map, fieldBits_eq_map]
  refine List.map_congr_left fun j hj => ?_
  have hj32 := List.mem_range.mp hj
  simp only [BitVec.getLsbD_ofNat, BitVec.getLsbD_setWidth]
  simp [show 32 - 1 - j < 64 by omega, show 32 - 1 - j < 32 by omega]

theorem xorfBits_replicate (p : Word32) (win : Option (Nat × Nat)) (n : Nat) :
    xorfBits p win (List.replicate n p) = List.replicate n false := by
  induction n with
  | zero => rfl
  | succ n ih => rw [List.replicate_succ, xorfBits, BitVec.xor_self]; simp [ih, List.replicate_succ]

theorem chimpBits_replicate (p : Word32) (stored : List (Nat × Nat)) (n : Nat) :
    chimpBits p stored (List.replicate n p) = List.replicate n false := by
  induction n with
  | zero => rfl
  | succ n ih => rw [List.replicate_succ, chimpBits, BitVec.xor_self]; simp [ih, List.replicate_succ]

/-- The stream of `n + 1` equal patterns: count, pattern, `n` zero bits padded (R206, R225). -/
def constantFloatStream (p : Word32) (n : Nat) : List Byte :=
  bytesBe32 (BitVec.ofNat 32 (n + 1)) ++ bytesBe32 p ++ List.replicate ((n + 7) / 8) 0

theorem constantFloatStream_length (p : Word32) (n : Nat) : (constantFloatStream p n).length = 8 + (n + 7) / 8 := by
  simp only [constantFloatStream, List.length_append, bytesBe32_length, List.length_replicate]

/-- It lays out the bits of a float stream whose records for equal patterns are zero bits. -/
theorem constantFloatStream_laysOut {records : Word32 → List Word32 → List Bool} {p : Word32} {n : Nat}
    (hrecords : records p (List.replicate n p) = List.replicate n false) :
    LaysOut (constantFloatStream p n) (floatBits records (List.replicate (n + 1) p)) := by
  have hbits : floatBits records (List.replicate (n + 1) p)
      = bitsOf (bytesBe32 (BitVec.ofNat 32 (n + 1)) ++ bytesBe32 p) ++ List.replicate n false := by
    rw [List.replicate_succ, floatBits, hrecords, List.length_replicate, fieldBits_count, ← bitsOf_bytesBe32,
      bitsOf_append]
  have hlen : (floatBits records (List.replicate (n + 1) p)).length = 64 + n := by
    simp only [hbits, List.length_append, bitsOf_length, bytesBe32_length, List.length_replicate]
  refine ⟨by rw [constantFloatStream_length, hlen]; omega, ?_⟩
  rw [hlen, constantFloatStream_length, hbits, constantFloatStream, bitsOf_append, bitsOf_replicate_zero,
    List.append_assoc, ← List.replicate_add]
  congr 2
  omega

/-- A float encoder whose records for equal patterns are zero bits, on a constant column. -/
theorem encoder_replicate {f : List Byte → Except Failure (List Byte)} {records : Word32 → List Word32 → List Bool}
    {p : Word32} {n : Nat}
    (hf : ∃ out, f (bytesOf32 (List.replicate (n + 1) p)) = .ok out ∧
      LaysOut out (floatBits records (List.replicate (n + 1) p)))
    (hrecords : records p (List.replicate n p) = List.replicate n false) :
    f (bytesOf32 (List.replicate (n + 1) p)) = .ok (constantFloatStream p n) := by
  obtain ⟨out, hout, hlay⟩ := hf
  rw [hout, hlay.unique (constantFloatStream_laysOut hrecords)]

theorem xorfEnc_replicate (p : Word32) (n : Nat) :
    xorfEnc (bytesOf32 (List.replicate (n + 1) p)) = .ok (constantFloatStream p n) :=
  encoder_replicate (xorfEnc_laysOut _) (xorfBits_replicate p none n)

theorem chimpEnc_replicate (p : Word32) (n : Nat) :
    chimpEnc (bytesOf32 (List.replicate (n + 1) p)) = .ok (constantFloatStream p n) :=
  encoder_replicate (chimpEnc_laysOut _) (chimpBits_replicate p [] n)

/-- Settles O46: equal elements differ by 0, which is one zero byte as a varint and one zero bit as a record. -/
theorem constantColumnsEncodeShort : Obligations.ConstantColumnsEncodeShort := by
  intro s n hc hi
  refine ⟨fun v hinp i hcase => ?_, fun p hinp i hcase hcap => ?_⟩
  · have hfits : (bytesBe64 v ++ List.replicate n 0).length ≤ s.cfg.bufCap := by
      have hlen := congrArg List.length hinp
      rw [inputBytes_length, bytesOf64_length, List.length_replicate] at hlen
      rw [List.length_append, bytesBe64_length, List.length_replicate]
      omega
    obtain rfl | rfl := hcase
    · exact codec_delivers rfl hc hi (hinp ▸ deltaEnc_replicate v n) hfits
    · exact codec_delivers rfl hc hi (hinp ▸ dodEnc_replicate v n) hfits
  · have hfits : (constantFloatStream p n).length ≤ s.cfg.bufCap := constantFloatStream_length p n ▸ hcap
    obtain rfl | rfl := hcase
    · exact codec_delivers rfl hc hi (hinp ▸ xorfEnc_replicate p n) hfits
    · exact codec_delivers rfl hc hi (hinp ▸ chimpEnc_replicate p n) hfits

end Sys2Proof.Machine
end

section
/-! SUPPORT. HUFF: the merging of the ranked leaves makes the tree, and its codes lead to the table's bytes (O52,
R243 to R248). -/

namespace Sys2Proof.Machine

/-! ### The node order and `popMin` (R243) -/

theorem treeBefore_iff {a b : HuffTree} : treeBefore a b = true ↔ NodeLess a b := by
  simp [treeBefore, NodeLess]

theorem NodeLess.asymm {a b : HuffTree} (h : NodeLess a b) : ¬ NodeLess b a := by
  unfold NodeLess at *
  omega

theorem NodeLess.trans {a b c : HuffTree} (hab : NodeLess a b) (hbc : NodeLess b c) : NodeLess a c := by
  unfold NodeLess at *
  omega

/-- No node before: less by frequency, or the same frequency and no larger sequence number (R243). -/
theorem not_nodeLess_iff {a b : HuffTree} :
    ¬ NodeLess b a ↔ treeFreq a < treeFreq b ∨ (treeFreq a = treeFreq b ∧ treeSeq a ≤ treeSeq b) := by
  unfold NodeLess
  omega

/-- Two nodes with different sequence numbers stand in a strict order (R243). -/
theorem nodeLess_of_not {a b : HuffTree} (h : ¬ NodeLess b a) (hseq : treeSeq a ≠ treeSeq b) : NodeLess a b := by
  unfold NodeLess at *
  omega

/-- No other node comes before the popped one (R243). -/
theorem popMin_least {q rest : List HuffTree} {a : HuffTree} (h : popMin q = some (a, rest)) :
    ∀ b ∈ rest, ¬ NodeLess b a := by
  induction q generalizing a rest with
  | nil => cases h
  | cons t ts ih =>
    simp only [popMin] at h
    split at h
    next =>
      cases h
      simp
    next m others hm =>
      split at h
      next hbefore =>
        cases h
        have hlt : NodeLess t m := treeBefore_iff.mp hbefore
        intro b hb
        obtain _ | ⟨_, hb⟩ := (popMin_perm hm).mem_iff.mpr hb
        · exact hlt.asymm
        · exact fun hbt => ih hm b hb (hbt.trans hlt)
      next hnot =>
        cases h
        rintro b (_ | ⟨_, hb⟩)
        · exact fun hlt => hnot (treeBefore_iff.mpr hlt)
        · exact ih hm b hb

/-! ### The merging (R245) -/

/-- The nodes of a merging about to make the node numbered `m`: all numbered below `m`, no number twice (R243). -/
structure NumberedBelow (m : Nat) (q : List HuffTree) : Prop where
  nodup : (q.map treeSeq).Nodup
  lt : ∀ x ∈ q, treeSeq x < m

theorem NumberedBelow.perm {m : Nat} {q q' : List HuffTree} (h : NumberedBelow m q) (hperm : q'.Perm q) :
    NumberedBelow m q' :=
  ⟨(hperm.map treeSeq).nodup_iff.mpr h.nodup, fun x hx => h.lt x (hperm.mem_iff.mp hx)⟩

theorem NumberedBelow.tail {m : Nat} {q : List HuffTree} {a : HuffTree} (h : NumberedBelow m (a :: q)) :
    NumberedBelow m q :=
  ⟨(List.nodup_cons.mp h.nodup).2, fun x hx => h.lt x (List.mem_cons_of_mem _ hx)⟩

theorem NumberedBelow.merged {m f : Nat} {q : List HuffTree} (h : NumberedBelow m q) (a b : HuffTree) :
    NumberedBelow (m + 1) (.node f m a b :: q) := by
  refine ⟨List.nodup_cons.mpr ⟨fun hm => ?_, h.nodup⟩, fun x hx => ?_⟩
  · obtain ⟨x, hx, hseq⟩ := List.mem_map.mp hm
    exact absurd hseq (h.lt x hx).ne
  · obtain _ | ⟨_, hx⟩ := hx
    · exact Nat.lt_succ_self m
    · exact (h.lt x hx).trans (Nat.lt_succ_self m)

/-- Where no number occurs twice the popped node is strictly the least (R243). -/
theorem NumberedBelow.popMin_lt {m : Nat} {q rest : List HuffTree} {a : HuffTree} (hq : NumberedBelow m q)
    (h : popMin q = some (a, rest)) : ∀ x ∈ rest, NodeLess a x := fun x hx =>
  have hfresh : treeSeq a ∉ rest.map treeSeq := (List.nodup_cons.mp (hq.perm (popMin_perm h)).nodup).1
  nodeLess_of_not (popMin_least h x hx) fun hseq => hfresh (hseq ▸ List.mem_map_of_mem hx)

/-- The loop of R245 merges as the relation says. -/
theorem mergeAll_merges {fuel m : Nat} {q : List HuffTree} {root : HuffTree} (hq : NumberedBelow m q)
    (h : mergeAll fuel m q = some root) : Merges m q root := by
  induction fuel generalizing m q with
  | zero => cases h
  | succ fuel ih =>
    rw [mergeAll] at h
    split at h
    next => cases h
    next a q1 hpop =>
      have hq1 : NumberedBelow m q1 := (hq.perm (popMin_perm hpop)).tail
      split at h
      next hnone =>
        cases h
        have hperm := popMin_perm hpop
        rw [popMin_eq_none hnone] at hperm
        exact List.singleton_perm.mp hperm ▸ .root m root
      next b q2 hpop1 =>
        have hperm1 : (b :: q2).Perm q1 := popMin_perm hpop1
        refine .merge m q q2 a b root ((hperm1.cons a).trans (popMin_perm hpop)) (fun x hx => ?_)
          (hq1.popMin_lt hpop1) (ih ((hq1.perm hperm1).tail.merged a b) h)
        exact hq.popMin_lt hpop x (hperm1.mem_iff.mp hx)

/-- Merging keeps the sum of the frequencies (R245). -/
theorem Merges.treeFreq_eq {m : Nat} {q : List HuffTree} {root : HuffTree} (h : Merges m q root) :
    treeFreq root = (q.map treeFreq).sum := by
  induction h with
  | root m a => simp
  | merge m q rest a b root hperm ha hb hmerge ih =>
    rw [ih, ← (hperm.map treeFreq).sum_eq]
    simp [treeFreq, Nat.add_assoc]

/-! ### The ranked leaves (R244) -/

theorem leavesFrom_eq (r : Nat) (t : List (Byte × Nat)) :
    leavesFrom r t = (t.zipIdx r).map fun e => .leaf e.1.2 e.2 e.1.1 := by
  induction t generalizing r with
  | nil => rfl
  | cons e t ih => rw [leavesFrom, ih, List.zipIdx_cons, List.map_cons]

theorem tableLeaves_seq (t : List (Byte × Nat)) : (tableLeaves t).map treeSeq = List.range t.length := by
  rw [tableLeaves, List.map_map, List.range_eq_range', ← List.zipIdx_map_snd 0 t]
  rfl

theorem tableLeaves_freq (t : List (Byte × Nat)) : (tableLeaves t).map treeFreq = t.map Prod.snd := by
  have hfst := congrArg (List.map Prod.snd) (List.zipIdx_map_fst 0 t)
  rw [List.map_map] at hfst
  rw [tableLeaves, List.map_map]
  exact hfst

theorem tableLeaves_numberedBelow (t : List (Byte × Nat)) : NumberedBelow t.length (tableLeaves t) := by
  refine ⟨tableLeaves_seq t ▸ List.nodup_range, fun x hx => List.mem_range.mp ?_⟩
  exact tableLeaves_seq t ▸ List.mem_map_of_mem hx

/-- The tree of a table is made by merging its ranked leaves (R244, R245). -/
theorem buildTree_merges {t : List (Byte × Nat)} {root : HuffTree} (h : buildTree t = some root) :
    Merges t.length (tableLeaves t) root := by
  rw [buildTree, leavesFrom_eq] at h
  exact mergeAll_merges (tableLeaves_numberedBelow t) h

/-! ### The codes (R42, R247, R248) -/

/-- A path leads to its leaf (R248). -/
theorem leafAt_of_mem_treePaths {t : HuffTree} {e : Byte × List Bool} (he : e ∈ treePaths t) :
    leafAt t e.2 = some e.1 := by
  induction t generalizing e with
  | leaf f q b => rw [List.mem_singleton.mp he]; rfl
  | node f q left right ihl ihr =>
    simp only [treePaths, List.mem_append, List.mem_map] at he
    obtain ⟨p, hp, rfl⟩ | ⟨p, hp, rfl⟩ := he
    · exact ihl hp
    · exact ihr hp

theorem treeSymbols_length_pos (t : HuffTree) : 0 < (treeSymbols t).length := by
  induction t with
  | leaf f q b => exact Nat.one_pos
  | node f q left right ihl _ => rw [treeSymbols_node, List.length_append]; omega

/-- A path has fewer edges than the tree has leaves: each edge leaves at least one leaf aside (R248). -/
theorem length_lt_of_mem_treePaths {t : HuffTree} {e : Byte × List Bool} (he : e ∈ treePaths t) :
    e.2.length < (treeSymbols t).length := by
  induction t generalizing e with
  | leaf f q b => rw [List.mem_singleton.mp he]; exact Nat.one_pos
  | node f q left right ihl ihr =>
    have hleft := treeSymbols_length_pos left
    have hright := treeSymbols_length_pos right
    simp only [treePaths, List.mem_append, List.mem_map] at he
    rw [treeSymbols_node, List.length_append]
    obtain ⟨p, hp, rfl⟩ | ⟨p, hp, rfl⟩ := he
    · have := ihl hp
      rw [List.length_cons]
      omega
    · have := ihr hp
      rw [List.length_cons]
      omega

/-- Where the tree has two leaves or more, the code of a byte is the path to its leaf and has a bit (R248). -/
theorem codeTable_path {root : HuffTree} (h : 2 ≤ (treeSymbols root).length) {e : Byte × List Bool}
    (he : e ∈ codeTable root) : e ∈ treePaths root ∧ 1 ≤ e.2.length := by
  cases root with
  | leaf f q b => exact absurd h (by simp)
  | node f q left right =>
    refine ⟨he, ?_⟩
    simp only [codeTable, treePaths, List.mem_append, List.mem_map] at he
    obtain ⟨p, -, rfl⟩ | ⟨p, -, rfl⟩ := he <;> exact Nat.succ_pos _

/-- Where no byte stands twice, looking a byte up answers its entry (R42). -/
theorem codeOf_eq_of_mem {codes : List (Byte × List Bool)} (hnodup : (codes.map Prod.fst).Nodup)
    {e : Byte × List Bool} (he : e ∈ codes) : codeOf codes e.1 = e.2 :=
  congrArg Prod.snd (List.inj_on_of_nodup_map hnodup (codeOf_mem (List.mem_map_of_mem he)) he rfl)

/-- Settles O52: the merging loop keeps its nodes numbered apart, so that each popped node is strictly the least;
the codes are the paths of the tree it makes, whose leaves are the table's bytes. -/
theorem huffmanTreeCodesTheTable : Obligations.HuffmanTreeCodesTheTable := by
  refine ⟨fun q rest a h => ⟨popMin_perm h, fun b hb => not_nodeLess_iff.mp (popMin_least h b hb)⟩, fun t ht hne => ?_⟩
  obtain ⟨root, hroot, hperm⟩ := buildTree_symbols hne
  have hmerges := buildTree_merges hroot
  have hleaves : (treeSymbols root).length = t.length := by
    rw [← codeTable_fst, hperm.length_eq, List.length_map]
  refine ⟨root, hroot, hmerges, by rw [hmerges.treeFreq_eq, tableLeaves_freq], hperm,
    fun e he => ?_, fun e he e' he' hpre => codeTable_prefixFree he he' hpre⟩
  have hcode : codeOf (codeTable root) e.1 = e.2 := codeOf_eq_of_mem (hperm.nodup_iff.mpr ht.nodup) he
  refine ⟨hcode, fun hone => ?_, fun htwo => ?_⟩
  · obtain ⟨x, hx, hbyte⟩ := List.mem_map.mp (hperm.mem_iff.mp (List.mem_map_of_mem he))
    rw [← hcode, ← huffCode_eq hroot, ← hbyte, huffCode_single hone hx]
  · obtain ⟨hpath, hpos⟩ := codeTable_path (hleaves ▸ htwo) he
    have hshort := length_lt_of_mem_treePaths hpath
    exact ⟨leafAt_of_mem_treePaths hpath, hpos, by omega⟩

end Sys2Proof.Machine
end

section
/-! SUPPORT. The streams of `GR.ENC` (O54, R281, R282) and `BP.ENC` (O56, R291, R292) with the values they refuse, and
what `BP.DEC` answers on every input (O57, R295). -/

namespace Sys2Proof.Machine

/-! ### The domain of GR (R281) -/

theorem grValues_refuses {vs : List Word64} (k : Sink) (h : ∃ v ∈ vs, v.toInt < 0 ∨ (grMax : Int) < v.toInt) :
    grValues k vs = .error .unsupportedValue := by
  induction vs generalizing k with
  | nil => simp at h
  | cons v vs ih =>
    rw [grValues]
    split
    · rfl
    next hv => exact ih _ (((List.exists_mem_cons_iff _ v vs).mp h).resolve_left hv)

theorem grValues_accepts {vs : List Word64} (k : Sink) (h : ∀ v ∈ vs, 0 ≤ v.toInt ∧ v.toInt ≤ (grMax : Int)) :
    ∃ k', grValues k vs = .ok k' := by
  induction vs generalizing k with
  | nil => exact ⟨k, rfl⟩
  | cons v vs ih =>
    obtain ⟨⟨h0, hmax⟩, hvs⟩ := List.forall_mem_cons.mp h
    rw [grValues, if_neg (by omega)]
    exact ih _ hvs

theorem grEnc_refuses {vs : List Word64} (h : ∃ v ∈ vs, v.toInt < 0 ∨ (grMax : Int) < v.toInt) :
    grEnc (bytesOf64 vs) = .error .unsupportedValue := by
  rw [grEnc, withColumn64_bytesOf64, grValues_refuses _ h, except_error_bind]

theorem grEnc_accepts {vs : List Word64} (h : ∀ v ∈ vs, 0 ≤ v.toInt ∧ v.toInt ≤ (grMax : Int)) :
    ∃ out, grEnc (bytesOf64 vs) = .ok out := by
  obtain ⟨k, hk⟩ := grValues_accepts (Sink.empty.writeBits (BitVec.ofNat 64 vs.length) 32) h
  exact ⟨k.finish, by rw [grEnc, withColumn64_bytesOf64, hk, except_ok_bind]⟩

/-- Settles O54: the values are checked one by one, and where all pass, what the sink holds is the stream. -/
theorem grEncWritesTheStreamOnItsDomain : Obligations.GrEncWritesTheStreamOnItsDomain := by
  intro s vs hc hi hinp
  refine ⟨fun hbad => codec_fails (i := .grEnc) rfl hi (hinp ▸ grEnc_refuses hbad), fun hdom hfit => ?_⟩
  obtain ⟨out, hout⟩ := grEnc_accepts hdom
  obtain ⟨-, hlay⟩ := grEnc_ok hout
  obtain ⟨t, ht, hdel⟩ := codec_delivers (i := .grEnc) rfl hc hi (hinp ▸ hout) (hlay.length_le hfit)
  exact ⟨t, out, ht, hdel, hlay⟩

/-! ### The width of BP (R291, R292) -/

theorem bpMax_refuses {vs : List Word64} (m : Word64) (h : ∃ v ∈ vs, v.toInt < 0) :
    bpMax m vs = .error .unsupportedValue := by
  induction vs generalizing m with
  | nil => simp at h
  | cons v vs ih =>
    rw [bpMax]
    split
    · rfl
    next hv => exact ih _ (((List.exists_mem_cons_iff _ v vs).mp h).resolve_left hv)

/-- On elements that are not negative the first pass answers its start value or one of the elements. -/
theorem bpMax_accepts {vs : List Word64} (m : Word64) (h : ∀ v ∈ vs, 0 ≤ v.toInt) :
    ∃ m', bpMax m vs = .ok m' ∧ m' ∈ m :: vs := by
  induction vs generalizing m with
  | nil => exact ⟨m, rfl, List.mem_cons_self⟩
  | cons v vs ih =>
    obtain ⟨hv, hvs⟩ := List.forall_mem_cons.mp h
    obtain ⟨m', hm', hmem⟩ := ih (if m.toInt < v.toInt then v else m) hvs
    refine ⟨m', by rw [bpMax, if_neg (by omega), hm'], ?_⟩
    split at hmem
    · exact List.mem_cons_of_mem _ hmem
    · exact List.cons_subset_cons m (List.subset_cons_self v vs) hmem

/-- The width of a value is the least one, at least 1, that holds it (R291). -/
theorem bpWidth_eq {m : Word64} {w : Nat} (hw : 1 ≤ w) (hm : m.toNat < 2 ^ w)
    (hleast : w = 1 ∨ 2 ^ (w - 1) ≤ m.toNat) : bpWidth m = w := by
  have hle : bitlen64 m ≤ w := bitlen64_le hm
  obtain rfl | hlow := hleast
  · exact Nat.max_eq_left hle
  · have hlt : w - 1 < bitlen64 m :=
      (Nat.pow_lt_pow_iff_right (by decide : 1 < 2)).mp (hlow.trans_lt (lt_two_pow_bitlen64 m))
    rw [bpWidth]
    omega

/-- The first pass finds an element of the least width that holds them all (R292). -/
theorem bpMax_width {vs : List Word64} {w : Nat} (hnonneg : ∀ v ∈ vs, 0 ≤ v.toInt) (hw : 1 ≤ w)
    (hall : ∀ v ∈ vs, v.toNat < 2 ^ w) (hleast : w = 1 ∨ ∃ v ∈ vs, 2 ^ (w - 1) ≤ v.toNat) :
    ∃ m, bpMax 0 vs = .ok m ∧ bpWidth m = w := by
  obtain ⟨m, hm, hmem⟩ := bpMax_accepts 0 hnonneg
  obtain ⟨-, -, hmax⟩ := bpMax_ok hm (by decide)
  refine ⟨m, hm, bpWidth_eq hw ?_ (hleast.imp_right ?_)⟩
  · obtain rfl | hin := List.mem_cons.mp hmem
    · exact Nat.two_pow_pos w
    · exact hall m hin
  · rintro ⟨v, hv, hlow⟩
    exact hlow.trans (hmax v hv)

theorem bpEnc_refuses {vs : List Word64} (h : ∃ v ∈ vs, v.toInt < 0) :
    bpEnc (bytesOf64 vs) = .error .unsupportedValue := by
  rw [bpEnc, withColumn64_bytesOf64, bpMax_refuses 0 h, except_error_bind]

/-- The second pass lays out the stream with the width of the largest element (R119, R292). -/
theorem bpEnc_laysOut {vs : List Word64} {m : Word64} (h : bpMax 0 vs = .ok m) :
    ∃ out, bpEnc (bytesOf64 vs) = .ok out ∧ LaysOut out (bpBits (bpWidth m) vs) := by
  rw [bpEnc, withColumn64_bytesOf64, h, except_ok_bind]
  exact ⟨_, rfl, (bpBody_holds _ vs ((Holds.empty.writeBits _ _).writeBits _ _)).laysOut⟩

/-- Settles O56: the first pass refuses a negative element and else finds an element whose width is the least one. -/
theorem bpEncPacksWithTheLeastWidth : Obligations.BpEncPacksWithTheLeastWidth := by
  intro s vs hc hi hinp
  refine ⟨fun hneg => codec_fails (i := .bpEnc) rfl hi (hinp ▸ bpEnc_refuses hneg),
    fun hnonneg w hw hall hleast hfit => ?_⟩
  obtain ⟨m, hm, rfl⟩ := bpMax_width hnonneg hw hall hleast
  obtain ⟨out, hout, hlay⟩ := bpEnc_laysOut hm
  obtain ⟨t, ht, hdel⟩ := codec_delivers (i := .bpEnc) rfl hc hi (hinp ▸ hout) (hlay.length_le hfit)
  exact ⟨t, out, ht, hdel, hlay⟩

/-! ### Reading BP (R295) -/

section
variable {bs : List Byte} {rest : List Bool} {r : Source}

/-- Reading a field of any bits, where there are enough (R138). -/
theorem Ahead.readField_drop {n : Nat} (h : Ahead bs rest r) (hn : n ≤ 64) (hlen : n ≤ rest.length) :
    ∃ v r', Machine.readField (dataOf bs) n r = .ok (v, r') ∧ Ahead bs (rest.drop n) r' := by
  rw [← List.take_append_drop n rest] at h
  obtain ⟨v, r', hread, -, hr'⟩ := h.readValue (List.length_take_of_le hlen) hn
  exact ⟨v, r', hread, hr'⟩

/-- Reading an 8-bit field laid out as a byte (R62). -/
theorem Ahead.readByte {b : Byte} (h : Ahead bs (byteBits b ++ rest) r) :
    ∃ r', Machine.readField (dataOf bs) 8 r = .ok (b.setWidth 64, r') ∧ Ahead bs rest r' := by
  have hbits : byteBits b = fieldBits (b.setWidth 64) 8 := by simp [byteBits, fieldBits]
  rw [hbits] at h
  exact h.readField (by rw [BitVec.toNat_setWidth_of_le (by decide)]; exact b.isLt)

/-- Fewer bits than `n` fields of width `w` take: some field is cut (R295). -/
theorem bpDecLoop_cut {w : Nat} (hw : w ≤ 64) (n : Nat) (h : Ahead bs rest r) (hlen : rest.length < n * w) :
    bpDecLoop (dataOf bs) w n r = .error .truncatedStream := by
  induction n generalizing rest r with
  | zero => omega
  | succ n ih =>
    rw [bpDecLoop]
    rcases Nat.lt_or_ge rest.length w with hcut | hwhole
    · rw [h.readField_cut hcut, except_error_bind]
    · obtain ⟨v, r', hread, hr'⟩ := h.readField_drop hw hwhole
      rw [Nat.succ_mul] at hlen
      have hmore := ih hr' (by rw [List.length_drop]; omega)
      simp only [hread, hmore, except_ok_bind, except_error_bind]

end

theorem bpDec_cut {inp : List Byte} (h : inp.length < 5) : bpDec inp = .error .truncatedStream := by
  have hahead := ahead_open inp
  have hbits := bitsOf_length inp
  rw [bpDec]
  rcases Nat.lt_or_ge (bitsOf inp).length 32 with hcut | hwhole
  · rw [hahead.readField_cut hcut, except_error_bind]
  · obtain ⟨n, r, hread, hr⟩ := hahead.readField_drop (by decide) hwhole
    have hcut : readField (dataOf inp) 8 r = .error .truncatedStream :=
      hr.readField_cut (by rw [List.length_drop]; omega)
    simp only [hread, hcut, except_ok_bind, except_error_bind]

/-- After a whole count and a whole width the width decides, then the fields. -/
theorem bpDec_header (n : Word32) (w : Byte) (body : List Byte) :
    ∃ r, bpDec (bytesBe32 n ++ w :: body) = (if w = 0 ∨ 63 < w.toNat then .error .malformedInput else do
      let vs ← bpDecLoop (dataOf (bytesBe32 n ++ w :: body)) w.toNat n.toNat r
      .ok (bytesOf64 vs)) ∧ Ahead (bytesBe32 n ++ w :: body) (bitsOf body) r := by
  have h := ahead_open (bytesBe32 n ++ w :: body)
  rw [bitsOf_append, bitsOf] at h
  obtain ⟨r1, hcount, h1⟩ := h.readWord32
  obtain ⟨r, hwidth, hr⟩ := h1.readByte
  have hnat : (w.setWidth 64).toNat = w.toNat := BitVec.toNat_setWidth_of_le (by decide)
  have hzero : w.setWidth 64 = 0 ↔ w = 0 := by
    rw [BitVec.toNat_eq, hnat, BitVec.toNat_eq]; rfl
  refine ⟨r, ?_, hr⟩
  rw [bpDec, hcount, except_ok_bind]
  simp only [hwidth, except_ok_bind, hnat, hzero, toNat_setWidth64]

/-- Settles O57: the header decides first, then the number of bits after it. -/
theorem bpDecReadsTheFields : Obligations.BpDecReadsTheFields := by
  refine ⟨rfl, fun s hc hi => ⟨fun h5 => codec_fails (i := .bpDec) rfl hi (bpDec_cut (by simpa)),
    fun n w body hinp => ?_⟩⟩
  obtain ⟨r, hrun, hr⟩ := bpDec_header n w body
  rw [← hinp] at hrun hr
  have hlegal (h1 : 1 ≤ w.toNat) (h63 : w.toNat ≤ 63) : ¬(w = 0 ∨ 63 < w.toNat) := by
    rintro (rfl | hlong)
    · exact absurd h1 (by decide)
    · omega
  refine ⟨fun hbad => ?_, fun h1 h63 hshort => ?_, fun h1 h63 vs post hlen hdom hbits hcap => ?_⟩
  · exact codec_fails (i := .bpDec) rfl hi (by rw [hrun, if_pos hbad])
  · have hcut := bpDecLoop_cut (h63.trans (by decide)) n.toNat hr (by rwa [bitsOf_length])
    exact codec_fails (i := .bpDec) rfl hi (by rw [hrun, if_neg (hlegal h1 h63), hcut, except_error_bind])
  · rw [hbits] at hr
    have hread := bpDecLoop_reads vs hr hdom
    rw [hlen] at hread
    exact codec_delivers (i := .bpDec) rfl hc hi (by rw [hrun, if_neg (hlegal h1 h63), hread, except_ok_bind])
      (by rw [bytesOf64_length, hlen]; exact hcap)

end Sys2Proof.Machine
end

section
/-! SUPPORT. RLE: the pairs `RLE.ENC` writes (O58, O60, R311, R315) and what `RLE.DEC` answers on any pairs (O59,
R313). -/

namespace Sys2Proof.Machine

/-! ### The bytes and the expansion of pairs (R120, R313) -/

@[simp] theorem pairBytes_cons (p : Byte × Byte) (ps : List (Byte × Byte)) :
    pairBytes (p :: ps) = p.1 :: p.2 :: pairBytes ps := rfl

@[simp] theorem pairBytes_length (ps : List (Byte × Byte)) : (pairBytes ps).length = 2 * ps.length := by
  induction ps with
  | nil => rfl
  | cons p ps ih => rw [pairBytes_cons, List.length_cons, List.length_cons, ih, List.length_cons]; omega

/-- Each pair's value, repeated as often as its count says (R313). -/
def expandPairs (ps : List (Byte × Byte)) : List Byte := ps.flatMap fun p => List.replicate p.2.toNat p.1

@[simp] theorem expandPairs_cons (p : Byte × Byte) (ps : List (Byte × Byte)) :
    expandPairs (p :: ps) = List.replicate p.2.toNat p.1 ++ expandPairs ps := rfl

theorem expandPairs_length (ps : List (Byte × Byte)) :
    (expandPairs ps).length = (ps.map fun p => p.2.toNat).sum := by
  simp [expandPairs, List.length_flatMap]

theorem rleDec_odd {inp : List Byte} (h : inp.length % 2 ≠ 0) : rleDec inp = .error .truncatedStream := if_pos h

/-- On pairs the parity check passes (R313). -/
theorem rleDec_pairBytes (ps : List (Byte × Byte)) : rleDec (pairBytes ps) = rleExpand (pairBytes ps) :=
  if_neg (by simp)

theorem rleExpand_pairBytes {ps : List (Byte × Byte)} (h : ∀ p ∈ ps, p.2 ≠ 0) :
    rleExpand (pairBytes ps) = .ok (expandPairs ps) := by
  induction ps with
  | nil => rfl
  | cons p ps ih =>
    obtain ⟨hp, hps⟩ := List.forall_mem_cons.mp h
    rw [pairBytes_cons, rleExpand, if_neg hp, ih hps, except_ok_bind, expandPairs_cons]

/-- A count 0 anywhere decides: the pairs before it leave no other failure (R313). -/
theorem rleExpand_zeroCount {ps : List (Byte × Byte)} (h : ∃ p ∈ ps, p.2 = 0) :
    rleExpand (pairBytes ps) = .error .malformedInput := by
  induction ps with
  | nil => simp at h
  | cons p ps ih =>
    rw [pairBytes_cons, rleExpand]
    split
    · rfl
    next hp => rw [ih (((List.exists_mem_cons_iff _ p ps).mp h).resolve_left hp), except_error_bind]

/-- Settles O59: the parity decides first, then the counts, then the length of the expansion. -/
theorem rleDecExpandsThePairs : Obligations.RleDecExpandsThePairs := by
  refine ⟨rfl, fun s hc hi => ⟨fun hodd => codec_fails (i := .rleDec) rfl hi (rleDec_odd (by simpa using hodd)),
    fun ps hinp => ⟨fun hzero => ?_, fun hcounts hfit => ?_⟩⟩⟩
  · exact codec_fails (i := .rleDec) rfl hi (by rw [hinp, rleDec_pairBytes, rleExpand_zeroCount hzero])
  · exact codec_delivers (i := .rleDec) (out := expandPairs ps) rfl hc hi
      (by rw [hinp, rleDec_pairBytes, rleExpand_pairBytes hcounts]) (by rwa [expandPairs_length])

/-! ### One long run (R311) -/

/-- The stream of a run of `n` bytes `b`: full pairs and a pair of the remainder (R311). -/
def splitRun (b : Byte) (n : Nat) : List Byte :=
  (List.replicate (n / 255) [b, 255#8]).flatten ++ if n % 255 = 0 then [] else [b, BitVec.ofNat 8 (n % 255)]

/-- A run that fits one pair is that pair, a full one too. -/
theorem splitRun_of_le {b : Byte} {n : Nat} (h1 : 1 ≤ n) (h2 : n ≤ 255) : splitRun b n = [b, BitVec.ofNat 8 n] := by
  obtain hlt | rfl := Nat.lt_or_eq_of_le h2
  · rw [splitRun, Nat.div_eq_of_lt hlt, Nat.mod_eq_of_lt hlt, if_neg (by omega)]
    rfl
  · rfl

theorem splitRun_full_add (b : Byte) (n : Nat) : splitRun b (255 + n) = b :: 255#8 :: splitRun b n := by
  simp only [splitRun, Nat.add_mod_left, Nat.add_div_left n (by decide : 0 < 255), List.replicate_succ,
    List.flatten_cons, List.cons_append, List.nil_append]

theorem splitRun_length (b : Byte) (n : Nat) : (splitRun b n).length = 2 * ((n + 254) / 255) := by
  rw [splitRun, List.length_append, List.length_flatten, List.map_replicate, List.sum_replicate_nat]
  split <;> simp only [List.length_cons, List.length_nil] <;> omega

/-- A run in progress that goes on for `m` more bytes: a full pair is written and a new run begun at 255. -/
theorem rleRuns_replicate (b : Byte) (m : Nat) {run : Nat} (h1 : 1 ≤ run) (h2 : run ≤ 255) :
    rleRuns b run (List.replicate m b) = splitRun b (run + m) := by
  induction m generalizing run with
  | zero => rw [Nat.add_zero, splitRun_of_le h1 h2]; rfl
  | succ m ih =>
    rw [List.replicate_succ, rleRuns]
    split
    next hgrow => rw [ih (by omega) hgrow.2, Nat.succ_add_eq_add_succ]
    next hfull =>
      obtain rfl : run = 255 := h2.antisymm (Nat.not_lt.mp fun hlt => hfull ⟨rfl, hlt⟩)
      rw [ih (by omega) (by omega), splitRun_full_add, Nat.add_comm 1 m]

theorem rleEnc_replicate (b : Byte) (n : Nat) : rleEnc (List.replicate n b) = .ok (splitRun b n) := by
  cases n with
  | zero => rfl
  | succ m => rw [List.replicate_succ, rleEnc, rleRuns_replicate b m (by decide) (by decide), Nat.add_comm 1 m]

/-- Settles O58: the stream of a run is its split, of two bytes for each begun 255. -/
theorem rleEncSplitsLongRuns : Obligations.RleEncSplitsLongRuns := by
  intro s b n hc hi hinp hfit
  exact codec_delivers (i := .rleEnc) (out := splitRun b n) rfl hc hi (hinp ▸ rleEnc_replicate b n)
    (by rwa [splitRun_length])

/-! ### Maximal pairs (R315) -/

/-- A pair followed by one of the same value is full (R315). -/
def FullBefore (p q : Byte × Byte) : Prop := p.1 = q.1 → p.2 = 255

/-- The pairs `rleRuns` writes: the first is of the current byte, none has count 0, and all are maximal. -/
theorem rleRuns_pairs (l : List Byte) (cur : Byte) {run : Nat} (h1 : 1 ≤ run) (h2 : run ≤ 255) :
    ∃ c ps, rleRuns cur run l = pairBytes ((cur, c) :: ps) ∧ (∀ p ∈ (cur, c) :: ps, p.2 ≠ 0) ∧
      ((cur, c) :: ps).IsChain FullBefore := by
  induction l generalizing cur run with
  | nil => exact ⟨_, [], rfl, List.forall_mem_singleton.mpr (runCount_ne_zero h1 h2), .singleton _⟩
  | cons b l ih =>
    rw [rleRuns]
    split
    next hgrow => exact ih cur (by omega) hgrow.2
    next hstop =>
      obtain ⟨c, ps, hbytes, hcounts, hchain⟩ := ih b (run := 1) (by decide) (by decide)
      have hfull : FullBefore (cur, BitVec.ofNat 8 run) (b, c) := fun heq => by
        obtain rfl : run = 255 := h2.antisymm (Nat.not_lt.mp fun hlt => hstop ⟨heq.symm, hlt⟩)
        rfl
      exact ⟨_, (b, c) :: ps, by rw [hbytes]; rfl,
        List.forall_mem_cons.mpr ⟨runCount_ne_zero h1 h2, hcounts⟩, hchain.cons_cons hfull⟩

/-- `RLE.ENC` on any input writes maximal pairs. They expand to the input, because `RLE.DEC` gives it back and
what `RLE.DEC` gives of pairs is their expansion. -/
theorem rleEnc_pairs (inp : List Byte) :
    ∃ ps, rleEnc inp = .ok (pairBytes ps) ∧ (∀ p ∈ ps, p.2 ≠ 0) ∧ ps.IsChain FullBefore ∧ expandPairs ps = inp := by
  have hpairs : ∃ ps, rleEnc inp = .ok (pairBytes ps) ∧ (∀ p ∈ ps, p.2 ≠ 0) ∧ ps.IsChain FullBefore := by
    cases inp with
    | nil => exact ⟨[], rfl, List.forall_mem_nil _, .nil⟩
    | cons b l =>
      obtain ⟨c, ps, hbytes, hcounts, hchain⟩ := rleRuns_pairs l b (run := 1) (by decide) (by decide)
      exact ⟨_, by rw [rleEnc, hbytes], hcounts, hchain⟩
  obtain ⟨ps, henc, hcounts, hchain⟩ := hpairs
  have hback := rle_roundTrip henc
  rw [rleDec_pairBytes, rleExpand_pairBytes hcounts] at hback
  exact ⟨ps, henc, hcounts, hchain, Except.ok.inj hback⟩

theorem fullBefore_of_isChain {ps : List (Byte × Byte)} (h : ps.IsChain FullBefore) {j : Nat} {p q : Byte × Byte}
    (hp : ps[j]? = some p) (hq : ps[j + 1]? = some q) : FullBefore p q := by
  obtain ⟨hj, rfl⟩ := List.getElem?_eq_some_iff.mp hq
  obtain ⟨_, rfl⟩ := List.getElem?_eq_some_iff.mp hp
  exact h.getElem j hj

/-- Settles O60: the pairs are those `RLE.ENC` writes, and `RLE.DEC` expands them. -/
theorem rleRoundTrip : Obligations.RleRoundTrip := by
  intro s hc hi
  obtain ⟨ps, henc, hcounts, hchain, hexpand⟩ := rleEnc_pairs (inputBytes s)
  refine ⟨ps, hcounts, fun j p q hp hq => fullBefore_of_isChain hchain hp hq, hexpand, fun hfit => ?_⟩
  have hfit' : (pairBytes ps).length ≤ s.cfg.bufCap := by rwa [pairBytes_length]
  obtain ⟨t, ht, hdel⟩ := codec_delivers (i := .rleEnc) rfl hc hi henc hfit'
  refine ⟨t, ht, hdel, fun s' hcfg hinp' => ?_⟩
  refine codec_delivers (i := .rleDec) rfl (hcfg ▸ hc) ?_ (hinp' ▸ rle_roundTrip henc)
    (by rwa [inputBytes_length, hcfg])
  rwa [← inputBytes_length, hinp', hcfg]

end Sys2Proof.Machine
end

section
/-! SUPPORT. The pipelines: the stages a descriptor names (O33), and the chain of the stages in the order of the
descriptor and in the reverse order (O34, O35). -/

namespace Sys2Proof.Machine

/-! ### The units and their numbers (R97, R329) -/

theorem unitOfNumber_eq_some_iff (n : BitVec 4) (u : CodecUnit) : unitOfNumber n = some u ↔ unitNumber u = n.toNat := by
  revert n
  cases u <;> decide

/-- The numbers of units are 0 to 8 (R97). -/
theorem exists_unitNumber_eq_iff (n : Nat) : (∃ u, unitNumber u = n) ↔ n ≤ 8 := by
  constructor
  · rintro ⟨u, rfl⟩
    cases u <;> decide
  · intro h
    have hsome : ∀ m : BitVec 4, m.toNat ≤ 8 → (unitOfNumber m).isSome = true := by decide
    have hn : (BitVec.ofNat 4 n).toNat = n := Nat.mod_eq_of_lt (by omega)
    obtain ⟨u, hu⟩ := Option.isSome_iff_exists.mp (hsome (BitVec.ofNat 4 n) (by omega))
    exact ⟨u, ((unitOfNumber_eq_some_iff _ u).mp hu).trans hn⟩

/-- Numbers at most 8, in any order, are those of some list of units. -/
theorem exists_map_unitNumber_eq_iff (ns : List Nat) :
    (∃ us : List CodecUnit, us.map unitNumber = ns) ↔ ∀ n ∈ ns, n ≤ 8 := by
  simp only [← exists_unitNumber_eq_iff]
  exact Set.ext_iff.mp (Set.range_list_map unitNumber) ns

/-- The words `0x10 + n` and `0x90 + n` are the encoder and the decoder of the unit `n` (R93, R329). -/
theorem unit_commands (u : CodecUnit) :
    ∃ i i', decode (BitVec.ofNat 32 (0x10 + unitNumber u)) = .ok i ∧ codecFunction i = some (unitEnc u)
      ∧ decode (BitVec.ofNat 32 (0x90 + unitNumber u)) = .ok i' ∧ codecFunction i' = some (unitDec u) := by
  cases u with
  | delta => exact ⟨.deltaEnc, .deltaDec, rfl, rfl, rfl, rfl⟩
  | dod => exact ⟨.dodEnc, .dodDec, rfl, rfl, rfl, rfl⟩
  | dodf => exact ⟨.dodfEnc, .dodfDec, rfl, rfl, rfl, rfl⟩
  | xorf => exact ⟨.xorfEnc, .xorfDec, rfl, rfl, rfl, rfl⟩
  | chimp => exact ⟨.chimpEnc, .chimpDec, rfl, rfl, rfl, rfl⟩
  | huff => exact ⟨.huffEnc, .huffDec, rfl, rfl, rfl, rfl⟩
  | gr => exact ⟨.grEnc, .grDec, rfl, rfl, rfl, rfl⟩
  | bp => exact ⟨.bpEnc, .bpDec, rfl, rfl, rfl, rfl⟩
  | rle => exact ⟨.rleEnc, .rleDec, rfl, rfl, rfl, rfl⟩

/-! ### The stages of a descriptor (R98, R327) -/

/-- The field `S_j` of a descriptor (R98). -/
def stageField (p : Word32) (j : Nat) : Nat := p.toNat / 16 ^ j % 16

/-- A field of a word against a number that fits it. -/
theorem extractLsb'_eq_iff (p : Word32) (start : Nat) {len : Nat} (x : BitVec len) :
    p.extractLsb' start len = x ↔ p.toNat / 2 ^ start % 2 ^ len = x.toNat := by
  rw [← BitVec.toNat_inj, BitVec.extractLsb'_toNat, Nat.shiftRight_eq_div_pow]

theorem reservedField_eq_zero_iff (p : Word32) : p.extractLsb' 14 18 = 0 ↔ p.toNat / 16384 = 0 := by
  have := p.isLt
  rw [extractLsb'_eq_iff, BitVec.ofNat_eq_ofNat, BitVec.toNat_zero]
  omega

theorem countField_eq_iff (p : Word32) (n : BitVec 2) : p.extractLsb' 12 2 = n ↔ p.toNat / 4096 % 4 = n.toNat :=
  extractLsb'_eq_iff p 12 n

theorem lastField_eq_zero_iff (p : Word32) : p.extractLsb' 8 4 = 0 ↔ stageField p 2 = 0 := extractLsb'_eq_iff p 8 0

theorem unitOfNumber_field {p : Word32} {start j : Nat} (hstart : start = 4 * j) (u : CodecUnit) :
    unitOfNumber (p.extractLsb' start 4) = some u ↔ unitNumber u = stageField p j := by
  rw [unitOfNumber_eq_some_iff, BitVec.extractLsb'_toNat, Nat.shiftRight_eq_div_pow, hstart, pow_mul]
  rfl

/-- The stages by number are the fields `S_0` to `S_(NST-1)`, of a descriptor whose other bits are 0
(R98, R327). -/
def StagesNamed (p : Word32) (us : List CodecUnit) : Prop :=
  p.toNat / 16384 = 0 ∧ (p.toNat / 4096 % 4 = 2 ∧ stageField p 2 = 0 ∨ p.toNat / 4096 % 4 = 3) ∧
    us.map unitNumber = (List.range (p.toNat / 4096 % 4)).map (stageField p)

theorem stagesNamed_of_pipeStages {p : Word32} {us : List CodecUnit} (h : pipeStages p = some us) : StagesNamed p us := by
  unfold pipeStages at h
  split at h
  · cases h
  next hr =>
    refine ⟨(reservedField_eq_zero_iff p).mp (not_not.mp hr), ?_⟩
    split at h
    next u0 u1 hf0 hf1 =>
      rw [unitOfNumber_field (j := 0) rfl] at hf0
      rw [unitOfNumber_field (j := 1) rfl] at hf1
      split at h
      next hn =>
        split at h
        next hf2 =>
          cases h
          rw [(countField_eq_iff p 2).mp hn]
          exact ⟨.inl ⟨rfl, (lastField_eq_zero_iff p).mp hf2⟩, by simp [List.range_succ, hf0, hf1]⟩
        next => cases h
      next =>
        split at h
        next hn =>
          split at h
          next u2 hf2 =>
            cases h
            rw [unitOfNumber_field (j := 2) rfl] at hf2
            rw [(countField_eq_iff p 3).mp hn]
            exact ⟨.inr rfl, by simp [List.range_succ, hf0, hf1, hf2]⟩
          next => cases h
        next => cases h
    next => cases h

theorem pipeStages_of_stagesNamed {p : Word32} {us : List CodecUnit} (h : StagesNamed p us) : pipeStages p = some us := by
  obtain ⟨hr, hcount, hus⟩ := h
  have hfield {start j : Nat} (hstart : start = 4 * j) {u : CodecUnit} (hu : unitNumber u = stageField p j) :=
    (unitOfNumber_field hstart u).mpr hu
  rw [pipeStages, if_neg (not_not.mpr ((reservedField_eq_zero_iff p).mpr hr))]
  obtain ⟨hn, hf2⟩ | hn := hcount
  · rw [hn] at hus
    obtain ⟨u0, _, rfl, hf0, hrest⟩ := List.map_eq_cons_iff.mp hus
    obtain ⟨u1, _, rfl, hf1, hnil⟩ := List.map_eq_cons_iff.mp hrest
    obtain rfl := List.map_eq_nil_iff.mp hnil
    simp [hfield rfl hf0, hfield rfl hf1, (countField_eq_iff p 2).mpr hn, (lastField_eq_zero_iff p).mpr hf2]
  · rw [hn] at hus
    obtain ⟨u0, _, rfl, hf0, hrest⟩ := List.map_eq_cons_iff.mp hus
    obtain ⟨u1, _, rfl, hf1, hrest⟩ := List.map_eq_cons_iff.mp hrest
    obtain ⟨u2, _, rfl, hf2, hnil⟩ := List.map_eq_cons_iff.mp hrest
    obtain rfl := List.map_eq_nil_iff.mp hnil
    simp [hfield rfl hf0, hfield rfl hf1, hfield rfl hf2, (countField_eq_iff p 3).mpr hn]

theorem pipeStages_eq_some_iff (p : Word32) (us : List CodecUnit) : pipeStages p = some us ↔ StagesNamed p us :=
  ⟨stagesNamed_of_pipeStages, pipeStages_of_stagesNamed⟩

theorem pipeStages_length_eq {p : Word32} {us : List CodecUnit} (h : pipeStages p = some us) :
    us.length = p.toNat / 4096 % 4 := by
  obtain ⟨-, -, hus⟩ := stagesNamed_of_pipeStages h
  simpa using congrArg List.length hus

/-- Stage `j` is the unit that the field `S_j` names (R97, R98). -/
theorem pipeStages_getElem {p : Word32} {us : List CodecUnit} (h : pipeStages p = some us) {j : Nat} {u : CodecUnit}
    (hj : us[j]? = some u) : unitNumber u = stageField p j := by
  obtain ⟨-, -, hus⟩ := stagesNamed_of_pipeStages h
  have hlt : j < p.toNat / 4096 % 4 := pipeStages_length_eq h ▸ (List.getElem?_eq_some_iff.mp hj).1
  simpa [hj, List.getElem?_range hlt] using congrArg (·[j]?) hus

/-- The legal descriptors are those the engine finds stages in (R327). -/
theorem legalDescriptor_iff (p : Word32) : legalDescriptor p ↔ ∃ us, pipeStages p = some us := by
  simp only [pipeStages_eq_some_iff, StagesNamed, exists_and_left, exists_map_unitNumber_eq_iff,
    List.forall_mem_map, List.mem_range]
  have hf0 : p.toNat % 16 = stageField p 0 := by rw [stageField, pow_zero, Nat.div_one]
  have hf1 : p.toNat / 16 % 16 = stageField p 1 := by rw [stageField, pow_one]
  have hf2 : p.toNat / 256 % 16 = stageField p 2 := rfl
  rw [legalDescriptor, hf0, hf1, hf2]
  constructor
  · rintro ⟨hr, h0, h1, ⟨hn, hz⟩ | ⟨hn, h2⟩⟩
    · refine ⟨hr, .inl ⟨hn, hz⟩, fun j hj => ?_⟩
      rw [hn] at hj
      interval_cases j
      exacts [h0, h1]
    · refine ⟨hr, .inr hn, fun j hj => ?_⟩
      rw [hn] at hj
      interval_cases j
      exacts [h0, h1, h2]
  · rintro ⟨hr, ⟨hn, hz⟩ | hn, hle⟩
    · exact ⟨hr, hle 0 (by omega), hle 1 (by omega), .inl ⟨hn, hz⟩⟩
    · exact ⟨hr, hle 0 (by omega), hle 1 (by omega), .inr ⟨hn, hle 2 (by omega)⟩⟩

/-- Settles O33: a descriptor is legal exactly when the engine finds stages in it, and without stages both pipeline
commands are illegal. -/
theorem descriptorCheck : Obligations.DescriptorCheck := by
  refine ⟨fun p => ?_, fun p us h j u hj => pipeStages_getElem h hj, unit_commands, fun i s hi _ hillegal => ?_⟩
  · rw [legalDescriptor_iff]
    exact exists_congr fun us => ⟨fun h => ⟨h, pipeStages_length_eq h⟩, fun h => h.1⟩
  · have hnone : pipeStages s.pipe = none :=
      Option.eq_none_iff_forall_ne_some.mpr fun us h => hillegal ((legalDescriptor_iff _).mpr ⟨us, h⟩)
    refine ⟨illegalCommand s, ?_, illegalCommand_failedPlain s⟩
    obtain rfl | rfl := hi
    · exact congrArg _ (pipeCommand_illegal _ hnone)
    · exact congrArg _ (pipeCommand_illegal _ hnone)

/-! ### Chains of stages (R330, R331, R356) -/

section
variable {f : CodecUnit → List Byte → Except Failure (List Byte)} {cap : Nat}

/-- The last result of a chain fits the capacity, as every result of it does. -/
theorem Chain.length_le {us : List CodecUnit} {b out : List Byte} (h : Chain f cap us b out) (hb : b.length ≤ cap) :
    out.length ≤ cap := by
  induction h with
  | done b => exact hb
  | stage u us b r out _ hr _ ih => exact ih hr

/-- The loop over the stages of a chain gives the chain's result, whatever positions the stages carry. -/
theorem Chain.runStages_eq {l : List (CodecUnit × Nat)} {b out : List Byte} (h : Chain f cap (l.map Prod.fst) b out) :
    runStages cap f l b = .ok out := by
  induction l generalizing b with
  | nil => cases h; rfl
  | cons p l ih =>
    cases h with
    | stage _ _ _ r _ hu hr hrest => exact (runStages_cons_ok p.2 l hu hr).trans (ih hrest)

end

section
variable {f : CodecUnit → List Byte → Except Failure (List Byte)} {s : State}
  {g : List CodecUnit → List Byte → Except (Failure × BitVec 2) (List Byte)} {us : List CodecUnit}

/-- A pipeline whose stages, in the order in which it runs them, are a chain delivers its result (R330, R331). -/
theorem pipeCommand_delivers_chain {l : List (CodecUnit × Nat)} {out : List Byte} (hc : s.cfg.ok = true)
    (hi : s.ilen.toNat ≤ s.cfg.bufCap) (hp : pipeStages s.pipe = some us) (hg : g us = runStages s.cfg.bufCap f l)
    (h : Chain f s.cfg.bufCap (l.map Prod.fst) (inputBytes s) out) : Delivered out s (pipeCommand g s) :=
  pipeCommand_delivers hc hi hp (by rw [hg, h.runStages_eq]) (h.length_le (by rwa [inputBytes_length]))

/-- A pipeline fails at the first stage that fails, or whose result does not fit, and names its position (R356). -/
theorem pipeCommand_fails_at {l l' : List (CodecUnit × Nat)} {u : CodecUnit} {st : Nat} {b : List Byte}
    (hi : s.ilen.toNat ≤ s.cfg.bufCap) (hp : pipeStages s.pipe = some us)
    (hg : g us = runStages s.cfg.bufCap f (l ++ (u, st) :: l'))
    (h : Chain f s.cfg.bufCap (l.map Prod.fst) (inputBytes s) b) :
    (∀ e, f u b = .error e → FailedClass1 e (BitVec.ofNat 2 st) s (pipeCommand g s)) ∧
    (∀ r, f u b = .ok r → s.cfg.bufCap < r.length →
      FailedClass1 .resourceExhausted (BitVec.ofNat 2 st) s (pipeCommand g s)) := by
  rw [pipeCommand_of_fits g hi hp, hg, runStages_append _ h.runStages_eq]
  constructor
  · intro e he
    rw [runStages_cons_error st l' he]
    exact failClass1_failed e _ s
  · intro r hr hlong
    rw [runStages_cons_long st l' hr hlong]
    exact failClass1_failed _ _ s

end

/-- A stage carries the number of the stages before it as its position. -/
theorem zipIdx_split (us1 : List CodecUnit) (u : CodecUnit) (us2 : List CodecUnit) :
    (us1 ++ u :: us2).zipIdx = us1.zipIdx ++ (u, us1.length) :: us2.zipIdx (us1.length + 1) := by
  rw [List.zipIdx_append, List.zipIdx_cons, Nat.zero_add]

/-- Settles O34: the stages run in the order of the descriptor. -/
theorem pipeEncChainsTheEncoders : Obligations.PipeEncChainsTheEncoders := by
  refine fun s us hc hi hp => ⟨fun out h => ?_, fun us1 u us2 b hus h => ?_⟩
  · exact ⟨_, rfl, pipeCommand_delivers_chain hc hi hp rfl (by rwa [List.zipIdx_map_fst])⟩
  · have hg : pipeEncode s.cfg.bufCap us = runStages s.cfg.bufCap unitEnc
        (us1.zipIdx ++ (u, us1.length) :: us2.zipIdx (us1.length + 1)) := by
      rw [pipeEncode, hus, zipIdx_split]
    obtain ⟨herror, hlong⟩ := pipeCommand_fails_at hi hp hg (by rwa [List.zipIdx_map_fst])
    exact ⟨fun e he => ⟨_, rfl, herror e he⟩, fun r hr hcap => ⟨_, rfl, hlong r hr hcap⟩⟩

/-- Settles O35: the stages run in the reverse order, each with its position in the descriptor. -/
theorem pipeDecChainsTheDecodersBackwards : Obligations.PipeDecChainsTheDecodersBackwards := by
  refine fun s us hc hi hp => ⟨fun out h => ?_, fun us1 u us2 b hus h => ?_⟩
  · exact ⟨_, rfl, pipeCommand_delivers_chain hc hi hp rfl (by rwa [List.map_reverse, List.zipIdx_map_fst])⟩
  · have hg : pipeDecode s.cfg.bufCap us = runStages s.cfg.bufCap unitDec
        ((us2.zipIdx (us1.length + 1)).reverse ++ (u, us1.length) :: us1.zipIdx.reverse) := by
      rw [pipeDecode, hus, zipIdx_split, List.reverse_append, List.reverse_cons, List.append_assoc, List.singleton_append]
    obtain ⟨herror, hlong⟩ := pipeCommand_fails_at hi hp hg (by rwa [List.map_reverse, List.zipIdx_map_fst])
    exact ⟨fun e he => ⟨_, rfl, herror e he⟩, fun r hr hcap => ⟨_, rfl, hlong r hr hcap⟩⟩

end Sys2Proof.Machine
end

section
/-! SUPPORT. Completion as such: every command and every word completes, and a step stops only at a buffer index that
does not exist (O18); and the two outcomes of the 18 codec commands, stated for all of them (O29, O30). -/

namespace Sys2Proof.Machine

/-! ### A step stops only at a buffer index that does not exist (R31, R361, R394) -/

theorem Completes.done_and_idle {s t : State} (h : Completes s t) : t.done = true ∧ busy t = false := by
  obtain ⟨-, c, st, hflags⟩ := h
  exact ⟨hflags.done, hflags.idle⟩

/-- Every word that `CMD` can hold runs to completion, a word that is no command with `IllegalCommand` (R91, R361). -/
theorem runWord_next (w : Word32) (s : State) : ∃ t, runWord w s = .next t := by
  cases hd : decode w with
  | error e => exact ⟨_, runWord_error s hd⟩
  | ok i =>
    obtain ⟨t, ht, -⟩ := exec_completes i s
    exact ⟨t, (runWord_ok s hd).trans ht⟩

theorem writeCmd_next (w : Word32) (k : Nat) (s : State) : ∃ t, writeCmd w k s = .next t := by
  unfold writeCmd
  split
  · exact ⟨s, rfl⟩
  · cases k with
    | zero => exact runWord_next w _
    | succ k => exact ⟨_, rfl⟩

theorem writeIbuf_next {s : State} {idx : Nat} (b : Byte) (h : idx < s.cfg.bufCap) :
    ∃ t, writeIbuf idx b s = .next t := by
  rw [writeIbuf, if_neg (Nat.not_le.mpr h)]
  split <;> exact ⟨_, rfl⟩

/-- The accesses to a byte of a buffer at or above `cap` (R31). -/
def OutOfRange (cap : Nat) (e : HostEvent) : Prop :=
  ∃ idx b, cap ≤ idx ∧ (e = .writeIbuf idx b ∨ e = .readIbuf idx ∨ e = .readObuf idx)

/-- The engine answers every access of the host but those to a buffer index that does not exist (R31). -/
theorem hostEvent_next_or_outOfRange (e : HostEvent) (s : State) :
    (∃ t, hostEvent e s = .next t) ∨ OutOfRange s.cfg.bufCap e := by
  cases e with
  | writeCmd w k => exact .inl (writeCmd_next w k s)
  | writeReg num v =>
    by_cases hnum : num = 0
    · simpa only [hostEvent, if_pos hnum] using .inl (writeCmd_next _ 0 s)
    · exact .inl ⟨_, hostEvent_writeReg v s hnum⟩
  | readReg num => exact .inl ⟨_, rfl⟩
  | writeIbuf idx b =>
    obtain hidx | hidx := Nat.lt_or_ge idx s.cfg.bufCap
    · exact .inl (writeIbuf_next b hidx)
    · exact .inr ⟨idx, b, hidx, .inl rfl⟩
  | readIbuf idx =>
    obtain hidx | hidx := Nat.lt_or_ge idx s.cfg.bufCap
    · exact .inl ⟨_, if_neg (Nat.not_le.mpr hidx)⟩
    · exact .inr ⟨idx, 0, hidx, .inr (.inl rfl)⟩
  | readObuf idx =>
    obtain hidx | hidx := Nat.lt_or_ge idx s.cfg.bufCap
    · exact .inl ⟨_, if_neg (Nat.not_le.mpr hidx)⟩
    · exact .inr ⟨idx, 0, hidx, .inr (.inr rfl)⟩
  | reset => exact .inl ⟨_, rfl⟩

/-- Settles O18: of the three cases of a step, a completion and a step without an access always answer. -/
theorem everyCommandCompletes : Obligations.EveryCommandCompletes := by
  refine ⟨fun i s => ?_, fun s => ?_⟩
  · obtain ⟨t, ht, hcompletes⟩ := exec_completes i s
    exact ⟨t, ht, hcompletes.done_and_idle⟩
  · obtain ⟨rest, e, hin, -, hstep⟩ | ⟨-, -, hstep⟩ | ⟨-, hstep⟩ := step_cases s
    · obtain hnext | ⟨idx, b, hidx, he⟩ := hostEvent_next_or_outOfRange e
        { s with busyFor := s.busyFor.map (· - 1), inputs := rest }
      · exact .inl (hstep ▸ hnext)
      · exact .inr ⟨idx, b, rest, hidx, by simpa only [hin, List.cons.injEq, and_true] using he⟩
    · exact .inl ⟨_, hstep⟩
    · exact .inl (hstep ▸ runWord_next _ _)

/-! ### The outcomes of a codec command (R353, R355, R356) -/

/-- A result that is too long is refused whatever the capacity is, an inadmissible one too (R353). -/
theorem codecCommand_resultTooLong {f : List Byte → Except Failure (List Byte)} {s : State} {out : List Byte}
    (hi : s.ilen.toNat ≤ s.cfg.bufCap) (hout : f (inputBytes s) = .ok out) (hlen : s.cfg.bufCap < out.length) :
    FailedClass1 .resourceExhausted 0 s (codecCommand f s) := by
  have hfail : codecCommand f s = failClass1 .resourceExhausted 0 (destroySessions (accepted s)) := by
    rw [codecCommand_of_fits f hi, hout]
    exact if_pos hlen
  rw [hfail]
  exact failClass1_failed _ _ s

/-- Settles O29. -/
theorem codecSuccessDeliversTheResult : Obligations.CodecSuccessDeliversTheResult :=
  fun _ _ _ _ hf hc hi hout hlen => codec_delivers hf hc hi hout hlen

/-- Settles O30. -/
theorem codecFailureLeavesNoOutput : Obligations.CodecFailureLeavesNoOutput :=
  fun _ _ s hf hi => ⟨fun _ herr => codec_fails hf hi herr,
    fun _ hout hlen => ⟨_, exec_codecFunction s hf, codecCommand_resultTooLong hi hout hlen⟩⟩

end Sys2Proof.Machine
end

section
/-! SUPPORT. A command in flight: its completion is the atomic step however long `BUSY` is seen (O6), and the host's
accesses until then change no operand and no result (O7). -/

namespace Sys2Proof.Machine

/-! ### What acceptance does to the state is done again at completion (R71, R354, R396) -/

/-- Every command clears the flags that its acceptance clears before it does anything else, and reads none of them. -/
theorem exec_accepted (i : Instr) (s : State) : exec i (accepted s) = exec i s := by
  cases i <;> rfl

theorem runWord_accepted (w : Word32) (s : State) : runWord w (accepted s) = runWord w s := by
  cases hd : decode w with
  | error e => rw [runWord_error _ hd, runWord_error _ hd]; rfl
  | ok i => rw [runWord_ok _ hd, runWord_ok _ hd, exec_accepted]

/-- The words that end the sessions at their acceptance: class 1, and turned away by neither check of R354. -/
theorem startDestroys_eq_true {w : Word32} {s : State} (h : startDestroys w s = true) :
    ∃ i, decode w = .ok i ∧ isClass1 i = true ∧ s.ilen.toNat ≤ s.cfg.bufCap ∧
      (isPipe i = true → ∃ us, pipeStages s.pipe = some us) := by
  unfold startDestroys at h
  split at h
  · cases h
  next i hd =>
    simp only [Bool.and_eq_true, Bool.or_eq_true, Bool.not_eq_true', inputTooLong, decide_eq_false_iff_not, Nat.not_lt,
      Option.isSome_iff_exists] at h
    obtain ⟨⟨hclass, hfits⟩, hlegal⟩ := h
    exact ⟨i, hd, hclass, hfits, fun hpipe => hlegal.resolve_left (by simp [hpipe])⟩

theorem pipeCommand_destroySessions (f : List CodecUnit → List Byte → Except (Failure × BitVec 2) (List Byte))
    {s : State} {us : List CodecUnit} (hfits : s.ilen.toNat ≤ s.cfg.bufCap) (hus : pipeStages s.pipe = some us) :
    pipeCommand f (destroySessions s) = pipeCommand f s := by
  rw [pipeCommand_of_fits f hfits hus, pipeCommand_of_fits (s := destroySessions s) f hfits hus]
  rfl

/-- A word that ends the sessions runs the same without them (R35, R354). -/
theorem runWord_destroySessions {w : Word32} {s : State} (h : startDestroys w s = true) :
    runWord w (destroySessions s) = runWord w s := by
  obtain ⟨i, hd, hclass, hfits, hstages⟩ := startDestroys_eq_true h
  rw [runWord_ok _ hd, runWord_ok _ hd]
  obtain ⟨f, hf⟩ | rfl | rfl := class1_cases hclass
  · rw [exec_codecFunction _ hf, exec_codecFunction _ hf, codecCommand_of_fits f hfits,
      codecCommand_of_fits (s := destroySessions s) f hfits]
    rfl
  all_goals
    obtain ⟨us, hus⟩ := hstages rfl
    exact congrArg Host.Outcome.next (pipeCommand_destroySessions _ hfits hus)

@[simp] theorem inFlight_busyFor (w : Word32) (k : Nat) (s : State) : (inFlight w k s).busyFor = some k := rfl

@[simp] theorem inFlight_cmd (w : Word32) (k : Nat) (s : State) : (inFlight w k s).cmd = s.cmd := by
  obtain h | h := inFlight_cases w k s <;> rw [h] <;> rfl

@[simp] theorem inFlight_inputs (w : Word32) (k : Nat) (s : State) : (inFlight w k s).inputs = s.inputs := by
  obtain h | h := inFlight_cases w k s <;> rw [h] <;> rfl

/-- Apart from `BUSY`, a command in flight has left its mark in the flags and the sessions only (R354). -/
theorem inFlight_exceptBusy (w : Word32) (k : Nat) (s : State) :
    { inFlight w k s with busyFor := s.busyFor } =
      if startDestroys w (accepted s) then destroySessions (accepted s) else accepted s := by
  cases h : startDestroys w (accepted s) <;> simp only [inFlight, h] <;> rfl

/-- The completion of an accepted command is the command run at once (R395). -/
theorem runWord_inFlight (w : Word32) (k : Nat) {s : State} (hidle : s.busyFor = none) :
    runWord w { inFlight w k s with busyFor := none } = runWord w s := by
  rw [← hidle, inFlight_exceptBusy]
  split
  next hdestroys => rw [runWord_destroySessions hdestroys, runWord_accepted]
  · exact runWord_accepted w s

/-! ### Runs without an access of the host (R395) -/

theorem run_succ_of_next {s t : State} (n : Nat) (h : step s = .next t) :
    Host.Core.run Sys2Proof.core (n + 1) s = Host.Core.run Sys2Proof.core n t := by
  simp only [Host.Core.run, show Sys2Proof.core.step s = .next t from h]

theorem run_one (s : State) : Host.Core.run Sys2Proof.core 1 s = step s := by
  cases h : step s with
  | next t => exact run_succ_of_next 0 h
  | fault r => simp only [Host.Core.run, show Sys2Proof.core.step s = .fault r from h]; rfl
  | refused r => simp only [Host.Core.run, show Sys2Proof.core.step s = .refused r from h]; rfl

/-- With no access to come, `BUSY` is seen to its end and the command in `CMD` completes. -/
theorem run_countdown {k : Nat} {w : Word32} {s : State} (hbusy : s.busyFor = some k) (hin : s.inputs = [])
    (hcmd : s.cmd = w) : Host.Core.run Sys2Proof.core (k + 1) s = runWord w { s with busyFor := none } := by
  induction k generalizing s with
  | zero => rw [run_one, step_complete hbusy, hcmd]
  | succ k ih =>
    rw [run_succ_of_next _ (step_flight_nil hbusy hin)]
    exact ih (s := { s with busyFor := some k }) rfl hin hcmd

/-- An accepted command with no access to come completes as the command run at once (R395, R396). -/
theorem run_inFlight (k : Nat) {s : State} (hidle : s.busyFor = none) (hin : s.inputs = []) :
    Host.Core.run Sys2Proof.core (k + 1) (inFlight s.cmd k s) = runWord s.cmd s :=
  (run_countdown (inFlight_busyFor ..) ((inFlight_inputs ..).trans hin) (inFlight_cmd ..)).trans
    (runWord_inFlight s.cmd k hidle)

/-- Settles O6: the accepted command counts down with nothing to disturb it, and completes as the atomic step does. -/
theorem busyTimeChangesNoResult : Obligations.BusyTimeChangesNoResult := by
  intro s w k hidle hin
  cases k with
  | zero => rw [run_one, ← hin]
  | succ k =>
    rw [run_succ_of_next _ (step_cmdAccepted hidle hin),
      step_cmdWrite (s := { s with inputs := [.writeCmd w 0] }) (v := 0) hidle (.inl rfl)]
    exact run_inFlight (s := latchCommand w { s with inputs := [] }) k hidle rfl

/-! ### The host's accesses while a command is in flight (R397, R398) -/

theorem writeCmd_busy (w : Word32) (n : Nat) {s : State} (hbusy : busy s = true) : writeCmd w n s = .next s :=
  if_pos hbusy

/-- Of the registers other than `CMD`, only `CTRL` takes a write while `BUSY = 1`. -/
theorem writeRegister_busy {num : Nat} (v : Word64) {s : State} (hbusy : busy s = true) (hnum : num ≠ 7) :
    writeRegister num v s = s := by
  unfold writeRegister
  split
  iterate 3 exact if_pos hbusy
  · exact absurd rfl hnum
  · rfl

theorem hostEvent_writeReg_busy {num : Nat} (v : Word64) {s : State} (hbusy : busy s = true) (hnum : num ≠ 7) :
    hostEvent (.writeReg num v) s = .next s := by
  by_cases hzero : num = 0
  · rw [hostEvent, if_pos hzero, writeCmd_busy _ _ hbusy]
  · rw [hostEvent_writeReg v s hzero, writeRegister_busy v hbusy hnum]

theorem writeIbuf_busy {idx : Nat} (b : Byte) {s : State} (hbusy : busy s = true) (hidx : idx < s.cfg.bufCap) :
    writeIbuf idx b s = .next s := by
  rw [writeIbuf, if_neg (Nat.not_le.mpr hidx), if_pos hbusy]

/-- `t` is `s` but for what the host read and the count of free values drawn (R397). -/
def OnlyRead (s t : State) : Prop := { t with hostRead := s.hostRead, draws := s.draws } = s

theorem readRegister_onlyRead (num : Nat) (s : State) : OnlyRead s (readRegister num s) := by
  unfold readRegister
  split <;> rfl

theorem readByte_onlyRead (m : Memory) (idx : Nat) (s : State) : OnlyRead s (readByte m idx s) := by
  unfold readByte
  split <;> rfl

/-- A read of a byte that exists, of either buffer. -/
theorem hostEvent_readByte {e : HostEvent} {idx : Nat} {s : State} (hidx : idx < s.cfg.bufCap)
    (he : e = .readIbuf idx ∨ e = .readObuf idx) : ∃ m, hostEvent e s = .next (readByte m idx s) := by
  obtain rfl | rfl := he
  · exact ⟨s.ibuf, if_neg (Nat.not_le.mpr hidx)⟩
  · exact ⟨s.obuf, if_neg (Nat.not_le.mpr hidx)⟩

/-- Registers other than `OLEN` and `RDATA` show their value, busy or not. -/
theorem readRegister_visible {num : Nat} (s : State) (holen : num ≠ 3) (hrdata : num ≠ 5) :
    readRegister num s = { s with hostRead := registerValue num s } := by
  simp [readRegister, hiddenWhileBusy, holen, hrdata, hostReads]

/-- What the registers show does not tell how much longer `BUSY` will be seen. -/
theorem registerValue_countDown (num : Nat) {s : State} {k : Nat} (rest : List HostEvent)
    (hbusy : s.busyFor = some (k + 1)) :
    registerValue num { s with busyFor := some k, inputs := rest } = registerValue num s := by
  have hstatus : statusWord { s with busyFor := some k, inputs := rest } = statusWord s := by
    simp [statusWord, busy, wopen, ropen, hbusy]
  unfold registerValue
  split
  case h_2 => rw [hstatus]
  all_goals rfl

/-- Settles O7: each access comes to the state in which the command is one step nearer to completion. -/
theorem accessesWhileBusyChangeNothing : Obligations.AccessesWhileBusyChangeNothing := by
  intro s e rest k hflight hin
  rw [step_flight_cons hflight hin]
  have hbusy : busy { s with busyFor := some k, inputs := rest } = true := rfl
  refine ⟨?_, ?_, ?_, ?_, ?_, ?_⟩
  · rintro w n rfl
    exact writeCmd_busy w n hbusy
  · rintro num v hnum rfl
    exact hostEvent_writeReg_busy v hbusy hnum
  · rintro idx b hidx rfl
    exact writeIbuf_busy b hbusy hidx
  · rintro num rfl
    exact ⟨_, rfl, readRegister_onlyRead num _⟩
  · rintro num holen hrdata rfl
    rw [hostEvent, readRegister_visible _ holen hrdata, registerValue_countDown num rest hflight]
  · intro idx hidx he
    obtain ⟨m, hm⟩ := hostEvent_readByte (s := { s with busyFor := some k, inputs := rest }) hidx he
    exact ⟨_, hm, readByte_onlyRead m idx _⟩

end Sys2Proof.Machine
end
